-- ==== Sys2Proof/Word.lean ====
section
/-! DEFINITION. Word.lean: the word types of the block (00_scope.md R9, 20_memory.md R50).
Every datum inside the block is one byte; the one wider word is the 24-bit NOR address. -/

namespace Sys2Proof

/-- One byte: the block's only datum (R50). -/
abbrev Byte := BitVec 8

/-- A NOR device address, `8 * ADDR_BYTES` = 24 bits (R6, R8, R45). -/
abbrev Addr := BitVec 24

end Sys2Proof
end

