-- ==== Sys2Proof/Config.lean ====
section
/-! DEFINITION. Config.lean: the constants the source fixes (R6, R29, R79), the parameters it leaves open (R7), the
constraints a configuration meets (R7, R165), and the free values (R221, R23, R33).
A configuration outside the constraints is refused: `Config.ofRaw` answers `none`, and no `Config` can hold it. -/

namespace Sys2Proof

/-! ### Constants the source fixes (R6) -/

/-- `SYNC1` (R6). -/
def sync1 : Byte := 0xAA#8
/-- `SYNC2` (R6). -/
def sync2 : Byte := 0x55#8
/-- `MAX_FRAME` (R6): the length that the LENGTH byte 0 stands for, and the number of bytes of FD's `Buf`. -/
def maxFrame : Nat := 1029
/-- `PAGE_SIZE` (R6). -/
def pageSize : Nat := 256

/-! ### FD's state codes (R29) and NE's result codes (R79) -/

/-- `IDLE` (R29). -/
def stIdle : BitVec 3 := 0#3
/-- `SAW_SYNC1` (R29). -/
def stSawSync1 : BitVec 3 := 1#3
/-- `READ_LEN` (R29). -/
def stReadLen : BitVec 3 := 2#3
/-- `READ_PAYLOAD` (R29). -/
def stReadPayload : BitVec 3 := 3#3
/-- `READ_CHECKSUM` (R29). -/
def stReadChecksum : BitVec 3 := 4#3

/-- `OK` (R79). -/
def resOk : BitVec 3 := 0#3
/-- `BUSY` (R79): GET_STATUS only. -/
def resBusy : BitVec 3 := 1#3
/-- `TIMEOUT`, the code of `FlashTimeout` (R14, R79). -/
def resTimeout : BitVec 3 := 2#3
/-- `TRANSFER_ERROR`, the code of `FlashTransferError` (R14, R79). -/
def resTransferError : BitVec 3 := 3#3
/-- `ILLEGAL` (R79): op 7 only. -/
def resIllegal : BitVec 3 := 7#3

/-- How BF and FD are joined (R3, R141): apart, or as the receive path in which FD takes what BF pops. -/
inductive Wiring where
  | separate
  | receivePath
deriving DecidableEq, Repr

/-- The parameters of R7, before their constraints are checked. They stand in State (DESIGN CHOICE, log entry 1). -/
structure RawConfig where
  /-- `FIFO_DEPTH` -/
  fifoDepth : Nat
  /-- `CNT_W` -/
  cntW : Nat
  /-- `LEN_W` -/
  lenW : Nat
  /-- `TICK_W` -/
  tickW : Nat
  /-- `T_WE_MS` -/
  tWe : Nat
  /-- `T_PP_MS` -/
  tPp : Nat
  /-- `T_SE_MS` -/
  tSe : Nat
  /-- `T_CE_MS` -/
  tCe : Nat
  cmdRsten : Byte
  cmdRst : Byte
  cmdRdsr : Byte
  cmdWren : Byte
  cmdRead : Byte
  cmdPp : Byte
  cmdSe : Byte
  cmdCe : Byte
  /-- `BUSY_BIT` -/
  busyBit : Nat
deriving DecidableEq, Repr

/-- The constraints of R7, and `T < 2^TICK_W` for each budget (R165). -/
abbrev RawConfig.Legal (r : RawConfig) : Prop :=
  1 ≤ r.fifoDepth ∧ 1 ≤ r.cntW ∧ 11 ≤ r.lenW ∧ 1 ≤ r.tickW ∧ r.busyBit ≤ 7 ∧
    r.tWe < 2 ^ r.tickW ∧ r.tPp < 2 ^ r.tickW ∧ r.tSe < 2 ^ r.tickW ∧ r.tCe < 2 ^ r.tickW

/-- A configuration: the parameters of R7 with the proof that they meet their constraints. -/
structure Config extends RawConfig where
  legal : toRawConfig.Legal
deriving DecidableEq, Repr

/-- A configuration whose parameters break a constraint is refused (R165, 93_implementation_defined.md U13). -/
def Config.ofRaw (r : RawConfig) : Option Config :=
  if h : r.Legal then some { r with legal := h } else none

/-- No two NOR commands share a byte. R7 does not ask for it; telling transactions apart by their first byte needs it. -/
abbrev Config.CommandsDistinct (c : Config) : Prop :=
  [c.cmdRsten, c.cmdRst, c.cmdRdsr, c.cmdWren, c.cmdRead, c.cmdPp, c.cmdSe, c.cmdCe].Nodup

/-- `PTR_W` (R8). -/
def Config.ptrW (c : Config) : Nat := max 1 (Nat.clog 2 c.fifoDepth)
/-- The width of BF's count register (R8). -/
def Config.countW (c : Config) : Nat := Nat.clog 2 (c.fifoDepth + 1)

/-! ### Free values: nothing constrains them -/

/-- The open budgets `T_WE_MS`, `T_PP_MS`, `T_SE_MS`, `T_CE_MS` of the reference configuration (R7: OPEN).
DESIGN CHOICE, log entry 2. -/
opaque Config.openTWe : BitVec 32
opaque Config.openTPp : BitVec 32
opaque Config.openTSe : BitVec 32
opaque Config.openTCe : BitVec 32

/-- What index `i` of BF's storage holds after the `e`-th reset, before a push writes it (R23, R221, U4). DESIGN CHOICE,
log entry 4. -/
opaque Config.freeFifoByte : (e i : Nat) → Byte
/-- What index `i` of FD's `Buf` holds after the `e`-th reset, before a payload byte writes it (R33, R221, U5). DESIGN
CHOICE, log entry 4. -/
opaque Config.freeBufByte : (e i : Nat) → Byte
/-- What `fd_rd_data` shows in the cycle that performs the `e`-th reset (R134 beside R220). DESIGN CHOICE,
log entry 9. -/
opaque Config.freeRdDataInReset : (e : Nat) → Byte
/-- The level of the tick input `ne_now_ms` at reset (R202: an input). DESIGN CHOICE, log entry 6. -/
opaque Config.freeTick : BitVec 32

/-- The reference configuration of R7. The command bytes and `BUSY_BIT` are the spec's reference values, which it marks
as general knowledge (K1, K2): PRESUMED, log entry 3. The budgets are open. -/
def Config.reference : Config where
  fifoDepth := 256
  cntW := 32
  lenW := 16
  tickW := 32
  tWe := Config.openTWe.toNat
  tPp := Config.openTPp.toNat
  tSe := Config.openTSe.toNat
  tCe := Config.openTCe.toNat
  cmdRsten := 0x66#8
  cmdRst := 0x99#8
  cmdRdsr := 0x05#8
  cmdWren := 0x06#8
  cmdRead := 0x03#8
  cmdPp := 0x02#8
  cmdSe := 0x20#8
  cmdCe := 0xC7#8
  busyBit := 0
  legal := ⟨by decide, by decide, by decide, by decide, by decide,
    Config.openTWe.isLt, Config.openTPp.isLt, Config.openTSe.isLt, Config.openTCe.isLt⟩

end Sys2Proof
end

