-- ==== Sys2Proof/Syntax.lean ====
section
/-! DEFINITION. Syntax.lean: the block's operations, one constructor for each row of opcode_table.json (R2), and the
words at its ports: FD's decode key, BF's port word, NE's request, the NOR transactions (R73 to R81), and one cycle's
inputs (R85, R100, R120, R150). -/

namespace Sys2Proof

/-- The operations of the block (R2). The FD rows whose key fixes the byte have no operand; the others carry it. The NE
rows carry the request fields that acceptance latches (R151); the NOR rows carry what their transaction sends (R80). -/
inductive Instr where
  | fdIdleSync1
  | fdIdleOther (b : Byte)
  | fdSawSync1Sync2
  | fdSawSync1Other (b : Byte)
  | fdLenZero
  | fdLenNonzero (b : Byte)
  | fdPayloadMore (b : Byte)
  | fdPayloadLast (b : Byte)
  | fdChkMatch (b : Byte)
  | fdChkMismatch (b : Byte)
  | fdBadState (st : BitVec 3) (b : Byte)
  | bfNop
  | bfPush (b : Byte)
  | bfPop
  | bfPushPop (b : Byte)
  | neReset (addr : Addr) (len : Nat)
  | neGetStatus (addr : Addr) (len : Nat)
  | neWriteEnable (addr : Addr) (len : Nat)
  | neRead (addr : Addr) (len : Nat)
  | neWrite (addr : Addr) (len : Nat) (wdata : List Byte)
  | neEraseSector (addr : Addr) (len : Nat)
  | neEraseChip (addr : Addr) (len : Nat)
  | neReserved7 (addr : Addr) (len : Nat)
  | norRsten
  | norRst
  | norRdsr
  | norWren
  | norRead (addr : Addr) (rlen : Nat)
  | norPp (addr : Addr) (chunk : List Byte)
  | norSe (addr : Addr)
  | norCe
deriving DecidableEq, Repr

/-- One NE request as its port presents it (R75). `len` stands for the `LEN_W` bits of `ne_req_len`. -/
structure NeReq where
  op : BitVec 3
  addr : Addr
  len : Nat
  wdata : List Byte
deriving DecidableEq, Repr

/-- One transaction as NE puts it on the bus: the bytes it sends and how many it receives (R57, R80). -/
structure BusTx where
  tx : List Byte
  rxCount : Nat
deriving DecidableEq, Repr

/-- The bus oracle's outcome of one transaction (R57, R58). -/
inductive BusAnswer where
  | ok (rx : List Byte)
  | err
deriving DecidableEq, Repr

/-- The register guards of FD's decode rows (R73), evaluated on the pre-state: `idx + 1 < len`, `idx + 1 == len`,
`byte == sum`. -/
structure FdGuards where
  more : Bool
  last : Bool
  chkEq : Bool
deriving DecidableEq, Repr

/-- The words of the block's four encodings (30_encoding.md). -/
inductive PortWord where
  /-- the 11-bit key `K` with the guards it is tried under (R73) -/
  | fdKey (k : BitVec 11) (g : FdGuards)
  /-- the port word `bf_push, bf_pop`, push in bit 1, with `bf_push_data` (R74) -/
  | bfPort (w : BitVec 2) (data : Byte)
  /-- a request on NE's port (R75, R76) -/
  | neReq (r : NeReq)
  /-- a transaction on the NOR bus (R80) -/
  | norTx (t : BusTx)
deriving DecidableEq, Repr

/-- Everything that reaches the block in one clock cycle (R10, R100, R120, R150, R220). `tickAdv` is by how much the
tick input has moved on since the cycle before (R229); `bus` is the draw of R152 and R58: `none` when NE's step does not
end in this cycle, else the answer its transaction gets. `hold` is the receive path's signal of R141. -/
structure CycleIn where
  rst : Bool
  bfPush : Bool
  bfPushData : Byte
  bfPop : Bool
  fdInValid : Bool
  fdInByte : Byte
  fdRdAddr : BitVec 11
  hold : Bool
  neReq : Option NeReq
  tickAdv : Nat
  bus : Option BusAnswer
deriving DecidableEq, Repr

end Sys2Proof
end

