-- ==== Sys2Proof/WellFormed.lean ====
section
/-! DEFINITION. WellFormed.lean: which operations an encoding can stand for, under a configuration: the byte classes of
FD's rows (R73), the request field's width and the write data's length (R75, R232), a page program's shape (R173). -/

namespace Sys2Proof

/-- A byte count fits NE's request length field (R7, R75). -/
abbrev Config.LenFits (c : Config) (n : Nat) : Prop := n < 2 ^ c.lenW

/-- A page program of `n` bytes at `a` stays inside its page and is not empty (R160, R173). -/
abbrev PageFits (a : Addr) (n : Nat) : Prop := 1 ≤ n ∧ a.toNat % pageSize + n ≤ pageSize

/-- The operation is one that some word of its encoding stands for under `c`. -/
def Instr.wf (c : Config) (i : Instr) : Bool :=
  match i with
  | .fdIdleOther b => b != sync1
  | .fdSawSync1Other b => b != sync2
  | .fdLenNonzero b => b != 0#8
  | .fdBadState st _ => decide (5 ≤ st.toNat)
  | .neReset _ n | .neGetStatus _ n | .neWriteEnable _ n | .neRead _ n | .neEraseSector _ n | .neEraseChip _ n
  | .neReserved7 _ n | .norRead _ n => decide (c.LenFits n)
  | .neWrite _ n d => decide (c.LenFits n) && d.length == n
  | .norPp a d => decide (PageFits a d.length)
  | .fdIdleSync1 | .fdSawSync1Sync2 | .fdLenZero | .fdPayloadMore _ | .fdPayloadLast _ | .fdChkMatch _
  | .fdChkMismatch _ | .bfNop | .bfPush _ | .bfPop | .bfPushPop _ | .norRsten | .norRst | .norRdsr | .norWren
  | .norSe _ | .norCe => true

end Sys2Proof
end

