-- ==== Sys2Proof/Decode.lean ====
section
/-! DEFINITION. Decode.lean: the decoders of the block's four encodings (30_encoding.md), total on any word and refusing
by name; after them the encoder, which the machine itself uses to put a transaction on the NOR bus; and the opcode
table's own numbering of a word. -/

namespace Sys2Proof

/-- Why a word stands for no operation. -/
inductive DecodeError where
  /-- no FD row matches: `st = READ_PAYLOAD` and neither guard of rows 7 and 8 holds (R73) -/
  | noFrameRow
  /-- a transaction that sends nothing (R80: byte 0 is the command) -/
  | emptyTransaction
  /-- byte 0 is none of the eight commands (R80) -/
  | unknownCommand
  /-- the command is known; the number of bytes sent or received is not its shape's (R80) -/
  | badShape
deriving DecidableEq, Repr

/-! ### Bit fields and byte order -/

/-- The key `K = st, byte`, with `st` in bits 10:8 (R73). -/
def fdKey (st : BitVec 3) (b : Byte) : BitVec 11 := st ++ b

/-- `st` of a key: bits 10:8 (R73). -/
def keyState (k : BitVec 11) : BitVec 3 := k.extractLsb' 8 3

/-- `byte` of a key: bits 7:0 (R73). -/
def keyByte (k : BitVec 11) : Byte := k.extractLsb' 0 8

/-- The three address bytes, most significant first (R50, R81). -/
def addrBytes (a : Addr) : List Byte := [a.extractLsb' 16 8, a.extractLsb' 8 8, a.extractLsb' 0 8]

/-- The address that three bytes in the order of R81 stand for. -/
def addrOfBytes (hi mid lo : Byte) : Addr := hi ++ mid ++ lo

/-! ### FD's decode key (R73) -/

/-- One row of R73's table: it applies to `k` when `k &&& mask = pattern` and its guard holds. -/
structure FdRow where
  pattern : BitVec 11
  mask : BitVec 11
  guard : FdGuards → Bool
  instr : BitVec 11 → Instr

/-- The row applies to the key under these guards (R73). -/
def FdRow.applies (r : FdRow) (k : BitVec 11) (g : FdGuards) : Bool := (k &&& r.mask == r.pattern) && r.guard g

/-- R73's table, in the order its rows are tried. -/
def fdRows : List FdRow := [
  ⟨0x0AA#11, 0x7FF#11, fun _ => true, fun _ => .fdIdleSync1⟩,
  ⟨0x000#11, 0x700#11, fun _ => true, fun k => .fdIdleOther (keyByte k)⟩,
  ⟨0x155#11, 0x7FF#11, fun _ => true, fun _ => .fdSawSync1Sync2⟩,
  ⟨0x100#11, 0x700#11, fun _ => true, fun k => .fdSawSync1Other (keyByte k)⟩,
  ⟨0x200#11, 0x7FF#11, fun _ => true, fun _ => .fdLenZero⟩,
  ⟨0x200#11, 0x700#11, fun _ => true, fun k => .fdLenNonzero (keyByte k)⟩,
  ⟨0x300#11, 0x700#11, fun g => g.more, fun k => .fdPayloadMore (keyByte k)⟩,
  ⟨0x300#11, 0x700#11, fun g => g.last, fun k => .fdPayloadLast (keyByte k)⟩,
  ⟨0x400#11, 0x700#11, fun g => g.chkEq, fun k => .fdChkMatch (keyByte k)⟩,
  ⟨0x400#11, 0x700#11, fun g => !g.chkEq, fun k => .fdChkMismatch (keyByte k)⟩,
  ⟨0x400#11, 0x400#11, fun _ => true, fun k => .fdBadState (keyState k) (keyByte k)⟩]

/-- FD's operation for a key: the first row of R73 that applies. -/
def decodeFd (k : BitVec 11) (g : FdGuards) : Except DecodeError Instr :=
  match fdRows.find? (fun r => r.applies k g) with
  | some r => .ok (r.instr k)
  | none => .error .noFrameRow

/-! ### The ports of BF and NE (R74 to R77) -/

/-- BF's operation for its port word (R74). All four words are legal. -/
def decodeBf (w : BitVec 2) (data : Byte) : Instr :=
  if w = 0b00#2 then .bfNop
  else if w = 0b10#2 then .bfPush data
  else if w = 0b01#2 then .bfPop
  else .bfPushPop data

/-- NE's operation for a request (R75, R76, R77). The write data is dropped for every operation but WRITE. -/
def decodeNe (r : NeReq) : Instr :=
  if r.op = 0#3 then .neReset r.addr r.len
  else if r.op = 1#3 then .neGetStatus r.addr r.len
  else if r.op = 2#3 then .neWriteEnable r.addr r.len
  else if r.op = 3#3 then .neRead r.addr r.len
  else if r.op = 4#3 then .neWrite r.addr r.len r.wdata
  else if r.op = 5#3 then .neEraseSector r.addr r.len
  else if r.op = 6#3 then .neEraseChip r.addr r.len
  else .neReserved7 r.addr r.len

/-! ### NOR transactions (R80, R81) -/

/-- A command that sends its own byte alone and receives `n` bytes. -/
def decodeBare (i : Instr) (n : Nat) (rest : List Byte) (rx : Nat) : Except DecodeError Instr :=
  if rest = [] ∧ rx = n then .ok i else .error .badShape

/-- The row of R80 that a transaction has the shape of. -/
def decodeNor (c : Config) (t : BusTx) : Except DecodeError Instr :=
  match t.tx with
  | [] => .error .emptyTransaction
  | cmd :: rest =>
    if cmd = c.cmdRsten then decodeBare .norRsten 0 rest t.rxCount
    else if cmd = c.cmdRst then decodeBare .norRst 0 rest t.rxCount
    else if cmd = c.cmdRdsr then decodeBare .norRdsr 1 rest t.rxCount
    else if cmd = c.cmdWren then decodeBare .norWren 0 rest t.rxCount
    else if cmd = c.cmdCe then decodeBare .norCe 0 rest t.rxCount
    else if cmd = c.cmdRead then
      match rest with
      | [hi, mid, lo] => .ok (.norRead (addrOfBytes hi mid lo) t.rxCount)
      | _ => .error .badShape
    else if cmd = c.cmdSe then
      match rest with
      | [hi, mid, lo] => if t.rxCount = 0 then .ok (.norSe (addrOfBytes hi mid lo)) else .error .badShape
      | _ => .error .badShape
    else if cmd = c.cmdPp then
      match rest with
      | hi :: mid :: lo :: chunk =>
        if t.rxCount = 0 ∧ PageFits (addrOfBytes hi mid lo) chunk.length
        then .ok (.norPp (addrOfBytes hi mid lo) chunk) else .error .badShape
      | _ => .error .badShape
    else .error .unknownCommand

/-- The operation a word of any of the four encodings stands for. -/
def decode (c : Config) : PortWord → Except DecodeError Instr
  | .fdKey k g => decodeFd k g
  | .bfPort w data => .ok (decodeBf w data)
  | .neReq r => .ok (decodeNe r)
  | .norTx t => decodeNor c t

/-! ### The encoder -/

/-- Guards under which neither row of a guarded pair applies by its register test. -/
def noGuards : FdGuards := ⟨false, false, false⟩

/-- A word that stands for the operation: FD's rows as their key with the guard the row needs (R73), BF's and NE's as
their port words (R74, R76), NOR's as their transaction (R80). -/
def encode (c : Config) : Instr → PortWord
  | .fdIdleSync1 => .fdKey (fdKey stIdle sync1) noGuards
  | .fdIdleOther b => .fdKey (fdKey stIdle b) noGuards
  | .fdSawSync1Sync2 => .fdKey (fdKey stSawSync1 sync2) noGuards
  | .fdSawSync1Other b => .fdKey (fdKey stSawSync1 b) noGuards
  | .fdLenZero => .fdKey (fdKey stReadLen 0#8) noGuards
  | .fdLenNonzero b => .fdKey (fdKey stReadLen b) noGuards
  | .fdPayloadMore b => .fdKey (fdKey stReadPayload b) { noGuards with more := true }
  | .fdPayloadLast b => .fdKey (fdKey stReadPayload b) { noGuards with last := true }
  | .fdChkMatch b => .fdKey (fdKey stReadChecksum b) { noGuards with chkEq := true }
  | .fdChkMismatch b => .fdKey (fdKey stReadChecksum b) noGuards
  | .fdBadState st b => .fdKey (fdKey st b) noGuards
  | .bfNop => .bfPort 0b00#2 0#8
  | .bfPush b => .bfPort 0b10#2 b
  | .bfPop => .bfPort 0b01#2 0#8
  | .bfPushPop b => .bfPort 0b11#2 b
  | .neReset a n => .neReq ⟨0#3, a, n, []⟩
  | .neGetStatus a n => .neReq ⟨1#3, a, n, []⟩
  | .neWriteEnable a n => .neReq ⟨2#3, a, n, []⟩
  | .neRead a n => .neReq ⟨3#3, a, n, []⟩
  | .neWrite a n d => .neReq ⟨4#3, a, n, d⟩
  | .neEraseSector a n => .neReq ⟨5#3, a, n, []⟩
  | .neEraseChip a n => .neReq ⟨6#3, a, n, []⟩
  | .neReserved7 a n => .neReq ⟨7#3, a, n, []⟩
  | .norRsten => .norTx ⟨[c.cmdRsten], 0⟩
  | .norRst => .norTx ⟨[c.cmdRst], 0⟩
  | .norRdsr => .norTx ⟨[c.cmdRdsr], 1⟩
  | .norWren => .norTx ⟨[c.cmdWren], 0⟩
  | .norRead a n => .norTx ⟨c.cmdRead :: addrBytes a, n⟩
  | .norPp a d => .norTx ⟨c.cmdPp :: addrBytes a ++ d, 0⟩
  | .norSe a => .norTx ⟨c.cmdSe :: addrBytes a, 0⟩
  | .norCe => .norTx ⟨[c.cmdCe], 0⟩

/-- The transaction a NOR row puts on the bus (R80, R81, R168 to R175), and `none` for every other row. -/
def norTx (c : Config) (i : Instr) : Option BusTx :=
  match encode c i with
  | .norTx t => some t
  | .fdKey _ _ | .bfPort _ _ | .neReq _ => none

/-! ### The opcode table's numbering of a word

The table gives four encodings and no tag to tell them apart by: BF's 2-bit port word and NE's 3-bit op are both one byte
wide there, and FD's guards stand in no bit. How a bare number is read is a DESIGN CHOICE, log entry 12. -/

/-- Byte `k` of a word whose first byte is its least significant one. -/
def wordByte (w k : Nat) : Byte := BitVec.ofNat 8 (w >>> (8 * k))

/-- The first `n` bytes of a word, in the order they are sent. -/
def wordBytes (w n : Nat) : List Byte := (List.range n).map (wordByte w)

/-- A one-byte NOR word: the command byte, every operand byte zero and, for a page program, one zero data byte. -/
def decodeCommandByte (c : Config) (cmd : Byte) : Option Instr :=
  if cmd = c.cmdRsten then some .norRsten
  else if cmd = c.cmdRst then some .norRst
  else if cmd = c.cmdRdsr then some .norRdsr
  else if cmd = c.cmdWren then some .norWren
  else if cmd = c.cmdCe then some .norCe
  else if cmd = c.cmdRead then some (.norRead 0#24 0)
  else if cmd = c.cmdSe then some (.norSe 0#24)
  else if cmd = c.cmdPp then some (.norPp 0#24 [0#8])
  else none

/-- The instruction read from a word numbered as opcode_table.json numbers it. A key's guards are taken to hold, so that
the first row of a guarded pair is meant. -/
def decodeTableWord (nbits w : Nat) : Option Instr :=
  if nbits = 2 then
    if w < 4 then some (decodeBf (BitVec.ofNat 2 w) 0#8) else none
  else if nbits = 3 then
    if w < 8 then some (decodeNe ⟨BitVec.ofNat 3 w, 0#24, 0, []⟩) else none
  else if nbits = 8 then
    if w < 8 then some (decodeNe ⟨BitVec.ofNat 3 w, 0#24, 0, []⟩)
    else if w < 256 then decodeCommandByte Config.reference (BitVec.ofNat 8 w) else none
  else if nbits = 11 ∨ nbits = 16 then
    if w < 2048 then (decodeFd (BitVec.ofNat 11 w) ⟨true, true, true⟩).toOption else none
  else if 32 ≤ nbits ∧ nbits % 8 = 0 ∧ w < 2 ^ nbits then
    (decodeNor Config.reference ⟨wordBytes w (nbits / 8), 0⟩).toOption
  else none

end Sys2Proof
end

