-- ==== Sys2Proof/Machine/State.lean ====
section
/-! DEFINITION. Machine/State.lean: everything the spec gives the block (10_state.md), its ports' values in the current
cycle, the reasons a step stops, and the state after reset (R221). Plain data throughout. -/

namespace Sys2Proof.Machine

/-- A storage array, written cells only: index and byte, indices strictly rising. An index that is not listed has not been
written since reset and holds any value (R23, R33), which no byte stands for; so equal lists are equal arrays. -/
abbrev Memory := List Host.Cell

/-- BF's state (R20, R23 to R27). -/
structure BfState where
  /-- `FifoMem` (R23) -/
  fifoMem : Memory
  /-- `head`, `PTR_W` bits (R24) -/
  head : Nat
  /-- `tail`, `PTR_W` bits (R25) -/
  tail : Nat
  /-- `count` (R26) -/
  count : Nat
  /-- `ovf_cnt`, `CNT_W` bits (R27) -/
  ovfCnt : Nat
deriving DecidableEq, Repr

/-- FD's state (R20, R29 to R34). -/
structure FdState where
  /-- `st` (R29) -/
  st : BitVec 3
  /-- `len` (R30) -/
  len : BitVec 11
  /-- `idx` (R31) -/
  idx : BitVec 11
  /-- `sum` (R32) -/
  sum : Byte
  /-- `Buf` (R33) -/
  buf : Memory
  /-- `frame_cnt`, `CNT_W` bits (R34) -/
  frameCnt : Nat
  /-- `chk_err_cnt`, `CNT_W` bits (R34) -/
  chkErrCnt : Nat
  /-- `sync_err_cnt`, `CNT_W` bits (R34) -/
  syncErrCnt : Nat
deriving DecidableEq, Repr

/-- The positions of NE's sequences at which a step stops (R152, R155 to R163): each names what the next NE step begins
with. The position decides the operation. -/
inductive NePos where
  /-- RESET, before `NOR_RSTEN` (R155) -/
  | resetEnable
  /-- RESET, before `NOR_RST` (R155) -/
  | resetMemory
  /-- GET_STATUS, before its `NOR_RDSR` (R156) -/
  | status
  /-- WRITE_ENABLE, before `NOR_WREN` (R154, R157) -/
  | weWren
  /-- WRITE_ENABLE, before a poll (R153, R154, R157) -/
  | wePoll
  /-- READ, before `NOR_READ` (R158) -/
  | read
  /-- WRITE, at the head of its loop (R159) -/
  | wrLoop
  /-- WRITE, before a poll of `WREN_SEQ` (R153, R154, R159) -/
  | wrWePoll
  /-- WRITE, before `NOR_PP` (R159) -/
  | wrProgram
  /-- WRITE, before a poll after `NOR_PP` (R153, R159) -/
  | wrPoll
  /-- ERASE_SECTOR, before `NOR_WREN` (R154, R161) -/
  | seWren
  /-- ERASE_SECTOR, before a poll of `WREN_SEQ` (R153, R154, R161) -/
  | seWePoll
  /-- ERASE_SECTOR, before `NOR_SE` (R161) -/
  | seErase
  /-- ERASE_SECTOR, before a poll after `NOR_SE` (R153, R161) -/
  | sePoll
  /-- ERASE_CHIP, before `NOR_WREN` (R154, R162) -/
  | ceWren
  /-- ERASE_CHIP, before a poll of `WREN_SEQ` (R153, R154, R162) -/
  | ceWePoll
  /-- ERASE_CHIP, before `NOR_CE` (R162) -/
  | ceErase
  /-- ERASE_CHIP, before a poll after `NOR_CE` (R153, R162) -/
  | cePoll
  /-- op 7, before `finish` (R163) -/
  | illegal
deriving DecidableEq, Repr

/-- `ne_phase` (R36): `IDLE`, or `RUN` at a position of a sequence with the loop counter `k`, the number of polls already
made in the busy-poll under way. -/
inductive NePhase where
  | idle
  | run (pos : NePos) (k : Nat)
deriving DecidableEq, Repr

/-- NE's state (R20, R36 to R42). -/
structure NeState where
  /-- `ne_phase` (R36) -/
  phase : NePhase
  /-- `op` of the request latch (R37) -/
  op : BitVec 3
  /-- `addr` of the request latch (R37) -/
  addr : Addr
  /-- `rlen` of the request latch, `LEN_W` bits (R37) -/
  rlen : Nat
  /-- `wdata` of the request latch (R37) -/
  wdata : List Byte
  /-- `cur_addr` (R38) -/
  curAddr : Addr
  /-- `off`, `LEN_W` bits (R38) -/
  off : Nat
  /-- `t0`, `TICK_W` bits (R38) -/
  t0 : Nat
  /-- `result` (R39) -/
  result : BitVec 3
  /-- `bytes_done`, `LEN_W` bits (R40) -/
  bytesDone : Nat
  /-- `rdata` (R41) -/
  rdata : List Byte
  /-- `done` (R42) -/
  done : Bool
deriving DecidableEq, Repr

/-- The block's output ports in one cycle (R43, R100, R120, R150). `busTx` is the transaction of the NE step that ends in
the cycle, if it has one (R57, R152). -/
structure Outputs where
  bfPushOk : Bool
  bfPopValid : Bool
  bfPopData : Byte
  bfFull : Bool
  bfEmpty : Bool
  bfLen : Nat
  bfOvfCnt : Nat
  bfOvf : Bool
  fdRdData : Byte
  fdFrameValid : Bool
  fdFrameLen : BitVec 11
  fdFrameChk : Byte
  fdChkErr : Bool
  fdSyncErr : Bool
  fdState : BitVec 3
  fdIdle : Bool
  fdFrameCnt : Nat
  fdChkErrCnt : Nat
  fdSyncErrCnt : Nat
  neReady : Bool
  neDone : Bool
  neResult : BitVec 3
  neBytesDone : Nat
  neRdata : List Byte
  busTx : Option BusTx
deriving DecidableEq, Repr

/-- The block, its configuration and its ports. `bf`, `fd` and `ne` are the spec's state (R20). The rest is the model's
own: the configuration the step relation is taken at, which no step changes (R20, R43); the inputs still to come; the
tick input's level and the draw of the current cycle; the milliseconds since the last poll, which the platform's duty of
R229 bounds; the number of resets so far, which names the free contents of the arrays; and the outputs of the last cycle. -/
structure State where
  cfg : Config
  wiring : Wiring
  bf : BfState
  fd : FdState
  ne : NeState
  inputs : List CycleIn
  now : Nat
  bus : Option BusAnswer
  tickSince : Nat
  epoch : Nat
  out : Outputs
deriving DecidableEq, Repr

/-- Why the machine stops in a state that no run from reset reaches. Every one is safe: the model stops where hardware,
if it could be in such a state at all, would go on. -/
inductive Fault where
  /-- Raised by BF_PUSH, BF_POP and BF_PUSH_POP: `head` or `tail` names no entry of `FifoMem` (R24, R25). Safe. -/
  | fifoIndex
  /-- Raised by FD_PAYLOAD_MORE and FD_PAYLOAD_LAST: `idx` names no entry of `Buf` (R31, R33). Safe. -/
  | bufIndex
  /-- Raised by the step: `st = READ_PAYLOAD` with `idx + 1 > len`, for which R73 has no row (DEDUCED, log entry 13). Safe. -/
  | noFrameRow
  /-- Raised by a NOR row: NE's sequence is not at that transaction (R155 to R163 say when each is issued). Safe. -/
  | norNotPending
deriving DecidableEq, Repr

/-- Why the model has no run. -/
inductive Refusal where
  /-- Raised by exec: the instruction has no meaning yet. Safe. -/
  | notModelled (mnemonic : String)
  /-- Raised by NE_WRITE: `len(ne_req_wdata)` is not `ne_req_len` (R232: "must refuse"). Safe. -/
  | writeLengthMismatch
  /-- Raised by the NE rows: the request's length is no value of a `LEN_W`-bit port (R75). Safe: no such input exists. -/
  | lengthFieldWidth
  /-- Raised by the NOR rows: the answer's byte count is not the transaction's (R57: `len(rx) = n`). Safe: no such answer
  exists. -/
  | busAnswerLength
  /-- Raised by NOR_RDSR: the tick advanced by 2^TICK_W or more between two polls (R165, R229, U10: "refuse"). Safe. -/
  | tickDuty
deriving DecidableEq, Repr

/-! ### Reset (R221) -/

/-- BF after reset (R221). -/
def BfState.reset : BfState where
  fifoMem := []
  head := 0
  tail := 0
  count := 0
  ovfCnt := 0

/-- FD after reset (R221). -/
def FdState.reset : FdState where
  st := stIdle
  len := 0#11
  idx := 0#11
  sum := 0#8
  buf := []
  frameCnt := 0
  chkErrCnt := 0
  syncErrCnt := 0

/-- NE after reset (R221). -/
def NeState.reset : NeState where
  phase := .idle
  op := 0#3
  addr := 0#24
  rlen := 0
  wdata := []
  curAddr := 0#24
  off := 0
  t0 := 0
  result := resOk
  bytesDone := 0
  rdata := []
  done := false

/-- The outputs of the reset cycle: every event output 0 (R220), the level outputs of a block already in reset (DESIGN
CHOICE, log entry 7). -/
def Outputs.reset : Outputs where
  bfPushOk := false
  bfPopValid := false
  bfPopData := 0#8
  bfFull := false
  bfEmpty := true
  bfLen := 0
  bfOvfCnt := 0
  bfOvf := false
  fdRdData := Config.freeRdDataInReset 0
  fdFrameValid := false
  fdFrameLen := 0#11
  fdFrameChk := 0#8
  fdChkErr := false
  fdSyncErr := false
  fdState := stIdle
  fdIdle := true
  fdFrameCnt := 0
  fdChkErrCnt := 0
  fdSyncErrCnt := 0
  neReady := true
  neDone := false
  neResult := resOk
  neBytesDone := 0
  neRdata := []
  busTx := none

/-- The block right after reset (R221, R223), in the reference configuration, its units apart (DESIGN CHOICE,
log entry 5), no input yet (log entry 8). -/
def State.reset : State where
  cfg := Config.reference
  wiring := .separate
  bf := BfState.reset
  fd := FdState.reset
  ne := NeState.reset
  inputs := []
  now := Config.freeTick.toNat
  bus := none
  tickSince := 0
  epoch := 0
  out := Outputs.reset

end Sys2Proof.Machine
end

