-- ==== Sys2Proof/Machine/Memory.lean ====
section
/-! DEFINITION. Machine/Memory.lean: reading and writing one byte of a storage array (R23, R33), and the arrays'
canonical form. -/

namespace Sys2Proof.Machine

/-- The byte that was written to index `i` since reset, if any. -/
def Memory.read : Memory → Nat → Option Byte
  | [], _ => none
  | (a, b) :: m, i => if a = i then some b else Memory.read m i

/-- `Mem[i] <- b` (R10): the cell takes its place among the rising indices. -/
def Memory.write : Memory → Nat → Byte → Memory
  | [], i, b => [(i, b)]
  | (a, c) :: m, i, b =>
    if i < a then (i, b) :: (a, c) :: m
    else if i = a then (i, b) :: m
    else (a, c) :: Memory.write m i b

/-- The canonical form: indices strictly rising. An unlisted index reads as no byte at all, so no entry equals it. -/
abbrev Memory.wf (m : Memory) : Prop := m.Pairwise (fun x y => x.1 < y.1)

/-- Every written index names one of the array's `n` entries. -/
abbrev Memory.Within (m : Memory) (n : Nat) : Prop := ∀ x ∈ m, x.1 < n

/-- `FifoMem[i]`: the byte written there, or any value (R23, U4). -/
def State.fifoByte (s : State) (i : Nat) : Byte := (Memory.read s.bf.fifoMem i).getD (Config.freeFifoByte s.epoch i)

/-- `Buf[i]`: the byte written there, or any value (R33, U5). -/
def State.bufByte (s : State) (i : Nat) : Byte := (Memory.read s.fd.buf i).getD (Config.freeBufByte s.epoch i)

/-- `Buf[0:n]` (R12). -/
def State.bufBytes (s : State) (n : Nat) : List Byte := (List.range n).map s.bufByte

/-- The stored bytes of BF, oldest first: `count` entries from `head` on, around the ring (R24 to R26). -/
def State.fifoBytes (s : State) : List Byte :=
  (List.range s.bf.count).map fun k => s.fifoByte ((s.bf.head + k) % s.cfg.fifoDepth)

end Sys2Proof.Machine
end

