-- ==== Sys2Proof/Machine/Operands.lean ====
section
/-! DEFINITION. Machine/Operands.lean: what the operations compute their operands with: the checksum (R12), the write
chunks (R159, R160), the transaction NE's sequence is at (R155 to R163), the poll budgets (R153) and elapsed time
(R165). -/

namespace Sys2Proof.Machine

/-- `sum8`: the sum of the bytes modulo 256 (R12). -/
def sum8 : List Byte → Byte
  | [] => 0#8
  | b :: l => b + sum8 l

/-- LENGTH decoding: 0 stands for 1029 (R71). -/
def decodedLength (b : Byte) : BitVec 11 := if b = 0#8 then BitVec.ofNat 11 maxFrame else b.setWidth 11

/-- `chunk` of R159: up to the end of the page, or the bytes that remain. -/
def chunkLen (ne : NeState) : Nat := min (pageSize - ne.curAddr.toNat % pageSize) (ne.rlen - ne.off)

/-- `wdata[off : off + chunk]` (R159). -/
def chunkData (ne : NeState) : List Byte := (ne.wdata.drop ne.off).take (chunkLen ne)

/-- The operation code that a position's sequence belongs to (R76). -/
def NePos.opCode : NePos → BitVec 3
  | .resetEnable | .resetMemory => 0#3
  | .status => 1#3
  | .weWren | .wePoll => 2#3
  | .read => 3#3
  | .wrLoop | .wrWePoll | .wrProgram | .wrPoll => 4#3
  | .seWren | .seWePoll | .seErase | .sePoll => 5#3
  | .ceWren | .ceWePoll | .ceErase | .cePoll => 6#3
  | .illegal => 7#3

/-- The transaction the next NE step issues at a position, or `none` where it reaches a `finish` first: op 7, and a WRITE
with no byte left (R152, R155 to R163). -/
def nePending (ne : NeState) : NePos → Option Instr
  | .resetEnable => some .norRsten
  | .resetMemory => some .norRst
  | .weWren | .seWren | .ceWren => some .norWren
  | .wrLoop => if ne.off < ne.rlen then some .norWren else none
  | .status | .wePoll | .wrWePoll | .wrPoll | .seWePoll | .sePoll | .ceWePoll | .cePoll => some .norRdsr
  | .read => some (.norRead ne.addr ne.rlen)
  | .wrProgram => some (.norPp ne.curAddr (chunkData ne))
  | .seErase => some (.norSe ne.addr)
  | .ceErase => some .norCe
  | .illegal => none

/-- The result a position finishes with when it issues no transaction (R159 with no byte left, R163). -/
def finishResult : NePos → BitVec 3
  | .illegal => resIllegal
  | .resetEnable | .resetMemory | .status | .weWren | .wePoll | .read | .wrLoop | .wrWePoll | .wrProgram | .wrPoll
  | .seWren | .seWePoll | .seErase | .sePoll | .ceWren | .ceWePoll | .ceErase | .cePoll => resOk

/-- The poll position that `WREN_SEQ` goes on to after its `NOR_WREN` (R154); `none` where no `NOR_WREN` is issued. -/
def pollAfterWren : NePos → Option NePos
  | .weWren => some .wePoll
  | .wrLoop => some .wrWePoll
  | .seWren => some .seWePoll
  | .ceWren => some .ceWePoll
  | .resetEnable | .resetMemory | .status | .wePoll | .read | .wrWePoll | .wrProgram | .wrPoll | .seWePoll | .seErase
  | .sePoll | .ceWePoll | .ceErase | .cePoll | .illegal => none

/-- The budget `T` of the busy-poll that a position belongs to (R153, R154, R159, R161, R162); `none` at GET_STATUS's
status read, which is no poll, and wherever no status is read. -/
def pollBudget (c : Config) : NePos → Option Nat
  | .wePoll | .wrWePoll | .seWePoll | .ceWePoll => some c.tWe
  | .wrPoll => some c.tPp
  | .sePoll => some c.tSe
  | .cePoll => some c.tCe
  | .resetEnable | .resetMemory | .status | .weWren | .read | .wrLoop | .wrProgram | .seWren | .seErase | .ceWren
  | .ceErase | .illegal => none

/-- `(Now() - t0) mod 2^TICK_W` (R165), for `t0` below `2^TICK_W`. -/
def elapsed (c : Config) (now t0 : Nat) : Nat := (now + 2 ^ c.tickW - t0) % 2 ^ c.tickW

/-- How many bytes the transaction of a NOR row receives (R80). -/
def rxCount (c : Config) (i : Instr) : Nat :=
  match norTx c i with
  | some t => t.rxCount
  | none => 0

end Sys2Proof.Machine
end

