-- ==== Sys2Proof/Machine/Flags.lean ====
section
/-! DEFINITION. Machine/Flags.lean: the block's flags, all combinational: BF's status and acceptance (R28, R101), FD's
row guards and idle flag (R35, R73), the payload read port (R134), NE's ready and done (R36, R42), the busy bit (R82), the
event counters' wrap (R27, R34), and all level outputs of a cycle. -/

namespace Sys2Proof.Machine

/-- An event counter of width `w` counts one more event, wrapping (R27, R34, R106). -/
def bump (w n : Nat) : Nat := (n + 1) % 2 ^ w

/-- `bf_full` (R28). -/
def State.bfFull (s : State) : Bool := decide (s.bf.count = s.cfg.fifoDepth)
/-- `bf_empty` (R28). -/
def State.bfEmpty (s : State) : Bool := decide (s.bf.count = 0)

/-- `bf_push_ok`: a push is accepted on the pre-state `count` alone (R101). -/
def State.pushAccepted (s : State) (push : Option Byte) : Bool := push.isSome && decide (s.bf.count < s.cfg.fifoDepth)
/-- `bf_pop_valid`: a pop returns a byte on the pre-state `count` alone (R101). -/
def State.popValid (s : State) (pop : Bool) : Bool := pop && decide (0 < s.bf.count)
/-- `bf_pop_data`: the oldest byte, or 0x00 when no byte is returned (R101). -/
def State.popData (s : State) (pop : Bool) : Byte := if s.popValid pop then s.fifoByte s.bf.head else 0#8
/-- `bf_ovf`: a push is refused (R102, R106). With `count <= FIFO_DEPTH` (R26) this is R101's `count == D`
(DESIGN CHOICE, log entry 19). -/
def State.pushRefused (s : State) (push : Option Byte) : Bool :=
  push.isSome && !decide (s.bf.count < s.cfg.fifoDepth)

/-- The guards of R73's rows 7 to 10 on FD's pre-state. The sums are exact (R9). -/
def fdGuards (fd : FdState) (b : Byte) : FdGuards where
  more := decide (fd.idx.toNat + 1 < fd.len.toNat)
  last := decide (fd.idx.toNat + 1 = fd.len.toNat)
  chkEq := decide (b = fd.sum)

/-- `fd_idle` (R35). -/
def State.fdIdle (s : State) : Bool := decide (s.fd.st = stIdle)

/-- `fd_rd_data` (R134). -/
def State.fdRdData (s : State) (a : BitVec 11) : Byte := if a.toNat < maxFrame then s.bufByte a.toNat else 0#8

/-- `ne_ready` (R36). -/
def State.neReady (s : State) : Bool := decide (s.ne.phase = .idle)

/-- The device is busy by the status byte (R82). -/
def busy (c : Config) (status : Byte) : Bool := status.getLsbD c.busyBit

/-- The status byte of an answered `NOR_RDSR`: `r.rx[0]` (R153, R156). -/
def statusByte : List Byte → Byte
  | [] => 0#8
  | s :: _ => s

/-- The outputs of a cycle in which no event occurs and no transaction ends: the level outputs show the pre-state (R28,
R29, R30, R32, R34, R36, R39 to R43, R107, R134), every event output is 0 (R101, R121). -/
def levelOutputs (s : State) (rdAddr : BitVec 11) : Outputs where
  bfPushOk := false
  bfPopValid := false
  bfPopData := 0#8
  bfFull := s.bfFull
  bfEmpty := s.bfEmpty
  bfLen := s.bf.count
  bfOvfCnt := s.bf.ovfCnt
  bfOvf := false
  fdRdData := s.fdRdData rdAddr
  fdFrameValid := false
  fdFrameLen := s.fd.len
  fdFrameChk := s.fd.sum
  fdChkErr := false
  fdSyncErr := false
  fdState := s.fd.st
  fdIdle := s.fdIdle
  fdFrameCnt := s.fd.frameCnt
  fdChkErrCnt := s.fd.chkErrCnt
  fdSyncErrCnt := s.fd.syncErrCnt
  neReady := s.neReady
  neDone := s.ne.done
  neResult := s.ne.result
  neBytesDone := s.ne.bytesDone
  neRdata := s.ne.rdata
  busTx := none

end Sys2Proof.Machine
end

