-- ==== Sys2Proof/Machine/Ops.lean ====
section
/-! DEFINITION. Machine/Ops.lean: the operations the instructions share: one cycle of BF (R101 to R106), FD's register
writes and events (R122 to R132, R190), NE's acceptance, sequencing, busy-poll and `finish` (R151 to R154), and reset
(R220). The block takes no exception (R196): an event is emitted by the operation that raises it, and an error of NE ends
its operation through `finish`. -/

namespace Sys2Proof.Machine

/-- What a step answers. -/
abbrev Result := Host.Outcome State Fault Refusal

/-- Go on from a next state; a fault or a refusal stands. -/
def andThen (r : Result) (k : State → Result) : Result :=
  match r with
  | .next s => k s
  | .fault f => .fault f
  | .refused e => .refused e

/-! ### One unit's state replaced -/

def State.setBf (s : State) (u : BfState) : State := { s with bf := u }
def State.setFd (s : State) (u : FdState) : State := { s with fd := u }
def State.setNe (s : State) (u : NeState) : State := { s with ne := u }
def State.setOut (s : State) (o : Outputs) : State := { s with out := o }

/-! ### BF -/

/-- BF after a cycle with this push and this pop, both judged on the pre-state (R26, R101 to R106). -/
def bfAfter (s : State) (push : Option Byte) (pop : Bool) : BfState where
  fifoMem := if s.pushAccepted push then Memory.write s.bf.fifoMem s.bf.tail (push.getD 0#8) else s.bf.fifoMem
  head := if s.popValid pop then (s.bf.head + 1) % s.cfg.fifoDepth else s.bf.head
  tail := if s.pushAccepted push then (s.bf.tail + 1) % s.cfg.fifoDepth else s.bf.tail
  count := s.bf.count + (if s.pushAccepted push then 1 else 0) - (if s.popValid pop then 1 else 0)
  ovfCnt := if s.pushRefused push then bump s.cfg.cntW s.bf.ovfCnt else s.bf.ovfCnt

/-- BF's combinational outputs in that cycle (R101). -/
def bfOutputs (s : State) (push : Option Byte) (pop : Bool) : Outputs :=
  { s.out with
    bfPushOk := s.pushAccepted push
    bfPopValid := s.popValid pop
    bfPopData := s.popData pop
    bfOvf := s.pushRefused push }

/-- An accepted push or pop meets an index that names no entry of `FifoMem` (R24, R25: none does in a run). -/
def fifoIndexBad (s : State) (push : Option Byte) (pop : Bool) : Bool :=
  (s.popValid pop && decide (s.cfg.fifoDepth ≤ s.bf.head)) || (s.pushAccepted push && decide (s.cfg.fifoDepth ≤ s.bf.tail))

/-- One cycle of BF (R101 to R106, R110). -/
def bfCycle (push : Option Byte) (pop : Bool) (s : State) : Result :=
  if fifoIndexBad s push pop then .fault .fifoIndex
  else .next ((s.setBf (bfAfter s push pop)).setOut (bfOutputs s push pop))

/-! ### FD -/

/-- `st <- code`, nothing else. -/
def fdGoto (code : BitVec 3) (s : State) : State := s.setFd { s.fd with st := code }

/-- The LENGTH byte is accepted with decoded length `n` (R126, R127). -/
def fdStartPayload (n : BitVec 11) (s : State) : State :=
  s.setFd { s.fd with len := n, idx := 0#11, sum := 0#8, st := stReadPayload }

/-- A payload byte is taken; FD goes on in state `code` (R128, R129). -/
def fdTakePayload (b : Byte) (code : BitVec 3) (s : State) : Result :=
  if s.fd.idx.toNat < maxFrame then
    .next (s.setFd { s.fd with
      buf := Memory.write s.fd.buf s.fd.idx.toNat b, idx := s.fd.idx + 1#11, sum := s.fd.sum + b, st := code })
  else .fault .bufIndex

/-- `emit ProtocolSyncError` and count it (R125, R190, R191). -/
def emitSyncError (s : State) : State :=
  (s.setFd { s.fd with syncErrCnt := bump s.cfg.cntW s.fd.syncErrCnt }).setOut { s.out with fdSyncErr := true }

/-- `emit ProtocolChecksumError` and count it (R131, R190, R192). -/
def emitChecksumError (s : State) : State :=
  (s.setFd { s.fd with chkErrCnt := bump s.cfg.cntW s.fd.chkErrCnt }).setOut { s.out with fdChkErr := true }

/-- `emit FrameAccepted` and count it (R130, R190). -/
def emitFrameAccepted (s : State) : State :=
  (s.setFd { s.fd with frameCnt := bump s.cfg.cntW s.fd.frameCnt }).setOut { s.out with fdFrameValid := true }

/-! ### NE -/

/-- `finish(res)` (R152). -/
def neFinish (res : BitVec 3) (s : State) : State :=
  s.setNe { s.ne with result := res, done := true, phase := .idle }

/-- NE's step ends; the next one begins at `pos` with loop counter `k` (R36, R152). A step that finishes nothing writes
`done <- 0` (R42). -/
def neGoto (pos : NePos) (k : Nat) (s : State) : State :=
  s.setNe { s.ne with phase := .run pos k, done := false }

/-- NE after accepting a request (R151). The acceptance step finishes nothing, so `done <- 0` (R42). -/
def neAccepted (pos : NePos) (a : Addr) (n : Nat) (wdata : List Byte) (ne : NeState) : NeState :=
  { ne with
    phase := .run pos 0, op := pos.opCode, addr := a, rlen := n, wdata := wdata
    curAddr := a, off := 0, bytesDone := 0, done := false }

/-- A request is presented (R151). While NE is not ready it is ignored (R226). A length that no `LEN_W`-bit port carries,
or write data of another length than `ne_req_len` (R232), is refused. -/
def neRequest (pos : NePos) (a : Addr) (n : Nat) (wdata : List Byte) (s : State) : Result :=
  if s.neReady then
    if s.cfg.LenFits n then
      if pos = .wrLoop ∧ wdata.length ≠ n then .refused .writeLengthMismatch
      else .next (s.setNe (neAccepted pos a n wdata s.ne))
    else .refused .lengthFieldWidth
  else .next s

/-- The answer has as many bytes as the transaction receives (R57). -/
def answerFits (n : Nat) : BusAnswer → Bool
  | .ok rx => rx.length == n
  | .err => true

/-- NE issues the transaction `i` (R57, R152). In a cycle in which NE's step does not end, NE does not change. Else the
transaction stands on the bus, and `k` goes on from the position and loop counter it was issued at with its answer. -/
def norIssue (i : Instr) (s : State) (k : NePos → Nat → BusAnswer → State → Result) : Result :=
  match s.ne.phase with
  | .idle => .fault .norNotPending
  | .run pos n =>
    if nePending s.ne pos = some i then
      match s.bus with
      | none => .next s
      | some a =>
        if answerFits (rxCount s.cfg i) a then k pos n a (s.setOut { s.out with busTx := norTx s.cfg i })
        else .refused .busAnswerLength
    else .fault .norNotPending

/-- After a transaction that only sends: an error finishes the operation, else it goes on to `next` (R155, R164). -/
def sendThen (ans : BusAnswer) (next : State → State) (s : State) : Result :=
  match ans with
  | .err => .next (neFinish resTransferError s)
  | .ok _ => .next (next s)

/-- The chunk that was just programmed is complete (R159). -/
def chunkDone (s : State) : State :=
  let off := s.ne.off + chunkLen s.ne
  let s' := s.setNe { s.ne with
    off := off, bytesDone := off, curAddr := s.ne.curAddr + BitVec.ofNat 24 (chunkLen s.ne) }
  if off < s.ne.rlen then neGoto .wrLoop 0 s' else neFinish resOk s'

/-- What follows a `WAIT_IDLE` that returned OK at a poll position (R157, R159, R161, R162). -/
def pollPassed (pos : NePos) (s : State) : State :=
  match pos with
  | .wrWePoll => neGoto .wrProgram 0 s
  | .seWePoll => neGoto .seErase 0 s
  | .ceWePoll => neGoto .ceErase 0 s
  | .wrPoll => chunkDone s
  | .wePoll | .sePoll | .cePoll | .resetEnable | .resetMemory | .status | .weWren | .read | .wrLoop | .wrProgram
  | .seWren | .seErase | .ceWren | .ceErase | .illegal => neFinish resOk s

/-- `t0 <- Now()` in the NE step of a busy-poll's first status read (R153). `Now()` is the tick of the cycle in which the NE
step ends; which cycle of a longer step it is read in, R11, R38 and R152 do not say (DESIGN CHOICE, log entry 20). -/
def sampleT0 (k : Nat) (s : State) : State := if k = 0 then s.setNe { s.ne with t0 := s.now } else s

/-- One poll of `WAIT_IDLE(T)` (R153), the `k`-th with `k` counted from 0. `Now()` is the tick of the cycle in which the poll's
NE step ends, as in `sampleT0` (DESIGN CHOICE, log entry 20). The platform keeps the tick's advance between two polls below
2^TICK_W; where the elapsed time is asked for and it did not, there is no run (R165, R229, U10; DEDUCED, log entry 10). -/
def pollStep (t : Nat) (pos : NePos) (k : Nat) (ans : BusAnswer) (s : State) : Result :=
  let s := sampleT0 k s
  match ans with
  | .err => .next (neFinish resTransferError s)
  | .ok rx =>
    if busy s.cfg (statusByte rx) then
      if k ≠ 0 ∧ 2 ^ s.cfg.tickW ≤ s.tickSince then .refused .tickDuty
      else if t ≤ elapsed s.cfg s.now s.ne.t0 then .next (neFinish resTimeout s)
      else .next (neGoto pos (k + 1) { s with tickSince := 0 })
    else .next (pollPassed pos s)

/-- The status read of GET_STATUS (R156). -/
def statusDone (ans : BusAnswer) (s : State) : State :=
  match ans with
  | .err => neFinish resTransferError s
  | .ok rx => neFinish (if busy s.cfg (statusByte rx) then resBusy else resOk) s

/-- READ's transaction is answered (R158). -/
def readDone (ans : BusAnswer) (s : State) : State :=
  match ans with
  | .err => neFinish resTransferError (s.setNe { s.ne with rdata := [] })
  | .ok rx => neFinish resOk (s.setNe { s.ne with rdata := rx, bytesDone := s.ne.rlen })

/-! ### Reset -/

/-- The edge of a cycle with `rst = 1` (R220, R221, R222). The arrays hold any value afterwards, named by the number of the
reset. The outputs are those of the pre-state, with every event output 0, and no transaction is started. -/
def resetBlock (s : State) : State :=
  { s with
    bf := BfState.reset
    fd := FdState.reset
    ne := NeState.reset
    epoch := s.epoch + 1
    tickSince := 0
    out := { s.out with neDone := false, fdRdData := Config.freeRdDataInReset (s.epoch + 1) } }

end Sys2Proof.Machine
end

