-- ==== Sys2Proof/Machine/ByteFifo.lean ====
section
/-! DEFINITION. Machine/ByteFifo.lean: BF's operations, one word of R74 each (R102 to R105). -/

namespace Sys2Proof.Machine

/-- BF_NOP (R105). -/
def execBfNop (s : State) : Result := bfCycle none false s

/-- BF_PUSH (R102, R106). -/
def execBfPush (b : Byte) (s : State) : Result := bfCycle (some b) false s

/-- BF_POP (R103). -/
def execBfPop (s : State) : Result := bfCycle none true s

/-- BF_PUSH_POP (R104, R106). -/
def execBfPushPop (b : Byte) (s : State) : Result := bfCycle (some b) true s

end Sys2Proof.Machine
end

