-- ==== Sys2Proof/Machine/FrameDecoder.lean ====
section
/-! DEFINITION. Machine/FrameDecoder.lean: FD's operations, one row of R73 each (R122 to R132). Which row a byte selects
is the decoder's part (R121); a meaning is the row's own effect. -/

namespace Sys2Proof.Machine

/-- FD_IDLE_SYNC1 (R122). -/
def execFdIdleSync1 (s : State) : Result := .next (fdGoto stSawSync1 s)

/-- FD_IDLE_OTHER: nothing written, no event (R123). -/
def execFdIdleOther (_b : Byte) (s : State) : Result := .next s

/-- FD_SAW_SYNC1_SYNC2 (R124). -/
def execFdSawSync1Sync2 (s : State) : Result := .next (fdGoto stReadLen s)

/-- FD_SAW_SYNC1_OTHER, 0xAA among the bytes (R125). -/
def execFdSawSync1Other (_b : Byte) (s : State) : Result := .next (emitSyncError (fdGoto stIdle s))

/-- FD_LEN_ZERO (R126). -/
def execFdLenZero (s : State) : Result := .next (fdStartPayload (BitVec.ofNat 11 maxFrame) s)

/-- FD_LEN_NONZERO (R127). -/
def execFdLenNonzero (b : Byte) (s : State) : Result := .next (fdStartPayload (b.setWidth 11) s)

/-- FD_PAYLOAD_MORE (R128). -/
def execFdPayloadMore (b : Byte) (s : State) : Result := fdTakePayload b stReadPayload s

/-- FD_PAYLOAD_LAST (R129). -/
def execFdPayloadLast (b : Byte) (s : State) : Result := fdTakePayload b stReadChecksum s

/-- FD_CHK_MATCH (R130). -/
def execFdChkMatch (_b : Byte) (s : State) : Result := .next (emitFrameAccepted (fdGoto stIdle s))

/-- FD_CHK_MISMATCH (R131). -/
def execFdChkMismatch (_b : Byte) (s : State) : Result := .next (emitChecksumError (fdGoto stIdle s))

/-- FD_BAD_STATE (R132). -/
def execFdBadState (_st : BitVec 3) (_b : Byte) (s : State) : Result := .next (fdGoto stIdle s)

end Sys2Proof.Machine
end

