-- ==== Sys2Proof/Machine/NorCommand.lean ====
section
/-! DEFINITION. Machine/NorCommand.lean: the transactions NE issues (R80, R168 to R175): each is one NE step, which puts
it on the bus, takes its answer and runs NE's sequence on up to the next transaction or a `finish` (R152). -/

namespace Sys2Proof.Machine

/-- NOR_RSTEN: RESET goes on to `NOR_RST` (R155, R168). -/
def execNorRsten (s : State) : Result :=
  norIssue .norRsten s fun _ _ ans s => sendThen ans (neGoto .resetMemory 0) s

/-- NOR_RST: RESET is finished; NE neither waits nor polls (R155, R169). -/
def execNorRst (s : State) : Result :=
  norIssue .norRst s fun _ _ ans s => sendThen ans (neFinish resOk) s

/-- NOR_RDSR: GET_STATUS's status read (R156), or a poll of `WAIT_IDLE` with its position's budget (R153, R170). -/
def execNorRdsr (s : State) : Result :=
  norIssue .norRdsr s fun pos k ans s =>
    match pollBudget s.cfg pos with
    | some t => pollStep t pos k ans s
    | none => .next (statusDone ans s)

/-- NOR_WREN: `WREN_SEQ` goes on to its busy-poll (R154, R171). -/
def execNorWren (s : State) : Result :=
  norIssue .norWren s fun pos _ ans s =>
    match pollAfterWren pos with
    | some next => sendThen ans (neGoto next 0) s
    | none => .fault .norNotPending

/-- NOR_READ (R158, R172). -/
def execNorRead (a : Addr) (n : Nat) (s : State) : Result :=
  norIssue (.norRead a n) s fun _ _ ans s => .next (readDone ans s)

/-- NOR_PP: WRITE goes on to the busy-poll of the chunk (R159, R173). -/
def execNorPp (a : Addr) (chunk : List Byte) (s : State) : Result :=
  norIssue (.norPp a chunk) s fun _ _ ans s => sendThen ans (neGoto .wrPoll 0) s

/-- NOR_SE: ERASE_SECTOR goes on to its busy-poll (R161, R174). -/
def execNorSe (a : Addr) (s : State) : Result :=
  norIssue (.norSe a) s fun _ _ ans s => sendThen ans (neGoto .sePoll 0) s

/-- NOR_CE: ERASE_CHIP goes on to its busy-poll (R162, R175). -/
def execNorCe (s : State) : Result :=
  norIssue .norCe s fun _ _ ans s => sendThen ans (neGoto .cePoll 0) s

end Sys2Proof.Machine
end

