-- ==== Sys2Proof/Machine/NorRequest.lean ====
section
/-! DEFINITION. Machine/NorRequest.lean: the requests NE takes (R75 to R77), each accepted as R151 says and set at the
start of its operation's sequence (R155 to R163). The sequence itself runs in the NE steps that follow: `nePending` says
what each issues, and the NOR rows what it does. -/

namespace Sys2Proof.Machine

/-- NE_RESET (R151, R155). -/
def execNeReset (a : Addr) (n : Nat) (s : State) : Result := neRequest .resetEnable a n [] s

/-- NE_GET_STATUS (R151, R156). -/
def execNeGetStatus (a : Addr) (n : Nat) (s : State) : Result := neRequest .status a n [] s

/-- NE_WRITE_ENABLE (R151, R157). -/
def execNeWriteEnable (a : Addr) (n : Nat) (s : State) : Result := neRequest .weWren a n [] s

/-- NE_READ (R151, R158). -/
def execNeRead (a : Addr) (n : Nat) (s : State) : Result := neRequest .read a n [] s

/-- NE_WRITE (R151, R159, R232). -/
def execNeWrite (a : Addr) (n : Nat) (wdata : List Byte) (s : State) : Result := neRequest .wrLoop a n wdata s

/-- NE_ERASE_SECTOR (R151, R161). -/
def execNeEraseSector (a : Addr) (n : Nat) (s : State) : Result := neRequest .seWren a n [] s

/-- NE_ERASE_CHIP (R151, R162). -/
def execNeEraseChip (a : Addr) (n : Nat) (s : State) : Result := neRequest .ceWren a n [] s

/-- NE_RESERVED_7 (R77, R151, R163). -/
def execNeReserved7 (a : Addr) (n : Nat) (s : State) : Result := neRequest .illegal a n [] s

end Sys2Proof.Machine
end

