-- ==== Sys2Proof/Machine/Dispatch.lean ====
section
/-! DEFINITION. Machine/Dispatch.lean: the meaning of each operation, one arm each. -/

namespace Sys2Proof.Machine

def exec (i : Instr) (s : State) : Host.Outcome State Fault Refusal :=
  match i with
  | .fdIdleSync1 => Sys2Proof.Machine.execFdIdleSync1 s
  | .fdIdleOther b => Sys2Proof.Machine.execFdIdleOther b s
  | .fdSawSync1Sync2 => Sys2Proof.Machine.execFdSawSync1Sync2 s
  | .fdSawSync1Other b => Sys2Proof.Machine.execFdSawSync1Other b s
  | .fdLenZero => Sys2Proof.Machine.execFdLenZero s
  | .fdLenNonzero b => Sys2Proof.Machine.execFdLenNonzero b s
  | .fdPayloadMore b => Sys2Proof.Machine.execFdPayloadMore b s
  | .fdPayloadLast b => Sys2Proof.Machine.execFdPayloadLast b s
  | .fdChkMatch b => Sys2Proof.Machine.execFdChkMatch b s
  | .fdChkMismatch b => Sys2Proof.Machine.execFdChkMismatch b s
  | .fdBadState st b => Sys2Proof.Machine.execFdBadState st b s
  | .bfNop => Sys2Proof.Machine.execBfNop s
  | .bfPush b => Sys2Proof.Machine.execBfPush b s
  | .bfPop => Sys2Proof.Machine.execBfPop s
  | .bfPushPop b => Sys2Proof.Machine.execBfPushPop b s
  | .neReset a n => Sys2Proof.Machine.execNeReset a n s
  | .neGetStatus a n => Sys2Proof.Machine.execNeGetStatus a n s
  | .neWriteEnable a n => Sys2Proof.Machine.execNeWriteEnable a n s
  | .neRead a n => Sys2Proof.Machine.execNeRead a n s
  | .neWrite a n wdata => Sys2Proof.Machine.execNeWrite a n wdata s
  | .neEraseSector a n => Sys2Proof.Machine.execNeEraseSector a n s
  | .neEraseChip a n => Sys2Proof.Machine.execNeEraseChip a n s
  | .neReserved7 a n => Sys2Proof.Machine.execNeReserved7 a n s
  | .norRsten => Sys2Proof.Machine.execNorRsten s
  | .norRst => Sys2Proof.Machine.execNorRst s
  | .norRdsr => Sys2Proof.Machine.execNorRdsr s
  | .norWren => Sys2Proof.Machine.execNorWren s
  | .norRead a n => Sys2Proof.Machine.execNorRead a n s
  | .norPp a chunk => Sys2Proof.Machine.execNorPp a chunk s
  | .norSe a => Sys2Proof.Machine.execNorSe a s
  | .norCe => Sys2Proof.Machine.execNorCe s

end Sys2Proof.Machine
end

