-- ==== Sys2Proof/Machine/Cycle.lean ====
section
/-! DEFINITION. Machine/Cycle.lean: one clock cycle of the block (R10): the inputs are sampled, each unit's operation is
decoded from the pre-state and its ports, and the three units take their step at one edge (R20, R198). Each operation
writes its own unit only, so running the three one after the other is running them at once. -/

namespace Sys2Proof.Machine

/-! ### The stimulus notation (R85) -/

/-- `idle`: no input to any unit for one cycle (R85, R206). -/
def idleIn : CycleIn where
  rst := false
  bfPush := false
  bfPushData := 0#8
  bfPop := false
  fdInValid := false
  fdInByte := 0#8
  fdRdAddr := 0#11
  hold := false
  neReq := none
  tickAdv := 0
  bus := none

/-- `feed b` (R85). -/
def feed (b : Byte) : CycleIn := { idleIn with fdInValid := true, fdInByte := b }
/-- `push b` (R85). -/
def push (b : Byte) : CycleIn := { idleIn with bfPush := true, bfPushData := b }
/-- `pop` (R85). -/
def pop : CycleIn := { idleIn with bfPop := true }
/-- `pushpop b` (R85). -/
def pushpop (b : Byte) : CycleIn := { idleIn with bfPush := true, bfPushData := b, bfPop := true }
/-- The cycle in which `ne OP addr len data` presents its request (R85). -/
def present (r : NeReq) : CycleIn := { idleIn with neReq := some r }
/-- `bus ok rx` and `bus err`: the cycle in which NE's step ends with this answer (R85). -/
def answer (a : BusAnswer) : CycleIn := { idleIn with bus := some a }
/-- The cycles of an NE step that takes `i + 1` cycles, ending with this answer (R152): nothing else is presented. -/
def answerAfter (i : Nat) (a : BusAnswer) : List CycleIn := List.replicate i idleIn ++ [answer a]
/-- `tick t` for a tick input that has moved on by `d` (R85, R229). -/
def tickBy (d : Nat) : CycleIn := { idleIn with tickAdv := d }
/-- A cycle with `rst = 1` (R220). -/
def resetIn : CycleIn := { idleIn with rst := true }

/-- `stream bytes` (R86). -/
def stream (l : List Byte) : List CycleIn := l.map feed

/-- The LENGTH byte of a payload of `n` bytes: `n` itself, and 0 for 1029 (R86). -/
def lengthByte (n : Nat) : Byte := if n = maxFrame then 0#8 else BitVec.ofNat 8 n

/-- The bytes of a frame on the wire with a checksum byte of one's own (R70, R86: `badframe`). -/
def frameBytesWith (p : List Byte) (c : Byte) : List Byte := sync1 :: sync2 :: lengthByte p.length :: p ++ [c]

/-- The bytes of a well-formed frame (R70, R86: `frame`). -/
def frameBytes (p : List Byte) : List Byte := frameBytesWith p (sum8 p)

/-- The payload lengths a LENGTH byte can stand for (R71). -/
abbrev EncodableLength (n : Nat) : Prop := (1 ≤ n ∧ n ≤ 255) ∨ n = maxFrame

/-! ### A cycle -/

/-- The inputs of the next cycle: the head of the queue, or none to any unit (DESIGN CHOICE, log entry 8). -/
def State.nextIn (s : State) : CycleIn :=
  match s.inputs with
  | [] => idleIn
  | c :: _ => c

/-- The block with a cycle's inputs sampled, before the units' operations: the outputs show the pre-state with no event,
the tick input has moved on (an NE step that ends in the cycle reads this level: DESIGN CHOICE, log entry 20), and `done`
falls, which only a `finish` of this cycle sets again (R42). -/
def sample (c : CycleIn) (s : State) : State :=
  { s with
    inputs := s.inputs.tail
    now := (s.now + c.tickAdv) % 2 ^ s.cfg.tickW
    tickSince := s.tickSince + c.tickAdv
    bus := c.bus
    ne := { s.ne with done := false }
    out := levelOutputs s c.fdRdAddr }

/-- `bf_pop` in the cycle: the port, or, on the receive path, `not hold` (R141). -/
def bfPopIn (c : CycleIn) (s : State) : Bool :=
  match s.wiring with
  | .separate => c.bfPop
  | .receivePath => !c.hold

/-- BF's operation in the cycle (R74). -/
def bfRow (c : CycleIn) (s : State) : Instr :=
  decodeBf (BitVec.ofBool c.bfPush ++ BitVec.ofBool (bfPopIn c s)) c.bfPushData

/-- The byte FD takes in the cycle, if any (R121): its port's, or, on the receive path, the byte BF pops (R141). -/
def fdByteIn (c : CycleIn) (s : State) : Option Byte :=
  match s.wiring with
  | .separate => if c.fdInValid then some c.fdInByte else none
  | .receivePath => if s.popValid (bfPopIn c s) then some (s.popData (bfPopIn c s)) else none

/-- The row R73 selects for a byte. -/
def fdRow (s : State) (b : Byte) : Except DecodeError Instr := decodeFd (fdKey s.fd.st b) (fdGuards s.fd b)

/-- FD's step, decoded from the pre-state `s`, at `t` (R121). -/
def fdStep (c : CycleIn) (s t : State) : Result :=
  match fdByteIn c s with
  | none => .next t
  | some b =>
    match fdRow s b with
    | .ok i => exec i t
    | .error _ => .fault .noFrameRow

/-- NE's step, decoded from the pre-state `s`, at `t`: a request while idle (R151), an NE step while running, in the cycle
in which it ends (R152). A request while running is ignored (R226). -/
def neStep (c : CycleIn) (s t : State) : Result :=
  match s.ne.phase with
  | .idle =>
    match c.neReq with
    | none => .next t
    | some r => exec (decodeNe r) t
  | .run pos _ =>
    match c.bus with
    | none => .next t
    | some _ =>
      match nePending s.ne pos with
      | some i => exec i t
      | none => .next (neFinish (finishResult pos) t)

/-- One clock cycle with the inputs `c` (R10, R220). -/
def cycle (c : CycleIn) (s : State) : Result :=
  if c.rst then .next (resetBlock (sample c s))
  else
    andThen (exec (bfRow c s) (sample c s)) fun t =>
    andThen (fdStep c s t) fun t =>
    neStep c s t

end Sys2Proof.Machine
end

