-- ==== Sys2Proof/Machine/Fetch.lean ====
section
/-! DEFINITION. Machine/Fetch.lean: placing one operation so that the very next step performs it. The block fetches
nothing (R22, R64): an operation comes from the ports and from where FD and NE stand, so placing one sets those (DESIGN
CHOICE, log entry 11). -/

namespace Sys2Proof.Machine

/-- The inputs `c` come next, and the units stand apart. -/
def queue (c : CycleIn) (s : State) : State := { s with inputs := c :: s.inputs, wiring := .separate }

/-- FD stands at `code` and `b` comes next. -/
def placeFd (code : BitVec 3) (b : Byte) (s : State) : State := queue (feed b) (fdGoto code s)

/-- NE is idle and the request comes next. -/
def placeNe (r : NeReq) (s : State) : State := queue (present r) (s.setNe { s.ne with phase := .idle })

/-- NE stands at `pos` and its transaction is answered next, with `n` bytes of 0. -/
def placeNor (pos : NePos) (n : Nat) (s : State) : State :=
  queue (answer (.ok (List.replicate n 0#8))) (s.setNe { s.ne with phase := .run pos 0, op := pos.opCode })

/-- The state whose next step performs `i`. -/
def placeInstr (i : Instr) (s : State) : State :=
  match i with
  | .fdIdleSync1 => placeFd stIdle sync1 s
  | .fdIdleOther b => placeFd stIdle b s
  | .fdSawSync1Sync2 => placeFd stSawSync1 sync2 s
  | .fdSawSync1Other b => placeFd stSawSync1 b s
  | .fdLenZero => placeFd stReadLen 0#8 s
  | .fdLenNonzero b => placeFd stReadLen b s
  | .fdPayloadMore b => placeFd stReadPayload b (s.setFd { s.fd with idx := 0#11, len := 2#11 })
  | .fdPayloadLast b => placeFd stReadPayload b (s.setFd { s.fd with idx := 0#11, len := 1#11 })
  | .fdChkMatch b => placeFd stReadChecksum b (s.setFd { s.fd with sum := b })
  | .fdChkMismatch b => placeFd stReadChecksum b (s.setFd { s.fd with sum := b + 1#8 })
  | .fdBadState code b => placeFd code b s
  | .bfNop => queue idleIn s
  | .bfPush b => queue (push b) s
  | .bfPop => queue pop s
  | .bfPushPop b => queue (pushpop b) s
  | .neReset a n => placeNe ⟨0#3, a, n, []⟩ s
  | .neGetStatus a n => placeNe ⟨1#3, a, n, []⟩ s
  | .neWriteEnable a n => placeNe ⟨2#3, a, n, []⟩ s
  | .neRead a n => placeNe ⟨3#3, a, n, []⟩ s
  | .neWrite a n d => placeNe ⟨4#3, a, n, d⟩ s
  | .neEraseSector a n => placeNe ⟨5#3, a, n, []⟩ s
  | .neEraseChip a n => placeNe ⟨6#3, a, n, []⟩ s
  | .neReserved7 a n => placeNe ⟨7#3, a, n, []⟩ s
  | .norRsten => placeNor .resetEnable 0 s
  | .norRst => placeNor .resetMemory 0 s
  | .norRdsr => placeNor .status 1 s
  | .norWren => placeNor .weWren 0 s
  | .norRead a n => placeNor .read n (s.setNe { s.ne with addr := a, rlen := n })
  | .norPp a d =>
    placeNor .wrProgram 0 (s.setNe { s.ne with addr := a, curAddr := a, wdata := d, rlen := d.length, off := 0 })
  | .norSe a => placeNor .seErase 0 (s.setNe { s.ne with addr := a })
  | .norCe => placeNor .ceErase 0 s

end Sys2Proof.Machine
end

