-- ==== Sys2Proof/Machine/Step.lean ====
section
/-! DEFINITION. Machine/Step.lean: the step, and where an instruction word is put for it. -/

namespace Sys2Proof.Machine

/-- One step is one clock cycle of the three units (R10), with the next inputs of the queue. -/
def step (s : State) : Host.Outcome State Fault Refusal := cycle s.nextIn s

/-- `s` with the instruction that the word `w` stands for placed where the next step performs it. A word that stands for
none changes nothing. -/
def State.withFetchWord (s : State) (nbits w : Nat) : State :=
  match decodeTableWord nbits w with
  | some i => placeInstr i s
  | none => s

end Sys2Proof.Machine
end

