-- ==== Sys2Proof/Machine/Trace.lean ====
section
/-! DEFINITION. Machine/Trace.lean: what the block shows over several cycles: its outputs cycle by cycle, and the
transactions on the NOR bus in order (R57, R61). -/

namespace Sys2Proof.Machine

/-- The state after `n` cycles. -/
def run : Nat → State → Result
  | 0, s => .next s
  | n + 1, s => andThen (step s) (run n)

/-- The outputs of the first `n` cycles from `s`; it ends early where a step does not answer a next state. -/
def trace : Nat → State → List Outputs
  | 0, _ => []
  | n + 1, s =>
    match step s with
    | .next t => t.out :: trace n t
    | .fault _ => []
    | .refused _ => []

/-- The transactions that end in the first `n` cycles from `s`, in order. -/
def transcript (n : Nat) (s : State) : List BusTx := (trace n s).filterMap fun o => o.busTx

end Sys2Proof.Machine
end

