-- ==== Sys2Proof/Safety.lean ====
section
/-! DEFINITION. Safety.lean: what holds in every state a run reaches: the spec's own invariants of the registers (R24 to
R42), unit by unit. A claim about a state that no run reaches says nothing; these rule such states out. -/

namespace Sys2Proof.Machine

/-- BF's registers in a run (R23 to R27): the pointers name entries, `tail = (head + count) mod FIFO_DEPTH`,
`count <= FIFO_DEPTH`, and each stored entry was written by a push. -/
structure BfInv (s : State) : Prop where
  head_lt : s.bf.head < s.cfg.fifoDepth
  count_le : s.bf.count ≤ s.cfg.fifoDepth
  tail_eq : s.bf.tail = (s.bf.head + s.bf.count) % s.cfg.fifoDepth
  ovf_lt : s.bf.ovfCnt < 2 ^ s.cfg.cntW
  mem_wf : Memory.wf s.bf.fifoMem
  mem_within : Memory.Within s.bf.fifoMem s.cfg.fifoDepth
  stored : ∀ k < s.bf.count, (Memory.read s.bf.fifoMem ((s.bf.head + k) % s.cfg.fifoDepth)).isSome

/-- FD is inside a frame: its payload or its checksum byte comes next (R29). -/
abbrev InFrame (st : BitVec 3) : Prop := st = stReadPayload ∨ st = stReadChecksum

/-- FD's registers in a run (R29 to R34, R133): a legal state code, a legal length, `idx <= len`, and inside a frame the
`idx` payload bytes so far, stored and summed. -/
structure FdInv (s : State) : Prop where
  st_le : s.fd.st.toNat ≤ 4
  len_legal : s.fd.len.toNat = 0 ∨ EncodableLength s.fd.len.toNat
  idx_le : s.fd.idx.toNat ≤ s.fd.len.toNat
  payload : s.fd.st = stReadPayload → s.fd.idx.toNat < s.fd.len.toNat
  checksum : s.fd.st = stReadChecksum → s.fd.idx = s.fd.len ∧ 0 < s.fd.len.toNat
  sum_eq : InFrame s.fd.st → s.fd.sum = sum8 (s.bufBytes s.fd.idx.toNat)
  stored : InFrame s.fd.st → ∀ k < s.fd.idx.toNat, (Memory.read s.fd.buf k).isSome
  buf_wf : Memory.wf s.fd.buf
  buf_within : Memory.Within s.fd.buf maxFrame
  frame_lt : s.fd.frameCnt < 2 ^ s.cfg.cntW
  chk_lt : s.fd.chkErrCnt < 2 ^ s.cfg.cntW
  sync_lt : s.fd.syncErrCnt < 2 ^ s.cfg.cntW

/-- The result codes that are ever produced (R79). -/
abbrev LegalResult (r : BitVec 3) : Prop :=
  r = resOk ∨ r = resBusy ∨ r = resTimeout ∨ r = resTransferError ∨ r = resIllegal

/-- The positions inside a chunk of a WRITE (R159). -/
abbrev InChunk (pos : NePos) : Prop := pos = .wrWePoll ∨ pos = .wrProgram ∨ pos = .wrPoll

/-- NE's registers in a run (R36 to R42): the phase belongs to the latched operation, the write data has the latched
length, a chunk under way has bytes left, `cur_addr` is `addr + off`, `bytes_done` is what R40 says, and `done` is only
high while idle. -/
structure NeInv (s : State) : Prop where
  op_eq : ∀ pos k, s.ne.phase = .run pos k → s.ne.op = pos.opCode
  wdata_len : s.ne.op = 4#3 → s.ne.wdata.length = s.ne.rlen
  wdata_nil : s.ne.op ≠ 4#3 → s.ne.wdata = []
  rlen_lt : s.cfg.LenFits s.ne.rlen
  off_le : s.ne.off ≤ s.ne.rlen
  in_chunk : ∀ pos k, s.ne.phase = .run pos k → InChunk pos → s.ne.off < s.ne.rlen
  cur_addr : s.ne.curAddr = s.ne.addr + BitVec.ofNat 24 s.ne.off
  write_done : s.ne.op = 4#3 → s.ne.bytesDone = s.ne.off
  read_done : s.ne.op = 3#3 → s.ne.bytesDone = 0 ∨ s.ne.bytesDone = s.ne.rlen
  other_done : s.ne.op ≠ 3#3 → s.ne.op ≠ 4#3 → s.ne.bytesDone = 0
  result_legal : LegalResult s.ne.result
  t0_lt : s.ne.t0 < 2 ^ s.cfg.tickW
  done_idle : s.ne.done = true → s.ne.phase = .idle

/-- The block's invariant: the three units', and a tick input of `TICK_W` bits (R202). -/
structure State.Inv (s : State) : Prop where
  bf : BfInv s
  fd : FdInv s
  ne : NeInv s
  now_lt : s.now < 2 ^ s.cfg.tickW

/-- A request that NE can take (R75, R232): its length is one the port carries, and a WRITE's data has that length. -/
abbrev LegalRequest (c : Config) (r : NeReq) : Prop := c.LenFits r.len ∧ (r.op = 4#3 → r.wdata.length = r.len)

/-- A bus answer that fits the transaction NE is at (R57). -/
abbrev AnswerLegal (s : State) (a : BusAnswer) : Prop :=
  ∀ pos k i, s.ne.phase = .run pos k → nePending s.ne pos = some i → answerFits (rxCount s.cfg i) a

/-- The inputs of the next cycle are ones the outside world can give: a request that NE would take is legal, an answer fits,
and inside a busy-poll the tick has advanced by less than 2^TICK_W since the poll before (R229). -/
abbrev State.InputsLegal (s : State) : Prop :=
  (∀ r, s.nextIn.neReq = some r → s.ne.phase = .idle → LegalRequest s.cfg r) ∧
    (∀ a, s.nextIn.bus = some a → AnswerLegal s a) ∧
    (∀ pos k, s.ne.phase = .run pos k → k ≠ 0 → s.tickSince + s.nextIn.tickAdv < 2 ^ s.cfg.tickW)

/-! ### What a cycle presents to FD and to NE -/

/-- The next cycle presents the byte `b` to FD: at its port (R120), or, on the receive path, as the byte BF returns (R141). -/
abbrev State.ByteArrives (s : State) (b : Byte) : Prop :=
  (s.wiring = .separate ∧ s.nextIn.fdInValid = true ∧ s.nextIn.fdInByte = b) ∨
    (s.wiring = .receivePath ∧ s.nextIn.hold = false ∧ 0 < s.bf.count ∧ s.fifoByte s.bf.head = b)

/-- The next cycle presents no byte to FD. -/
abbrev State.NoByteArrives (s : State) : Prop :=
  (s.wiring = .separate ∧ s.nextIn.fdInValid = false) ∨
    (s.wiring = .receivePath ∧ (s.nextIn.hold = true ∨ s.bf.count = 0))

/-- NE's operation of the next cycle is the row `k`: a request taken while idle (R151), or the transaction its sequence is at,
in the cycle in which its step ends (R152). -/
abbrev State.NePerforms (s : State) (k : Instr) : Prop :=
  (s.ne.phase = .idle ∧ ∃ r, s.nextIn.neReq = some r ∧ decode s.cfg (.neReq r) = .ok k) ∨
    ∃ pos n, s.ne.phase = .run pos n ∧ s.nextIn.bus ≠ none ∧ nePending s.ne pos = some k

/-- NE does nothing in the next cycle: idle without a request, or in a cycle in which its step does not end (R152). -/
abbrev State.NeRests (s : State) : Prop :=
  (s.ne.phase = .idle ∧ s.nextIn.neReq = none) ∨ ∃ pos n, s.ne.phase = .run pos n ∧ s.nextIn.bus = none

/-- NE's step ends in the next cycle at a `finish` without a transaction (R159 with no byte left, R163). -/
abbrev State.NeFinishesAt (s : State) (pos : NePos) : Prop :=
  (∃ n, s.ne.phase = .run pos n) ∧ s.nextIn.bus ≠ none ∧ nePending s.ne pos = none

/-! ### Whose operation, and what a stream or a write amounts to -/

/-- The units of the block (R1). -/
inductive BlockUnit where
  | bf
  | fd
  | ne
deriving DecidableEq, Repr

/-- The unit an operation belongs to (R2). -/
def unitOf : Instr → BlockUnit
  | .fdIdleSync1 | .fdIdleOther _ | .fdSawSync1Sync2 | .fdSawSync1Other _ | .fdLenZero | .fdLenNonzero _
  | .fdPayloadMore _ | .fdPayloadLast _ | .fdChkMatch _ | .fdChkMismatch _ | .fdBadState _ _ => .fd
  | .bfNop | .bfPush _ | .bfPop | .bfPushPop _ => .bf
  | .neReset _ _ | .neGetStatus _ _ | .neWriteEnable _ _ | .neRead _ _ | .neWrite _ _ _ | .neEraseSector _ _
  | .neEraseChip _ _ | .neReserved7 _ _ | .norRsten | .norRst | .norRdsr | .norWren | .norRead _ _ | .norPp _ _
  | .norSe _ | .norCe => .ne

/-- The bytes FD's port presents in these cycles, in order (R86, R121). -/
def fedBytes (l : List CycleIn) : List Byte := l.filterMap fun c => if c.fdInValid then some c.fdInByte else none

/-- The stream holds no two consecutive bytes 0xAA, 0x55 (R136). -/
def NoSyncPair : List Byte → Prop
  | [] => True
  | [_] => True
  | a :: b :: l => ¬ (a = sync1 ∧ b = sync2) ∧ NoSyncPair (b :: l)

/-- R160's chunk law: the address and the length of each page program of a WRITE of `n` bytes at `a`. The first argument
bounds the number of chunks; `n` is always enough. -/
def chunkLaw : Nat → Addr → Nat → List (Addr × Nat)
  | 0, _, _ => []
  | fuel + 1, a, n =>
    if n = 0 then []
    else
      let c := min (pageSize - a.toNat % pageSize) n
      (a, c) :: chunkLaw fuel (a + BitVec.ofNat 24 c) (n - c)

/-- The transactions of a WRITE of the bytes `d` whose chunks are `l`, every poll seeing not-busy at once (R159, R166). -/
def writeTransactions (c : Config) : List (Addr × Nat) → List Byte → List BusTx
  | [], _ => []
  | (a, n) :: l, d =>
    ⟨[c.cmdWren], 0⟩ :: ⟨[c.cmdRdsr], 1⟩ :: ⟨c.cmdPp :: addrBytes a ++ d.take n, 0⟩ :: ⟨[c.cmdRdsr], 1⟩ ::
      writeTransactions c l (d.drop n)

/-- The answers to one chunk of a WRITE on a device that is never busy, `z` its status byte. -/
def chunkAnswers (z : Byte) : List CycleIn :=
  [answer (.ok []), answer (.ok [z]), answer (.ok []), answer (.ok [z])]

end Sys2Proof.Machine
end

