-- ==== Sys2Proof/Certificates/Slice0/Obligations.lean ====
section
/-! DEFINITION. Certificates/Slice0/Obligations.lean: the statements for the provers. -/

open Sys2Proof Sys2Proof.Machine

/-! ### The whole machine -/

/-- State.reset meets State.Inv, the invariant of all three units' registers. The reference configuration's open budgets
and the arrays' contents are free values, and the statement holds whatever they are. (Derived: R221
(70_reset_and_hazards.md); R26, R133 (the registers' invariants).) -/
def Obligations.ResetEstablishesInvariant : Prop :=
  State.reset.Inv

/-- From every state that meets State.Inv, reached by a run or not, and under every input, a step that answers a next
state answers one that meets State.Inv: BF's pointers, count and stored entries, FD's state code, length, index,
running checksum and stored payload, NE's latch, progress and result registers, and both arrays' canonical form. The
step leaves the configuration and the wiring as they were and has taken exactly the first cycle of the queued inputs.
(Derived: R20, R43 (10_state.md); R24 to R27 (10_state.md); R29 to R34 (10_state.md); R36 to R42 (10_state.md); R133
(41_frame_decoder.md).) -/
def Obligations.EveryStepKeepsInvariant : Prop :=
  ∀ s t : State, s.Inv → step s = .next t →
    t.Inv ∧ t.cfg = s.cfg ∧ t.wiring = s.wiring ∧ t.inputs = s.inputs.tail

/-- From every state that meets State.Inv, under every input, the step does not answer a fault: no access is outside
FifoMem or Buf, some row of R73 applies to every byte, and NE only issues the transaction its sequence is at.
(Derived: R23, R33 (indices in range); R73 (one row for every key); R152 (NE's sequences).) -/
def Obligations.InvariantStatesNeverFault : Prop :=
  ∀ (s : State) (f : Fault), s.Inv → step s ≠ .fault f

/-- From every state that meets State.Inv, if the next cycle's inputs are ones the outside world can give (a request NE
would take has a length its port carries and, for WRITE, that many data bytes; a bus answer has the transaction's byte
count; inside a busy-poll the tick has advanced by less than 2^TICK_W since the poll before), the step answers a next
state. (Derived: R57 (answers); R75, R232 (requests); R229 (tick duty); R110, R121, R152 (units never stall).) -/
def Obligations.StepCompletesOnLegalInputs : Prop :=
  ∀ s : State, s.Inv → s.InputsLegal → ∃ t, step s = .next t

/-- From every state, a cycle with rst = 1 answers a next state in which every register of BF, FD and NE has the value of
R221's table, whatever the other inputs were and whatever was under way; the arrays list no written entry, so that
every entry is any value; every event output of the cycle is 0, and no transaction is on the bus. (Stated: R220;
R221.) -/
def Obligations.ResetCycleWritesResetValues : Prop :=
  ∀ s : State, s.nextIn.rst = true → ∃ t, step s = .next t ∧
    (t.bf.fifoMem = [] ∧ t.bf.head = 0 ∧ t.bf.tail = 0 ∧ t.bf.count = 0 ∧ t.bf.ovfCnt = 0) ∧
    (t.fd.st = 0#3 ∧ t.fd.len = 0#11 ∧ t.fd.idx = 0#11 ∧ t.fd.sum = 0#8 ∧ t.fd.buf = [] ∧
      t.fd.frameCnt = 0 ∧ t.fd.chkErrCnt = 0 ∧ t.fd.syncErrCnt = 0) ∧
    (t.ne.phase = .idle ∧ t.ne.op = 0#3 ∧ t.ne.addr = 0#24 ∧ t.ne.rlen = 0 ∧ t.ne.wdata = [] ∧
      t.ne.curAddr = 0#24 ∧ t.ne.off = 0 ∧ t.ne.t0 = 0 ∧ t.ne.result = 0#3 ∧ t.ne.bytesDone = 0 ∧ t.ne.rdata = [] ∧
      t.ne.done = false) ∧
    (t.out.bfPushOk = false ∧ t.out.bfPopValid = false ∧ t.out.bfOvf = false ∧ t.out.fdFrameValid = false ∧
      t.out.fdChkErr = false ∧ t.out.fdSyncErr = false ∧ t.out.neDone = false ∧ t.out.busTx = none)

/-- In every cycle, reset cycles among them, the level outputs show the registers as they were before the edge: bf_full,
bf_empty, bf_len, bf_ovf_cnt, fd_frame_len, fd_frame_chk, fd_state, fd_idle, FD's counters, ne_ready, ne_result,
ne_bytes_done and ne_rdata. (Derived: R28, R35 (10_state.md); R43 (10_state.md: every readable value is a dedicated
output); R107 (40_fifo.md); R120, R150 (ports).) -/
def Obligations.LevelOutputsShowThePreState : Prop :=
  ∀ s t : State, step s = .next t →
    (t.out.bfFull = decide (s.bf.count = s.cfg.fifoDepth) ∧ t.out.bfEmpty = decide (s.bf.count = 0) ∧
      t.out.bfLen = s.bf.count ∧ t.out.bfOvfCnt = s.bf.ovfCnt) ∧
    (t.out.fdFrameLen = s.fd.len ∧ t.out.fdFrameChk = s.fd.sum ∧ t.out.fdState = s.fd.st ∧
      t.out.fdIdle = decide (s.fd.st = stIdle) ∧ t.out.fdFrameCnt = s.fd.frameCnt ∧
      t.out.fdChkErrCnt = s.fd.chkErrCnt ∧ t.out.fdSyncErrCnt = s.fd.syncErrCnt) ∧
    (t.out.neReady = decide (s.ne.phase = .idle) ∧ t.out.neResult = s.ne.result ∧
      t.out.neBytesDone = s.ne.bytesDone ∧ t.out.neRdata = s.ne.rdata)

/-- Whatever the operation and the state, if it answers a next state, the registers of the two other units are unchanged
(so every byte of their arrays), and so are the configuration, the queued inputs, the tick, the bus draw and the reset
count. (Derived: R20 (10_state.md: each unit is written only by its own step).) -/
def Obligations.EachUnitIsWrittenByItsOwnOperation : Prop :=
  ∀ (i : Instr) (s t : State), exec i s = .next t →
    (unitOf i ≠ .bf → t.bf = s.bf) ∧ (unitOf i ≠ .fd → t.fd = s.fd) ∧
    (unitOf i ≠ .ne → t.ne = s.ne ∧ t.tickSince = s.tickSince) ∧
    (t.cfg = s.cfg ∧ t.wiring = s.wiring ∧ t.inputs = s.inputs ∧ t.now = s.now ∧ t.bus = s.bus ∧ t.epoch = s.epoch)

/-- If two operations of different units each answer a next state from one state, then performing them in either order
answers one and the same next state. (Derived: R198 (60_exceptions.md: BF, FD and NE are independent); R10
(00_scope.md).) -/
def Obligations.UnitsActTogetherInAnyOrder : Prop :=
  ∀ (i j : Instr) (s t u : State), unitOf i ≠ unitOf j → exec i s = .next t → exec j s = .next u →
    ∃ v, exec j t = .next v ∧ exec i u = .next v

/-- From every state, on either wiring, outside reset, the step is exec, one after the other on the state with the cycle's
inputs sampled, of the operation i that BF's port word decodes to (on the receive path bf_pop is not hold), of the
operation j that FD's key decodes to if a byte arrives, and of NE's operation k: the one a request decodes to while
idle, or the transaction its sequence is at in the cycle its step ends; where NE's step ends at a finish without a
transaction, that finish stands in k's place. BF's BF_NOP leaves the sampled state as it is, so that with it FD alone
or NE alone is exec of that one operation. (Derived: R73, R74, R76 (30_encoding.md); R10 (00_scope.md); R141
(41_frame_decoder.md); R152 (42_nor_flash_engine.md).) -/
def Obligations.StepRunsDecodedInstructions : Prop :=
  ∀ (s : State) (i : Instr), s.nextIn.rst = false →
    decode s.cfg (.bfPort
      (BitVec.ofBool s.nextIn.bfPush ++
        BitVec.ofBool (if s.wiring = .separate then s.nextIn.bfPop else !s.nextIn.hold)) s.nextIn.bfPushData) = .ok i →
    let now := sample s.nextIn s
    (s.NoByteArrives →
      (s.NeRests → step s = exec i now) ∧
      (∀ k, s.NePerforms k → step s = andThen (exec i now) (exec k) ∧ (i = .bfNop → step s = exec k now)) ∧
      (∀ pos, s.NeFinishesAt pos → step s = andThen (exec i now) fun t => .next (neFinish (finishResult pos) t))) ∧
    (∀ b j, s.ByteArrives b → decode s.cfg (.fdKey (fdKey s.fd.st b) (fdGuards s.fd b)) = .ok j →
      (s.NeRests → step s = andThen (exec i now) (exec j) ∧ (i = .bfNop → step s = exec j now)) ∧
      (∀ k, s.NePerforms k → step s = andThen (exec i now) fun t => andThen (exec j t) (exec k)) ∧
      (∀ pos, s.NeFinishesAt pos → step s = andThen (exec i now) fun t => andThen (exec j t) fun t =>
        .next (neFinish (finishResult pos) t)))

/-- For every well-formed operation and every state, the step of the state in which the operation is placed is exec of
that operation on that state with the cycle's inputs sampled. The placing is the model's choice (log entry 11).
(Derived: R22 (10_state.md: nothing is fetched); R73, R74, R76, R80 (30_encoding.md).) -/
def Obligations.PlacedInstructionIsPerformed : Prop :=
  ∀ (i : Instr) (s : State), i.wf s.cfg = true →
    step (placeInstr i s) = exec i (sample (placeInstr i s).nextIn (placeInstr i s))

/-! ### Encodings -/

/-- For every configuration whose eight command bytes differ and every well-formed operation of all four encodings, with
every operand at every value, decoding its encoded word gives the operation. (Derived: 30_encoding.md (R73, R74, R75,
R76, R80, R81).) -/
def Obligations.DecodeInvertsEncode : Prop :=
  ∀ (c : Config) (i : Instr), c.CommandsDistinct → i.wf c = true → decode c (encode c i) = .ok i

/-- For every configuration: a transaction that decodes is the transaction of the operation it decoded to; a key that
decodes under some guards is the key of its operation; a port word of BF is the port word of its operation, with the
data kept where a push uses it; a request's code, address and length are those of its operation's request, with the
data kept for WRITE only. (Derived: 30_encoding.md (R73, R74, R75, R80).) -/
def Obligations.DecodedWordsReencode : Prop :=
  ∀ c : Config,
    (∀ (t : BusTx) (i : Instr), decode c (.norTx t) = .ok i → encode c i = .norTx t) ∧
    (∀ (k : BitVec 11) (g : FdGuards) (i : Instr), decode c (.fdKey k g) = .ok i → ∃ g', encode c i = .fdKey k g') ∧
    (∀ (w : BitVec 2) (b : Byte), ∃ i, decode c (.bfPort w b) = .ok i ∧
      encode c i = .bfPort w (if w.getLsbD 1 then b else 0#8)) ∧
    (∀ r : NeReq, ∃ i, decode c (.neReq r) = .ok i ∧
      encode c i = .neReq { r with wdata := if r.op = 4#3 then r.wdata else [] })

/-- Under the reference configuration, whose command bytes 0x03, 0x20 and 0x02 are presumed (R7 and K1 mark them as
general knowledge; log entry 3), which the last three clauses rest on: keys 0x0AA, 0x155 and 0x200, the key 0x4FF
under both values of its guard, the port word push 0x41, the request op 5 at 0x001234, and the transactions [03 01 23
45] with 3 bytes back, [20 00 12 34] and [02 00 00 32 CD]. (Derived: R73, R74, R76, R80 (30_encoding.md); R7
(00_scope.md: reference values); 93_implementation_defined.md K1 (general knowledge); log entry 3; 95_test_vectors.md
(V-NE-12, V-NE-17).) -/
def Obligations.SpecWordsDecode : Prop :=
  decode .reference (.fdKey 0x0AA#11 noGuards) = .ok .fdIdleSync1 ∧
  decode .reference (.fdKey 0x155#11 noGuards) = .ok .fdSawSync1Sync2 ∧
  decode .reference (.fdKey 0x200#11 noGuards) = .ok .fdLenZero ∧
  decode .reference (.fdKey 0x4FF#11 ⟨false, false, true⟩) = .ok (.fdChkMatch 0xFF#8) ∧
  decode .reference (.fdKey 0x4FF#11 ⟨false, false, false⟩) = .ok (.fdChkMismatch 0xFF#8) ∧
  decode .reference (.bfPort 0b10#2 0x41#8) = .ok (.bfPush 0x41#8) ∧
  decode .reference (.neReq ⟨5#3, 0x001234#24, 0, []⟩) = .ok (.neEraseSector 0x001234#24 0) ∧
  decode .reference (.norTx ⟨[0x03#8, 0x01#8, 0x23#8, 0x45#8], 3⟩) = .ok (.norRead 0x012345#24 3) ∧
  decode .reference (.norTx ⟨[0x20#8, 0x00#8, 0x12#8, 0x34#8], 0⟩) = .ok (.norSe 0x001234#24) ∧
  decode .reference (.norTx ⟨[0x02#8, 0x00#8, 0x00#8, 0x32#8, 0xCD#8], 0⟩) = .ok (.norPp 0x000032#24 [0xCD#8])

/-- When NE's sequence is at READ's, WRITE's or ERASE_SECTOR's addressed transaction, that transaction is the command byte
followed by exactly three address bytes, whose values are the address divided by 65536, by 256 modulo 256, and modulo
256; the address is the request's addr for READ and ERASE_SECTOR and cur_addr for the page program, whose data bytes
follow. (Stated: R81.) -/
def Obligations.AddressGoesOutMostSignificantFirst : Prop :=
  ∀ (c : Config) (ne : NeState), ∃ r₂ r₁ r₀ p₂ p₁ p₀ : Byte,
    (r₂.toNat = ne.addr.toNat / 65536 ∧ r₁.toNat = ne.addr.toNat / 256 % 256 ∧ r₀.toNat = ne.addr.toNat % 256) ∧
    (p₂.toNat = ne.curAddr.toNat / 65536 ∧ p₁.toNat = ne.curAddr.toNat / 256 % 256 ∧
      p₀.toNat = ne.curAddr.toNat % 256) ∧
    (nePending ne .read).bind (norTx c) = some ⟨[c.cmdRead, r₂, r₁, r₀], ne.rlen⟩ ∧
    (nePending ne .seErase).bind (norTx c) = some ⟨[c.cmdSe, r₂, r₁, r₀], 0⟩ ∧
    (nePending ne .wrProgram).bind (norTx c) = some ⟨[c.cmdPp, p₂, p₁, p₀] ++ chunkData ne, 0⟩

/-- A set of parameters gives a configuration exactly when FIFO_DEPTH, CNT_W and TICK_W are at least 1, LEN_W is at least
11, BUSY_BIT is at most 7 and every budget is below 2^TICK_W; and then the configuration has those parameters.
(Derived: R7 (00_scope.md); R165 (42_nor_flash_engine.md); 93_implementation_defined.md U13.) -/
def Obligations.IllegalConfigurationIsRefused : Prop :=
  ∀ r : RawConfig,
    (Config.ofRaw r = none ↔ ¬ (1 ≤ r.fifoDepth ∧ 1 ≤ r.cntW ∧ 11 ≤ r.lenW ∧ 1 ≤ r.tickW ∧ r.busyBit ≤ 7 ∧
      r.tWe < 2 ^ r.tickW ∧ r.tPp < 2 ^ r.tickW ∧ r.tSe < 2 ^ r.tickW ∧ r.tCe < 2 ^ r.tickW)) ∧
    ∀ c, Config.ofRaw r = some c → c.toRawConfig = r

/-- In every state that meets State.Inv: head and tail are below 2^PTR_W, count below 2 to the width of the count
register, the four event counters below 2^CNT_W, rlen, off and bytes_done below 2^LEN_W, t0 and the tick below
2^TICK_W, and FD's length and index are at most 1029. (Derived: R8 (00_scope.md); R24, R25, R26, R27, R34, R38
(10_state.md).) -/
def Obligations.RegistersFitTheirWidths : Prop :=
  ∀ s : State, s.Inv →
    (s.bf.head < 2 ^ s.cfg.ptrW ∧ s.bf.tail < 2 ^ s.cfg.ptrW ∧ s.bf.count < 2 ^ s.cfg.countW) ∧
    (s.bf.ovfCnt < 2 ^ s.cfg.cntW ∧ s.fd.frameCnt < 2 ^ s.cfg.cntW ∧ s.fd.chkErrCnt < 2 ^ s.cfg.cntW ∧
      s.fd.syncErrCnt < 2 ^ s.cfg.cntW) ∧
    (s.ne.rlen < 2 ^ s.cfg.lenW ∧ s.ne.off < 2 ^ s.cfg.lenW ∧ s.ne.bytesDone < 2 ^ s.cfg.lenW) ∧
    (s.ne.t0 < 2 ^ s.cfg.tickW ∧ s.now < 2 ^ s.cfg.tickW) ∧
    (s.fd.len.toNat ≤ 1029 ∧ s.fd.idx.toNat ≤ 1029)

/-! ### Byte FIFO -/

/-- From every state whose tail names an entry, BF_PUSH of any byte answers a next state. With count < FIFO_DEPTH it
writes the byte at tail, advances tail modulo FIFO_DEPTH and count by 1, with bf_push_ok = 1; then BF is not empty,
and full if count was FIFO_DEPTH - 1. Otherwise it only counts the overflow, modulo 2^CNT_W, with bf_push_ok = 0 and
bf_ovf = 1. Nothing else changes. (Stated: R102.) -/
def Obligations.PushStoresOrDropsNewest : Prop :=
  ∀ (s : State) (b : Byte), s.bf.tail < s.cfg.fifoDepth → ∃ t, exec (.bfPush b) s = .next t ∧
    (s.bf.count < s.cfg.fifoDepth →
      t = { s with
        bf := { s.bf with
          fifoMem := Memory.write s.bf.fifoMem s.bf.tail b
          tail := (s.bf.tail + 1) % s.cfg.fifoDepth
          count := s.bf.count + 1 }
        out := { s.out with bfPushOk := true, bfPopValid := false, bfPopData := 0#8, bfOvf := false } } ∧
      t.fifoByte s.bf.tail = b ∧ t.bfEmpty = false ∧ (s.bf.count + 1 = s.cfg.fifoDepth → t.bfFull = true)) ∧
    (¬ s.bf.count < s.cfg.fifoDepth →
      t = { s with
        bf := { s.bf with ovfCnt := (s.bf.ovfCnt + 1) % 2 ^ s.cfg.cntW }
        out := { s.out with bfPushOk := false, bfPopValid := false, bfPopData := 0#8, bfOvf := true } })

/-- From every state whose head names an entry, BF_POP answers a next state. With count > 0 it returns FifoMem[head] with
bf_pop_valid = 1, advances head modulo FIFO_DEPTH and lowers count by 1; FifoMem keeps its contents, and BF is empty
if count was 1 and, with count at most FIFO_DEPTH, not full. With count = 0 no register changes and bf_pop_valid = 0.
No overflow event. (Stated: R103.) -/
def Obligations.PopRemovesTheOldestByte : Prop :=
  ∀ s : State, s.bf.head < s.cfg.fifoDepth → ∃ t, exec .bfPop s = .next t ∧
    (0 < s.bf.count →
      t = { s with
        bf := { s.bf with head := (s.bf.head + 1) % s.cfg.fifoDepth, count := s.bf.count - 1 }
        out := { s.out with
          bfPushOk := false, bfPopValid := true, bfPopData := s.fifoByte s.bf.head, bfOvf := false } } ∧
      (s.bf.count = 1 → t.bfEmpty = true) ∧ (s.bf.count ≤ s.cfg.fifoDepth → t.bfFull = false)) ∧
    (s.bf.count = 0 →
      t = { s with out := { s.out with
        bfPushOk := false, bfPopValid := false, bfPopData := 0#8, bfOvf := false } })

/-- From every state whose head and tail name entries, BF_PUSH_POP answers a next state. Empty: the pop returns nothing,
the byte is stored, count becomes 1. Full: the pop returns FifoMem[head], the push is refused and counted, count falls
by 1. In between: the oldest byte is returned, the byte stored, count unchanged. (Derived: R104 (40_fifo.md), its
pseudocode and corner cases.) -/
def Obligations.PushPopJudgesBothOnThePreState : Prop :=
  ∀ (s : State) (b : Byte), s.bf.head < s.cfg.fifoDepth → s.bf.tail < s.cfg.fifoDepth →
    ∃ t, exec (.bfPushPop b) s = .next t ∧
    (s.bf.count = 0 →
      t = { s with
        bf := { s.bf with
          fifoMem := Memory.write s.bf.fifoMem s.bf.tail b, tail := (s.bf.tail + 1) % s.cfg.fifoDepth, count := 1 }
        out := { s.out with bfPushOk := true, bfPopValid := false, bfPopData := 0#8, bfOvf := false } }) ∧
    (s.bf.count = s.cfg.fifoDepth →
      t = { s with
        bf := { s.bf with
          head := (s.bf.head + 1) % s.cfg.fifoDepth, count := s.cfg.fifoDepth - 1
          ovfCnt := (s.bf.ovfCnt + 1) % 2 ^ s.cfg.cntW }
        out := { s.out with
          bfPushOk := false, bfPopValid := true, bfPopData := s.fifoByte s.bf.head, bfOvf := true } }) ∧
    (0 < s.bf.count → s.bf.count < s.cfg.fifoDepth →
      t = { s with
        bf := { s.bf with
          fifoMem := Memory.write s.bf.fifoMem s.bf.tail b
          head := (s.bf.head + 1) % s.cfg.fifoDepth, tail := (s.bf.tail + 1) % s.cfg.fifoDepth }
        out := { s.out with
          bfPushOk := true, bfPopValid := true, bfPopData := s.fifoByte s.bf.head, bfOvf := false } })

/-- From every state BF_NOP answers a next state with every register as it was and bf_push_ok, bf_pop_valid and bf_ovf at
0; bf_full, bf_empty and bf_len show the unchanged state. (Stated: R105.) -/
def Obligations.NopChangesNoState : Prop :=
  ∀ s : State, ∃ t, exec .bfNop s = .next t ∧
    t = { s with out := { s.out with bfPushOk := false, bfPopValid := false, bfPopData := 0#8, bfOvf := false } } ∧
    t.bfFull = s.bfFull ∧ t.bfEmpty = s.bfEmpty ∧ t.bf.count = s.bf.count

/-- In every cycle outside reset, from every state whose count is at most FIFO_DEPTH, the units apart, whatever FD and NE
do in it: bf_push_ok is push and count < D, bf_pop_valid is pop and count > 0, bf_pop_data is FifoMem[head] then and
0x00 otherwise, bf_ovf is push and count = D. (Stated: R101.) -/
def Obligations.FifoOutputsOfACycle : Prop :=
  ∀ s t : State, s.bf.count ≤ s.cfg.fifoDepth → s.wiring = .separate → s.nextIn.rst = false → step s = .next t →
    t.out.bfPushOk = (s.nextIn.bfPush && decide (s.bf.count < s.cfg.fifoDepth)) ∧
    t.out.bfPopValid = (s.nextIn.bfPop && decide (0 < s.bf.count)) ∧
    t.out.bfPopData = (if t.out.bfPopValid then s.fifoByte s.bf.head else 0#8) ∧
    t.out.bfOvf = (s.nextIn.bfPush && decide (s.bf.count = s.cfg.fifoDepth))

/-- From every state with count at most FIFO_DEPTH, in a cycle outside reset: a push to a full FIFO adds 1 to ovf_cnt
modulo 2^CNT_W and asserts bf_ovf, with bf_pop 0 or 1 and on either wiring; in every other such cycle ovf_cnt keeps
its value and bf_ovf is 0; from 2^CNT_W - 1 it wraps to 0. A reset cycle clears it. (Stated: R106.) -/
def Obligations.OverflowsAreCounted : Prop :=
  ∀ s t : State, s.bf.count ≤ s.cfg.fifoDepth → step s = .next t →
    (s.nextIn.rst = false → s.nextIn.bfPush = true → s.bf.count = s.cfg.fifoDepth →
      t.bf.ovfCnt = (s.bf.ovfCnt + 1) % 2 ^ s.cfg.cntW ∧ t.out.bfOvf = true ∧
      (s.bf.ovfCnt = 2 ^ s.cfg.cntW - 1 → t.bf.ovfCnt = 0)) ∧
    (s.nextIn.rst = false → ¬ (s.nextIn.bfPush = true ∧ s.bf.count = s.cfg.fifoDepth) →
      t.bf.ovfCnt = s.bf.ovfCnt ∧ t.out.bfOvf = false) ∧
    (s.nextIn.rst = true → t.bf.ovfCnt = 0)

/-- If one of BF's four operations answers a next state: BF_NOP and BF_POP leave every byte of FifoMem as it was, BF_PUSH
and BF_PUSH_POP every byte but the one at tail, and that one too when the push is refused; head changes only on a pop
that returns a byte, tail only on an accepted push, ovf_cnt only on a refused push; FD, NE and every other output keep
their values. (Derived: R102, R103, R104, R105 (40_fifo.md); R23 (10_state.md).) -/
def Obligations.FifoFrames : Prop :=
  ∀ (i : Instr) (s t : State), unitOf i = .bf → exec i s = .next t →
    (∀ a, a ≠ s.bf.tail → Memory.read t.bf.fifoMem a = Memory.read s.bf.fifoMem a) ∧
    (i = .bfNop ∨ i = .bfPop ∨ ¬ s.bf.count < s.cfg.fifoDepth →
      (∀ a, Memory.read t.bf.fifoMem a = Memory.read s.bf.fifoMem a) ∧ t.bf.tail = s.bf.tail) ∧
    (i = .bfNop ∨ (∃ b, i = .bfPush b) ∨ s.bf.count = 0 → t.bf.head = s.bf.head) ∧
    (i = .bfNop ∨ i = .bfPop ∨ s.bf.count < s.cfg.fifoDepth → t.bf.ovfCnt = s.bf.ovfCnt) ∧
    t.fd = s.fd ∧ t.ne = s.ne ∧
    { t.out with
      bfPushOk := s.out.bfPushOk, bfPopValid := s.out.bfPopValid, bfPopData := s.out.bfPopData
      bfOvf := s.out.bfOvf } = s.out

/-- From every state that meets BF's invariant, each of the four operations answers a next state that meets it again and
whose stored bytes are the queue's: the oldest byte removed when a pop returns one, the pushed byte added at the end
when the queue was shorter than FIFO_DEPTH before the cycle. The byte a pop returns is the queue's first. (Derived:
R26 (10_state.md); R60, R63 (20_memory.md); R101 to R105 (40_fifo.md).) -/
def Obligations.FifoRefinesABoundedQueue : Prop :=
  ∀ (s : State) (b : Byte), BfInv s →
    let d := s.cfg.fifoDepth
    let q := s.fifoBytes
    let pushed := fun l : List Byte => if q.length < d then l ++ [b] else l
    q.length = s.bf.count ∧
    (∃ t, exec .bfNop s = .next t ∧ BfInv t ∧ t.fifoBytes = q) ∧
    (∃ t, exec (.bfPush b) s = .next t ∧ BfInv t ∧ t.fifoBytes = pushed q) ∧
    (∃ t, exec .bfPop s = .next t ∧ BfInv t ∧ t.fifoBytes = q.tail ∧
      (t.out.bfPopValid = true ↔ q ≠ []) ∧ t.out.bfPopData = q.headD 0#8) ∧
    (∃ t, exec (.bfPushPop b) s = .next t ∧ BfInv t ∧ t.fifoBytes = pushed q.tail ∧
      (t.out.bfPopValid = true ↔ q ≠ []) ∧ t.out.bfPopData = q.headD 0#8)

/-- From every state that meets BF's invariant, the units apart: if N bytes are pushed, one a cycle, with room for all of
them, and then count + N pops follow, every push is accepted, no push is refused, and the pops return the bytes stored
at the start in their order followed by the pushed ones in order, after which BF is empty. From reset, where BF's
invariant holds and nothing is stored, N pushes with N at most FIFO_DEPTH followed by N pops return the pushed bytes.
(Derived: R108 (40_fifo.md), pushes and pops in consecutive cycles.) -/
def Obligations.PopsReturnBytesInOrder : Prop :=
  ∀ (s : State) (l : List Byte) (rest : List CycleIn), BfInv s → s.wiring = .separate →
    s.bf.count + l.length ≤ s.cfg.fifoDepth →
    s.inputs = l.map push ++ List.replicate (s.bf.count + l.length) pop ++ rest →
    (s.bf.count = 0 → s.fifoBytes = []) ∧
    ∃ t, run (l.length + (s.bf.count + l.length)) s = .next t ∧ t.bf.count = 0 ∧ t.bf.ovfCnt = s.bf.ovfCnt ∧
      ((trace (l.length + (s.bf.count + l.length)) s).take l.length).map (fun o => o.bfPushOk) =
        l.map (fun _ => true) ∧
      ((trace (l.length + (s.bf.count + l.length)) s).drop l.length).map (fun o => (o.bfPopValid, o.bfPopData)) =
        (s.fifoBytes ++ l).map (fun b => (true, b))

/-- From every state that meets BF's invariant with nothing stored (reset is one), the units apart: of M > FIFO_DEPTH
pushes with no pop between them the first FIFO_DEPTH are accepted and the others refused, ovf_cnt increases by M -
FIFO_DEPTH modulo 2^CNT_W, and the FIFO_DEPTH pops that follow return the first FIFO_DEPTH bytes. (Derived: R109
(40_fifo.md).) -/
def Obligations.OverfullPushesDropTheNewest : Prop :=
  ∀ (s : State) (l : List Byte) (rest : List CycleIn), BfInv s → s.wiring = .separate → s.bf.count = 0 →
    s.cfg.fifoDepth < l.length → s.inputs = l.map push ++ List.replicate s.cfg.fifoDepth pop ++ rest →
    ∃ t, run (l.length + s.cfg.fifoDepth) s = .next t ∧ t.bf.count = 0 ∧
      t.bf.ovfCnt = (s.bf.ovfCnt + (l.length - s.cfg.fifoDepth)) % 2 ^ s.cfg.cntW ∧
      ((trace (l.length + s.cfg.fifoDepth) s).take l.length).map (fun o => o.bfPushOk) =
        List.replicate s.cfg.fifoDepth true ++ List.replicate (l.length - s.cfg.fifoDepth) false ∧
      ((trace (l.length + s.cfg.fifoDepth) s).drop l.length).map (fun o => (o.bfPopValid, o.bfPopData)) =
        (l.take s.cfg.fifoDepth).map (fun b => (true, b))

/-! ### Frame decoder -/

/-- From every state each row answers a next state: the first moves FD to SAW_SYNC1, the second changes nothing, the third
moves FD to READ_LEN, and the fourth, for every byte, 0xAA among them, moves FD to IDLE, adds 1 to sync_err_cnt modulo
2^CNT_W and asserts fd_sync_err. Nothing else changes and no other event is asserted. (Derived: R122, R123, R124, R125
(41_frame_decoder.md).) -/
def Obligations.SyncRowsEffects : Prop :=
  ∀ (s : State) (b : Byte),
    exec .fdIdleSync1 s = .next { s with fd := { s.fd with st := 1#3 } } ∧
    exec (.fdIdleOther b) s = .next s ∧
    exec .fdSawSync1Sync2 s = .next { s with fd := { s.fd with st := 2#3 } } ∧
    exec (.fdSawSync1Other b) s = .next { s with
      fd := { s.fd with st := 0#3, syncErrCnt := (s.fd.syncErrCnt + 1) % 2 ^ s.cfg.cntW }
      out := { s.out with fdSyncErr := true } }

/-- From every state the length rows answer a next state with len at 1029 or at the byte, idx and sum at 0 and FD in
READ_PAYLOAD. From every state whose idx names an entry of Buf the payload rows answer a next state with the byte at
Buf[idx], idx one higher, the byte added to sum modulo 256, and FD in READ_PAYLOAD or READ_CHECKSUM. Nothing else
changes and no event is asserted. (Derived: R126, R127, R128, R129 (41_frame_decoder.md).) -/
def Obligations.LengthAndPayloadRowsEffects : Prop :=
  ∀ (s : State) (b : Byte),
    exec .fdLenZero s =
      .next { s with fd := { s.fd with len := 1029#11, idx := 0#11, sum := 0#8, st := 3#3 } } ∧
    exec (.fdLenNonzero b) s =
      .next { s with fd := { s.fd with len := BitVec.ofNat 11 b.toNat, idx := 0#11, sum := 0#8, st := 3#3 } } ∧
    (s.fd.idx.toNat < 1029 →
      (∃ t, exec (.fdPayloadMore b) s = .next t ∧ t.bufByte s.fd.idx.toNat = b ∧
        t.fd.idx.toNat = s.fd.idx.toNat + 1 ∧ t.fd.sum.toNat = (s.fd.sum.toNat + b.toNat) % 256 ∧
        t = { s with fd := { s.fd with
          buf := Memory.write s.fd.buf s.fd.idx.toNat b, idx := t.fd.idx, sum := t.fd.sum
          st := 3#3 } }) ∧
      (∃ t, exec (.fdPayloadLast b) s = .next t ∧ t.bufByte s.fd.idx.toNat = b ∧
        t.fd.idx.toNat = s.fd.idx.toNat + 1 ∧ t.fd.sum.toNat = (s.fd.sum.toNat + b.toNat) % 256 ∧
        t = { s with fd := { s.fd with
          buf := Memory.write s.fd.buf s.fd.idx.toNat b, idx := t.fd.idx, sum := t.fd.sum, st := 4#3 } }))

/-- From every state each row answers a next state with FD in IDLE: a match asserts fd_frame_valid and adds 1 to
frame_cnt, a mismatch asserts fd_chk_err and adds 1 to chk_err_cnt, each modulo 2^CNT_W, with len, idx, sum and Buf as
they were; FD_BAD_STATE asserts nothing and writes nothing else. (Derived: R130, R131, R132 (41_frame_decoder.md).) -/
def Obligations.ChecksumRowsEffects : Prop :=
  ∀ (s : State) (b : Byte) (st : BitVec 3),
    exec (.fdChkMatch b) s = .next { s with
      fd := { s.fd with st := 0#3, frameCnt := (s.fd.frameCnt + 1) % 2 ^ s.cfg.cntW }
      out := { s.out with fdFrameValid := true } } ∧
    exec (.fdChkMismatch b) s = .next { s with
      fd := { s.fd with st := 0#3, chkErrCnt := (s.fd.chkErrCnt + 1) % 2 ^ s.cfg.cntW }
      out := { s.out with fdChkErr := true } } ∧
    exec (.fdBadState st b) s = .next { s with fd := { s.fd with st := 0#3 } }

/-- From every state, in a cycle outside reset that presents the byte b to FD, at its port with the units apart or as the
byte BF returns on the receive path, however many bytes BF holds: FD's registers and event outputs after the step are
those of the rule that R73 selects for FD's state, b and the row's guard, whatever BF and NE do in the cycle. The
accepted frame's length and checksum are on the outputs in the accepting cycle; a mismatch keeps len, sum and Buf; a
state code above 4, which no run reaches, goes to IDLE. (Stated: R122; R123; R124; R125; R126; R127; R128; R129; R130;
R131; R132.) -/
def Obligations.FrameDecoderTransitions : Prop :=
  ∀ (s t : State) (b : Byte), s.nextIn.rst = false → s.ByteArrives b → step s = .next t →
    let ev := (t.out.fdFrameValid, t.out.fdChkErr, t.out.fdSyncErr)
    (s.fd.st = 0#3 → b = 0xAA#8 → t.fd = { s.fd with st := 1#3 } ∧ ev = (false, false, false)) ∧
    (s.fd.st = 0#3 → b ≠ 0xAA#8 → t.fd = s.fd ∧ ev = (false, false, false)) ∧
    (s.fd.st = 1#3 → b = 0x55#8 → t.fd = { s.fd with st := 2#3 } ∧ ev = (false, false, false)) ∧
    (s.fd.st = 1#3 → b ≠ 0x55#8 →
      t.fd = { s.fd with st := 0#3, syncErrCnt := (s.fd.syncErrCnt + 1) % 2 ^ s.cfg.cntW } ∧
      ev = (false, false, true)) ∧
    (s.fd.st = 2#3 →
      t.fd = { s.fd with
        len := if b = 0#8 then 1029#11 else BitVec.ofNat 11 b.toNat, idx := 0#11, sum := 0#8, st := 3#3 } ∧
      ev = (false, false, false)) ∧
    (s.fd.st = 3#3 → s.fd.idx.toNat + 1 < s.fd.len.toNat →
      t.fd = { s.fd with
        buf := Memory.write s.fd.buf s.fd.idx.toNat b, idx := s.fd.idx + 1#11, sum := s.fd.sum + b, st := 3#3 } ∧
      ev = (false, false, false)) ∧
    (s.fd.st = 3#3 → s.fd.idx.toNat + 1 = s.fd.len.toNat →
      t.fd = { s.fd with
        buf := Memory.write s.fd.buf s.fd.idx.toNat b, idx := s.fd.idx + 1#11, sum := s.fd.sum + b, st := 4#3 } ∧
      ev = (false, false, false)) ∧
    (s.fd.st = 4#3 → b = s.fd.sum →
      t.fd = { s.fd with st := 0#3, frameCnt := (s.fd.frameCnt + 1) % 2 ^ s.cfg.cntW } ∧ ev = (true, false, false) ∧
      t.out.fdFrameLen = s.fd.len ∧ t.out.fdFrameChk = b) ∧
    (s.fd.st = 4#3 → b ≠ s.fd.sum →
      t.fd = { s.fd with st := 0#3, chkErrCnt := (s.fd.chkErrCnt + 1) % 2 ^ s.cfg.cntW } ∧ ev = (false, true, false)) ∧
    (4 < s.fd.st.toNat → t.fd = { s.fd with st := 0#3 } ∧ ev = (false, false, false))

/-- Outside reset, the units apart with fd_in_valid = 0, or on the receive path when BF returns no byte, a step leaves all
of FD's state as it was with fd_frame_valid, fd_chk_err and fd_sync_err at 0, whatever the other units do. (Derived:
R121 (41_frame_decoder.md), its first sentences.) -/
def Obligations.NoByteNoChange : Prop :=
  ∀ s t : State, s.nextIn.rst = false → step s = .next t →
    (s.wiring = .separate ∧ s.nextIn.fdInValid = false) ∨
      (s.wiring = .receivePath ∧ (s.nextIn.hold = true ∨ s.bf.count = 0)) →
    t.fd = s.fd ∧ t.out.fdFrameValid = false ∧ t.out.fdChkErr = false ∧ t.out.fdSyncErr = false

/-- In every cycle at most one of fd_frame_valid, fd_chk_err and fd_sync_err is 1; with the units apart and fd_in_valid =
0, none is. (Stated: R139.) -/
def Obligations.AtMostOneFrameEvent : Prop :=
  ∀ s t : State, step s = .next t →
    ¬ (t.out.fdFrameValid = true ∧ t.out.fdChkErr = true) ∧ ¬ (t.out.fdFrameValid = true ∧ t.out.fdSyncErr = true) ∧
    ¬ (t.out.fdChkErr = true ∧ t.out.fdSyncErr = true) ∧
    (s.wiring = .separate → s.nextIn.fdInValid = false →
      t.out.fdFrameValid = false ∧ t.out.fdChkErr = false ∧ t.out.fdSyncErr = false)

/-- In every cycle outside reset fd_rd_data is Buf at fd_rd_addr before the edge, and 0x00 for an index of 1029 or more;
two states that differ only in the address presented in the next cycle have next states that differ only in
fd_rd_data. In a reset cycle fd_rd_data is a free value (log entry 9). (Derived: R134 (41_frame_decoder.md).) -/
def Obligations.PayloadReadPort : Prop :=
  (∀ s t : State, s.nextIn.rst = false → step s = .next t →
    t.out.fdRdData = if s.nextIn.fdRdAddr.toNat < 1029 then s.bufByte s.nextIn.fdRdAddr.toNat else 0#8) ∧
  (∀ (s t : State) (c : CycleIn) (l : List CycleIn) (a : BitVec 11), s.inputs = c :: l → step s = .next t →
    ∃ d, step { s with inputs := { c with fdRdAddr := a } :: l } =
      .next { t with out := { t.out with fdRdData := d } })

/-- From every state with FD in IDLE, the units apart: feed the n + 4 bytes of a frame with any payload of an encodable
length n (1 to 255, or 1029) and any checksum byte c. The run completes, FD is back in IDLE, len is n, Buf[0:n] is the
payload and sum its 8-bit sum. If c is the sum, exactly one cycle, the last, asserts fd_frame_valid, frame_cnt counts
one and the error counters stand; otherwise no cycle asserts it and chk_err_cnt counts one. (Derived: R70, R71, R72
(30_encoding.md); R86 (30_encoding.md); R130, R131, R135 (41_frame_decoder.md).) -/
def Obligations.WellFormedFrameIsAccepted : Prop :=
  ∀ (s : State) (p : List Byte) (c : Byte) (rest : List CycleIn), s.wiring = .separate → s.fd.st = stIdle →
    EncodableLength p.length → s.inputs = stream (frameBytesWith p c) ++ rest →
    ∃ t, run (p.length + 4) s = .next t ∧ t.inputs = rest ∧ t.fd.st = stIdle ∧ t.fd.len.toNat = p.length ∧
      t.bufBytes p.length = p ∧ t.fd.sum = sum8 p ∧ t.fd.syncErrCnt = s.fd.syncErrCnt ∧
      (c = sum8 p →
        (trace (p.length + 4) s).map (fun o => o.fdFrameValid) = List.replicate (p.length + 3) false ++ [true] ∧
        t.fd.frameCnt = (s.fd.frameCnt + 1) % 2 ^ s.cfg.cntW ∧ t.fd.chkErrCnt = s.fd.chkErrCnt) ∧
      (c ≠ sum8 p →
        (trace (p.length + 4) s).map (fun o => o.fdFrameValid) = List.replicate (p.length + 4) false ∧
        t.fd.frameCnt = s.fd.frameCnt ∧ t.fd.chkErrCnt = (s.fd.chkErrCnt + 1) % 2 ^ s.cfg.cntW)

/-- From every state with FD in IDLE, the units apart: over any cycles without reset in which the bytes fed to FD, with
gaps or without, hold no two consecutive bytes 0xAA, 0x55, whatever BF and NE do in them, no cycle asserts
fd_frame_valid and FD never reaches READ_LEN: it ends in IDLE or SAW_SYNC1. When the bytes are fed one a cycle and
nothing else is presented, the run completes. (Stated: R136.) -/
def Obligations.NoFrameWithoutSyncPair : Prop :=
  ∀ s : State, s.wiring = .separate → s.fd.st = stIdle →
    (∀ (t : State) (n : Nat), (∀ c ∈ s.inputs.take n, c.rst = false) → NoSyncPair (fedBytes (s.inputs.take n)) →
      run n s = .next t → (t.fd.st = stIdle ∨ t.fd.st = stSawSync1) ∧
        (trace n s).map (fun o => o.fdFrameValid) = List.replicate n false) ∧
    (∀ (l : List Byte) (rest : List CycleIn), NoSyncPair l → s.inputs = stream l ++ rest →
      fedBytes (s.inputs.take l.length) = l ∧ ∃ t, run l.length s = .next t)

/-- From every state with FD in READ_LEN, the units apart: feed a LENGTH byte of decoded length n and then n + 1 bytes of
any values, sync pairs among them. FD is outside IDLE after each of the first n + 1 bytes and in IDLE after all n + 2.
(Derived: R137 (41_frame_decoder.md).) -/
def Obligations.NoResyncInsideAFrame : Prop :=
  ∀ (s : State) (b : Byte) (l : List Byte) (rest : List CycleIn), s.wiring = .separate → s.fd.st = stReadLen →
    l.length = (decodedLength b).toNat + 1 → s.inputs = stream (b :: l) ++ rest →
    (∀ k, 1 ≤ k → k ≤ l.length → ∃ t, run k s = .next t ∧ t.fd.st ≠ stIdle) ∧
    ∃ t, run (l.length + 1) s = .next t ∧ t.fd.st = stIdle

/-- From every state that meets FD's invariant, the units apart: over any cycles without reset in which at least 1032
bytes are fed to FD, with gaps or without, whatever BF and NE do in them, there is a point at most 1032 bytes in at
which FD is in IDLE. When 1032 bytes are fed one a cycle and nothing else is presented, the run completes up to such a
point. (Stated: R138.) -/
def Obligations.DecoderHealsItself : Prop :=
  ∀ s : State, FdInv s → s.wiring = .separate →
    (∀ (t : State) (n : Nat), (∀ c ∈ s.inputs.take n, c.rst = false) → 1032 ≤ (fedBytes (s.inputs.take n)).length →
      run n s = .next t → ∃ k ≤ n, (fedBytes (s.inputs.take k)).length ≤ 1032 ∧
        ∃ u, run k s = .next u ∧ u.fd.st = stIdle) ∧
    (∀ (l : List Byte) (rest : List CycleIn), l.length = 1032 → s.inputs = stream l ++ rest →
      ∃ k ≤ 1032, ∃ t, run k s = .next t ∧ t.fd.st = stIdle)

/-- From every state with FD in IDLE, as it is after the cycle that accepts a frame, under any inputs but reset: len and
sum keep their values over the next 2 cycles, so that they are shown through the third, and Buf[j] keeps its value
over the next 3 + j cycles, so that it is shown through the cycle after them. For j below len this is R224's window;
for j at or above len, where U3 lets a claim rest on nothing, it is the model's reading of R33 (log entry 15).
(Derived: R224 (70_reset_and_hazards.md); R33 (10_state.md: no other rule writes Buf); 93_implementation_defined.md
U3; log entry 15.) -/
def Obligations.FrameReadWindow : Prop :=
  ∀ (s t : State) (n : Nat), s.fd.st = stIdle → (∀ c ∈ s.inputs, c.rst = false) → run n s = .next t →
    (n ≤ 2 → t.fd.len = s.fd.len ∧ t.fd.sum = s.fd.sum) ∧
    (∀ j, n ≤ 3 + j → t.bufByte j = s.bufByte j)

/-- If an FD operation answers a next state: BF, NE and all outputs but FD's three events keep their values; every byte of
Buf but Buf[idx] reads as before, and that one too unless the operation is a payload row; len is written by the length
rows only, idx and sum by the length and payload rows only, and each counter by its own row only. (Derived: R122 to
R132 (41_frame_decoder.md); R33, R34 (10_state.md).) -/
def Obligations.FrameDecoderFrames : Prop :=
  ∀ (i : Instr) (s t : State), unitOf i = .fd → exec i s = .next t →
    let payload := ∃ b, i = .fdPayloadMore b ∨ i = .fdPayloadLast b
    let length := i = .fdLenZero ∨ ∃ b, i = .fdLenNonzero b
    t.bf = s.bf ∧ t.ne = s.ne ∧
    (∀ a, a ≠ s.fd.idx.toNat → Memory.read t.fd.buf a = Memory.read s.fd.buf a) ∧
    (¬ payload → ∀ a, Memory.read t.fd.buf a = Memory.read s.fd.buf a) ∧
    (¬ length → t.fd.len = s.fd.len) ∧
    (¬ length → ¬ payload → t.fd.idx = s.fd.idx ∧ t.fd.sum = s.fd.sum) ∧
    ((¬ ∃ b, i = .fdChkMatch b) → t.fd.frameCnt = s.fd.frameCnt) ∧
    ((¬ ∃ b, i = .fdChkMismatch b) → t.fd.chkErrCnt = s.fd.chkErrCnt) ∧
    ((¬ ∃ b, i = .fdSawSync1Other b) → t.fd.syncErrCnt = s.fd.syncErrCnt) ∧
    (i = .fdIdleSync1 ∨ i = .fdSawSync1Sync2 ∨ (∃ b, i = .fdIdleOther b) ∨ (∃ c b, i = .fdBadState c b) ∨
      length ∨ payload → t.out = s.out) ∧
    { t.out with
      fdFrameValid := s.out.fdFrameValid, fdChkErr := s.out.fdChkErr, fdSyncErr := s.out.fdSyncErr } = s.out

/-- On the receive path with FIFO_DEPTH at least 2, from a state that holds at most one byte, a cycle outside reset with
hold = 0 leaves at most one byte, which is the one pushed in it, refuses no push, and FD takes exactly the byte that
was stored before the cycle: FD's registers and events after the step are those that exec of the row its key decodes
to answers on the sampled state. With FIFO_DEPTH = 1 a push beside the pop would be refused (log entry 16), so that
depth is left out. (Derived: R141 (41_frame_decoder.md); R60 (20_memory.md).) -/
def Obligations.ReceivePathDrainsTheFifo : Prop :=
  ∀ s t : State, BfInv s → s.wiring = .receivePath → 2 ≤ s.cfg.fifoDepth → s.bf.count ≤ 1 → s.nextIn.rst = false →
    s.nextIn.hold = false → step s = .next t →
    t.bf.count = (if s.nextIn.bfPush then 1 else 0) ∧ t.out.bfOvf = false ∧ t.bf.ovfCnt = s.bf.ovfCnt ∧
    (s.nextIn.bfPush = true → t.fifoBytes = [s.nextIn.bfPushData]) ∧
    (s.bf.count = 0 → t.fd = s.fd) ∧
    (∀ b, s.fifoBytes = [b] → ∃ i v, decode s.cfg (.fdKey (fdKey s.fd.st b) (fdGuards s.fd b)) = .ok i ∧
      exec i (sample s.nextIn s) = .next v ∧ v.fd = t.fd ∧
      v.out.fdFrameValid = t.out.fdFrameValid ∧ v.out.fdChkErr = t.out.fdChkErr ∧ v.out.fdSyncErr = t.out.fdSyncErr)

/-! ### NOR flash engine: requests and sequences -/

/-- From every state with NE idle, each of the eight request rows with a length the port carries, and for WRITE data of
that length, answers a next state with the request latched (the data for WRITE only), cur_addr at the address, off and
bytes_done at 0, done at 0, and NE at the start of that operation's sequence. result, rdata and t0 keep their values,
and no transaction is issued. (Derived: R151 (42_nor_flash_engine.md); R75, R76, R77 (30_encoding.md).) -/
def Obligations.RequestsAreAccepted : Prop :=
  ∀ (s : State) (a : Addr) (n : Nat) (d : List Byte), s.ne.phase = .idle → n < 2 ^ s.cfg.lenW → d.length = n →
    let accepted := fun (pos : NePos) (op : BitVec 3) (w : List Byte) => Host.Outcome.next (φ := Fault) (ρ := Refusal)
      { s with ne := { s.ne with
        phase := .run pos 0, op := op, addr := a, rlen := n, wdata := w, curAddr := a, off := 0, bytesDone := 0
        done := false } }
    exec (.neReset a n) s = accepted .resetEnable 0#3 [] ∧
    exec (.neGetStatus a n) s = accepted .status 1#3 [] ∧
    exec (.neWriteEnable a n) s = accepted .weWren 2#3 [] ∧
    exec (.neRead a n) s = accepted .read 3#3 [] ∧
    exec (.neWrite a n d) s = accepted .wrLoop 4#3 d ∧
    exec (.neEraseSector a n) s = accepted .seWren 5#3 [] ∧
    exec (.neEraseChip a n) s = accepted .ceWren 6#3 [] ∧
    exec (.neReserved7 a n) s = accepted .illegal 7#3 []

/-- From every state with NE running, the step is the same whatever request is presented in its cycle, or none: it is
neither taken nor queued. (Derived: R151 (42_nor_flash_engine.md); R226 (70_reset_and_hazards.md).) -/
def Obligations.BusyEngineIgnoresRequests : Prop :=
  ∀ (s : State) (c : CycleIn) (l : List CycleIn) (r : Option NeReq) (pos : NePos) (k : Nat),
    s.ne.phase = .run pos k → s.inputs = c :: l → step { s with inputs := { c with neReq := r } :: l } = step s

/-- From every state with NE idle, a WRITE whose length the port carries and whose data list has another length is refused
by name, by exec and by the step that presents it; one whose data has that length is accepted with exactly that data.
(Stated: R232.) -/
def Obligations.MalformedWriteIsRefused : Prop :=
  ∀ (s : State) (a : Addr) (n : Nat) (d : List Byte), s.ne.phase = .idle → n < 2 ^ s.cfg.lenW →
    (d.length ≠ n → exec (.neWrite a n d) s = .refused .writeLengthMismatch ∧
      ∀ l, s.wiring = .separate → s.inputs = present ⟨4#3, a, n, d⟩ :: l → step s = .refused .writeLengthMismatch) ∧
    (d.length = n → ∃ t, exec (.neWrite a n d) s = .next t ∧ t.ne.wdata = d)

/-- From every state with NE idle, the units apart, a RESET request with any address and length, each transaction taking
any number of cycles: both ok, NE finishes OK after exactly the transactions RSTEN and RST, with no wait and no poll;
the first fails, NE finishes TRANSFER_ERROR and RST is not sent; the second fails, TRANSFER_ERROR after both. (Stated:
R155.) -/
def Obligations.ResetSequence : Prop :=
  ∀ (s : State) (a : Addr) (n i j : Nat) (d : List Byte) (rest : List CycleIn), s.ne.phase = .idle →
    s.wiring = .separate → n < 2 ^ s.cfg.lenW →
    let finished := fun (k : Nat) (res : BitVec 3) (l : List BusTx) =>
      ∃ t, run k s = .next t ∧ t.ne.phase = .idle ∧ t.ne.done = true ∧ t.ne.result = res ∧ t.ne.bytesDone = 0 ∧
        t.inputs = rest ∧ transcript k s = l
    (s.inputs = present ⟨0#3, a, n, d⟩ :: (answerAfter i (.ok []) ++ (answerAfter j (.ok []) ++ rest)) →
      finished (i + j + 3) 0#3 [⟨[s.cfg.cmdRsten], 0⟩, ⟨[s.cfg.cmdRst], 0⟩]) ∧
    (s.inputs = present ⟨0#3, a, n, d⟩ :: (answerAfter i .err ++ rest) →
      finished (i + 2) 3#3 [⟨[s.cfg.cmdRsten], 0⟩]) ∧
    (s.inputs = present ⟨0#3, a, n, d⟩ :: (answerAfter i (.ok []) ++ (answerAfter j .err ++ rest)) →
      finished (i + j + 3) 3#3 [⟨[s.cfg.cmdRsten], 0⟩, ⟨[s.cfg.cmdRst], 0⟩])

/-- From every state with NE idle, the units apart, a WRITE_ENABLE request: WREN answered ok and the first poll not busy,
NE finishes OK after WREN and RDSR, whatever the budget; the first poll busy with a budget of 0, TIMEOUT after the
same two; the poll failing, TRANSFER_ERROR; WREN failing, TRANSFER_ERROR with no status read. (Derived: R153, R154,
R157 (42_nor_flash_engine.md).) -/
def Obligations.WriteEnableSequence : Prop :=
  ∀ (s : State) (a : Addr) (n : Nat) (d : List Byte) (z : Byte) (rest : List CycleIn), s.ne.phase = .idle →
    s.wiring = .separate → n < 2 ^ s.cfg.lenW →
    let finished := fun (k : Nat) (res : BitVec 3) (l : List BusTx) =>
      ∃ t, run k s = .next t ∧ t.ne.phase = .idle ∧ t.ne.done = true ∧ t.ne.result = res ∧ t.ne.bytesDone = 0 ∧
        transcript k s = l
    let both : List BusTx := [⟨[s.cfg.cmdWren], 0⟩, ⟨[s.cfg.cmdRdsr], 1⟩]
    (s.inputs = present ⟨2#3, a, n, d⟩ :: answer (.ok []) :: answer (.ok [z]) :: rest →
      (busy s.cfg z = false → finished 3 0#3 both) ∧
      (busy s.cfg z = true → s.cfg.tWe = 0 → finished 3 2#3 both)) ∧
    (s.inputs = present ⟨2#3, a, n, d⟩ :: answer (.ok []) :: answer .err :: rest → finished 3 3#3 both) ∧
    (s.inputs = present ⟨2#3, a, n, d⟩ :: answer .err :: rest → finished 2 3#3 [⟨[s.cfg.cmdWren], 0⟩])

/-- From every state with NE idle, the units apart, the request's transaction taking any number of cycles. GET_STATUS
reads the status once and finishes BUSY if bit BUSY_BIT of the byte is 1 and OK otherwise, whatever the other bits;
TRANSFER_ERROR on an error. READ of n bytes sends command and address once, with no status read: with any n bytes
received it finishes OK with rdata those bytes and bytes_done n, for n = 0 too; with an error, TRANSFER_ERROR with
rdata empty and bytes_done 0. (Stated: R156; R158.) -/
def Obligations.StatusAndReadSequences : Prop :=
  ∀ (s : State) (a : Addr) (n i : Nat) (d rx : List Byte) (z : Byte) (rest : List CycleIn), s.ne.phase = .idle →
    s.wiring = .separate → n < 2 ^ s.cfg.lenW → rx.length = n →
    let finished := fun (res : BitVec 3) (got : List Byte) (m : Nat) (x : BusTx) =>
      ∃ t, run (i + 2) s = .next t ∧ t.ne.phase = .idle ∧ t.ne.done = true ∧ t.ne.result = res ∧ t.ne.rdata = got ∧
        t.ne.bytesDone = m ∧ t.inputs = rest ∧ transcript (i + 2) s = [x]
    let rdsr : BusTx := ⟨[s.cfg.cmdRdsr], 1⟩
    let read : BusTx := ⟨[s.cfg.cmdRead, a.extractLsb' 16 8, a.extractLsb' 8 8, a.extractLsb' 0 8], n⟩
    (s.inputs = present ⟨1#3, a, n, d⟩ :: (answerAfter i (.ok [z]) ++ rest) →
      finished (if z.getLsbD s.cfg.busyBit then 1#3 else 0#3) s.ne.rdata 0 rdsr) ∧
    (s.inputs = present ⟨1#3, a, n, d⟩ :: (answerAfter i .err ++ rest) → finished 3#3 s.ne.rdata 0 rdsr) ∧
    (s.inputs = present ⟨3#3, a, n, d⟩ :: (answerAfter i (.ok rx) ++ rest) → finished 0#3 rx n read) ∧
    (s.inputs = present ⟨3#3, a, n, d⟩ :: (answerAfter i .err ++ rest) → finished 3#3 [] 0 read)

/-- From every state with NE idle, the units apart, with every answer ok and no poll busy, an erase request finishes OK
after WREN, RDSR, the erase command and RDSR; the sector erase carries the request's address unrounded, the chip erase
none. If the erase command fails, TRANSFER_ERROR and no further status read. (Derived: R161, R162
(42_nor_flash_engine.md); R54 (20_memory.md: the address is not rounded).) -/
def Obligations.EraseSequences : Prop :=
  ∀ (s : State) (a : Addr) (n : Nat) (d : List Byte) (z : Byte) (rest : List CycleIn), s.ne.phase = .idle →
    s.wiring = .separate → n < 2 ^ s.cfg.lenW → busy s.cfg z = false →
    let finished := fun (k : Nat) (res : BitVec 3) (l : List BusTx) =>
      ∃ t, run k s = .next t ∧ t.ne.phase = .idle ∧ t.ne.done = true ∧ t.ne.result = res ∧ t.ne.bytesDone = 0 ∧
        transcript k s = l
    let wren : BusTx := ⟨[s.cfg.cmdWren], 0⟩
    let rdsr : BusTx := ⟨[s.cfg.cmdRdsr], 1⟩
    let sector : BusTx := ⟨[s.cfg.cmdSe, a.extractLsb' 16 8, a.extractLsb' 8 8, a.extractLsb' 0 8], 0⟩
    let chip : BusTx := ⟨[s.cfg.cmdCe], 0⟩
    let good := [answer (.ok []), answer (.ok [z]), answer (.ok []), answer (.ok [z])]
    let bad := [answer (.ok []), answer (.ok [z]), answer .err]
    (s.inputs = present ⟨5#3, a, n, d⟩ :: (good ++ rest) → finished 5 0#3 [wren, rdsr, sector, rdsr]) ∧
    (s.inputs = present ⟨5#3, a, n, d⟩ :: (bad ++ rest) → finished 4 3#3 [wren, rdsr, sector]) ∧
    (s.inputs = present ⟨6#3, a, n, d⟩ :: (good ++ rest) → finished 5 0#3 [wren, rdsr, chip, rdsr]) ∧
    (s.inputs = present ⟨6#3, a, n, d⟩ :: (bad ++ rest) → finished 4 3#3 [wren, rdsr, chip])

/-- From every state with NE idle, the units apart, a request with op 7 is accepted and its first run step, of any number
of cycles, finishes ILLEGAL with bytes_done 0 and done high, whatever answer the draw for that step holds; no
transaction is on the bus. (Stated: R77; R163.) -/
def Obligations.ReservedCodeFinishesIllegal : Prop :=
  ∀ (s : State) (a : Addr) (n i : Nat) (d : List Byte) (x : BusAnswer) (rest : List CycleIn), s.ne.phase = .idle →
    s.wiring = .separate → n < 2 ^ s.cfg.lenW → s.inputs = present ⟨7#3, a, n, d⟩ :: (answerAfter i x ++ rest) →
    ∃ t, run (i + 2) s = .next t ∧ t.ne.phase = .idle ∧ t.ne.done = true ∧ t.ne.result = 7#3 ∧ t.ne.bytesDone = 0 ∧
      t.inputs = rest ∧ transcript (i + 2) s = []

/-- From every state with NE idle, the units apart, a WRITE of any n bytes at any address on a device that answers every
transaction ok and is never busy: NE finishes OK with bytes_done n and cur_addr at the address plus n modulo 2^24,
after WREN, RDSR, page program, RDSR for each chunk of R160's law and nothing else: 4k transactions for k chunks, each
page program carrying its chunk of the data. With n = 0 it finishes OK in its first run step with no transaction.
(Derived: R159, R160, R166 (42_nor_flash_engine.md); R53 (20_memory.md).) -/
def Obligations.WriteSendsTheChunksInOrder : Prop :=
  ∀ (s : State) (a : Addr) (d : List Byte) (z : Byte) (rest : List CycleIn), s.ne.phase = .idle → s.wiring = .separate →
    d.length < 2 ^ s.cfg.lenW → busy s.cfg z = false →
    let chunks := chunkLaw d.length a d.length
    let steps := if d = [] then 2 else 1 + 4 * chunks.length
    s.inputs = present ⟨4#3, a, d.length, d⟩ ::
      ((if d = [] then [answer .err] else chunks.flatMap fun _ => chunkAnswers z) ++ rest) →
    ∃ t, run steps s = .next t ∧ t.ne.phase = .idle ∧ t.ne.done = true ∧ t.ne.result = 0#3 ∧
      t.ne.bytesDone = d.length ∧ t.ne.curAddr = a + BitVec.ofNat 24 d.length ∧ t.inputs = rest ∧
      transcript steps s = writeTransactions s.cfg chunks d

/-- For every address and every n of at least 1, the chunks of a WRITE of n bytes number 1 + ceil(max(0, n - (256 - p)) /
256) with p the address modulo 256; the first is min(256 - p, n) bytes at the address itself, every later one starts
at a multiple of 256, none is empty or crosses a page boundary, every one but the last ends at a page boundary, and
together they are n bytes. (Derived: R160 (42_nor_flash_engine.md).) -/
def Obligations.ChunkLawShape : Prop :=
  ∀ (a : Addr) (n : Nat), 1 ≤ n →
    let l := chunkLaw n a n
    l.length = 1 + (n - (256 - a.toNat % 256) + 255) / 256 ∧
    l.head? = some (a, min (256 - a.toNat % 256) n) ∧
    (∀ x ∈ l.tail, x.1.toNat % 256 = 0) ∧
    (∀ x ∈ l, 1 ≤ x.2 ∧ x.1.toNat % 256 + x.2 ≤ 256) ∧
    (∀ x ∈ l.dropLast, x.1.toNat % 256 + x.2 = 256) ∧
    (l.map (fun x => x.2)).sum = n

/-! ### NOR flash engine: transactions, polls and errors -/

/-- From every state in which NE's sequence is at the row's transaction and the bus answers ok with the bytes it receives,
exec answers a next state: the transaction stands on the bus, and NE goes on as its operation's rule says: RST next,
RESET finished OK, the busy-poll of WREN_SEQ at its own position, READ finished OK with the data, the busy-poll after
the program or the erase. (Derived: R155, R158, R159, R161, R162 (42_nor_flash_engine.md); R168 to R175
(42_nor_flash_engine.md); R57 (20_memory.md).) -/
def Obligations.SendingRowsEffects : Prop :=
  ∀ (s : State) (k : Nat) (rx : List Byte),
    let issued := fun (t : BusTx) => { s.out with busTx := some t }
    let goes := fun (t : BusTx) (pos : NePos) => Host.Outcome.next (φ := Fault) (ρ := Refusal)
      { s with ne := { s.ne with phase := .run pos 0, done := false }, out := issued t }
    let ends := fun (t : BusTx) (ne : NeState) => Host.Outcome.next (φ := Fault) (ρ := Refusal)
      { s with ne := { ne with phase := .idle, done := true, result := 0#3 }, out := issued t }
    (s.bus = some (.ok []) →
      (s.ne.phase = .run .resetEnable k → exec .norRsten s = goes ⟨[s.cfg.cmdRsten], 0⟩ .resetMemory) ∧
      (s.ne.phase = .run .resetMemory k → exec .norRst s = ends ⟨[s.cfg.cmdRst], 0⟩ s.ne) ∧
      (s.ne.phase = .run .weWren k → exec .norWren s = goes ⟨[s.cfg.cmdWren], 0⟩ .wePoll) ∧
      (s.ne.phase = .run .wrLoop k → s.ne.off < s.ne.rlen → exec .norWren s = goes ⟨[s.cfg.cmdWren], 0⟩ .wrWePoll) ∧
      (s.ne.phase = .run .seWren k → exec .norWren s = goes ⟨[s.cfg.cmdWren], 0⟩ .seWePoll) ∧
      (s.ne.phase = .run .ceWren k → exec .norWren s = goes ⟨[s.cfg.cmdWren], 0⟩ .ceWePoll) ∧
      (s.ne.phase = .run .wrProgram k → exec (.norPp s.ne.curAddr (chunkData s.ne)) s =
        goes ⟨s.cfg.cmdPp :: addrBytes s.ne.curAddr ++ chunkData s.ne, 0⟩ .wrPoll) ∧
      (s.ne.phase = .run .seErase k → exec (.norSe s.ne.addr) s =
        goes ⟨s.cfg.cmdSe :: addrBytes s.ne.addr, 0⟩ .sePoll) ∧
      (s.ne.phase = .run .ceErase k → exec .norCe s = goes ⟨[s.cfg.cmdCe], 0⟩ .cePoll)) ∧
    (s.bus = some (.ok rx) → rx.length = s.ne.rlen → s.ne.phase = .run .read k →
      exec (.norRead s.ne.addr s.ne.rlen) s =
        ends ⟨s.cfg.cmdRead :: addrBytes s.ne.addr, s.ne.rlen⟩ { s.ne with rdata := rx, bytesDone := s.ne.rlen })

/-- From every state at GET_STATUS's status read or at a poll with budget T, whose bus answers with an error or one byte,
exec of NOR_RDSR answers a next state, with all of NE's registers as said here. GET_STATUS finishes BUSY or OK by the
busy bit, and TRANSFER_ERROR on an error, with t0 as it was. At a poll, t0 is the tick if this is the first poll and
stays otherwise; an error finishes TRANSFER_ERROR; a busy status, provided that at a later poll the tick has advanced
by less than 2^TICK_W since the poll before (log entry 10), finishes TIMEOUT if the elapsed time is at least T and
else stays at the poll, one poll further; a status that is not busy goes on to the program or erase command, or
finishes OK, or for a page program counts the chunk and goes on to the next or finishes OK. The tick is that of the
cycle in which the NE step ends, which is the model's choice (log entry 20). (Derived: R153, R156, R170
(42_nor_flash_engine.md); R152 (42_nor_flash_engine.md: Now()); R82 (30_encoding.md); R229 (70_reset_and_hazards.md);
log entry 10; log entry 20.) -/
def Obligations.StatusReadEffects : Prop :=
  ∀ (s : State) (pos : NePos) (k : Nat) (z : Byte), s.ne.phase = .run pos k →
    (pos = .status →
      (s.bus = some .err → ∃ t, exec .norRdsr s = .next t ∧
        t.ne = { s.ne with result := 3#3, done := true, phase := .idle }) ∧
      (s.bus = some (.ok [z]) → ∃ t, exec .norRdsr s = .next t ∧
        t.ne = { s.ne with
          result := if z.getLsbD s.cfg.busyBit then 1#3 else 0#3, done := true, phase := .idle })) ∧
    (∀ T, pollBudget s.cfg pos = some T →
      let t0 := if k = 0 then s.now else s.ne.t0
      (s.bus = some .err → ∃ t, exec .norRdsr s = .next t ∧
        t.ne = { s.ne with t0 := t0, result := 3#3, done := true, phase := .idle }) ∧
      (s.bus = some (.ok [z]) → z.getLsbD s.cfg.busyBit = true → (k = 0 ∨ s.tickSince < 2 ^ s.cfg.tickW) →
        (T ≤ elapsed s.cfg s.now t0 → ∃ t, exec .norRdsr s = .next t ∧
          t.ne = { s.ne with t0 := t0, result := 2#3, done := true, phase := .idle }) ∧
        (elapsed s.cfg s.now t0 < T → ∃ t, exec .norRdsr s = .next t ∧
          t.ne = { s.ne with t0 := t0, done := false, phase := .run pos (k + 1) })) ∧
      (s.bus = some (.ok [z]) → z.getLsbD s.cfg.busyBit = false → ∃ t, exec .norRdsr s = .next t ∧
        (pos = .wePoll ∨ pos = .sePoll ∨ pos = .cePoll →
          t.ne = { s.ne with t0 := t0, result := 0#3, done := true, phase := .idle }) ∧
        (pos = .wrWePoll → t.ne = { s.ne with t0 := t0, done := false, phase := .run .wrProgram 0 }) ∧
        (pos = .seWePoll → t.ne = { s.ne with t0 := t0, done := false, phase := .run .seErase 0 }) ∧
        (pos = .ceWePoll → t.ne = { s.ne with t0 := t0, done := false, phase := .run .ceErase 0 }) ∧
        (pos = .wrPoll →
          let c := min (256 - s.ne.curAddr.toNat % 256) (s.ne.rlen - s.ne.off)
          let counted := { s.ne with
            t0 := t0, off := s.ne.off + c, bytesDone := s.ne.off + c, curAddr := s.ne.curAddr + BitVec.ofNat 24 c }
          (s.ne.off + c < s.ne.rlen → t.ne = { counted with done := false, phase := .run .wrLoop 0 }) ∧
          (¬ s.ne.off + c < s.ne.rlen → t.ne = { counted with result := 0#3, done := true, phase := .idle }))))

/-- From every state in which NE's sequence is at a transaction and the bus answers with an error, exec of that
transaction answers a next state with NE idle, done high and TRANSFER_ERROR; bytes_done, cur_addr, off and the latch
keep their values, and rdata too unless the transaction is READ's, which empties it. (Derived: R164
(42_nor_flash_engine.md); R195 (60_exceptions.md).) -/
def Obligations.FirstErrorEndsTheOperation : Prop :=
  ∀ (s : State) (pos : NePos) (k : Nat) (i : Instr), s.ne.phase = .run pos k → nePending s.ne pos = some i →
    s.bus = some .err → ∃ t, exec i s = .next t ∧ t.ne.phase = .idle ∧ t.ne.done = true ∧ t.ne.result = 3#3 ∧
      t.ne.bytesDone = s.ne.bytesDone ∧ t.ne.curAddr = s.ne.curAddr ∧ t.ne.off = s.ne.off ∧ t.ne.op = s.ne.op ∧
      t.ne.addr = s.ne.addr ∧ t.ne.rlen = s.ne.rlen ∧ t.ne.wdata = s.ne.wdata ∧
      t.ne.rdata = (if pos = .read then [] else s.ne.rdata) ∧ t.out.busTx = norTx s.cfg i

/-- From every state that meets NE's invariant: whenever NE's sequence is at a page program, it carries 1 to 256 bytes
that end at or before the next page boundary, at the address addr + off, and they are the latched data from off on.
(Derived: R54 (20_memory.md); R160, R173 (42_nor_flash_engine.md).) -/
def Obligations.ProgramsStayInsideAPage : Prop :=
  ∀ (s : State) (pos : NePos) (k : Nat) (a : Addr) (d : List Byte), NeInv s → s.ne.phase = .run pos k →
    nePending s.ne pos = some (.norPp a d) →
    1 ≤ d.length ∧ d.length ≤ 256 ∧ a.toNat % 256 + d.length ≤ 256 ∧ a = s.ne.addr + BitVec.ofNat 24 s.ne.off ∧
      s.ne.wdata = s.ne.wdata.take s.ne.off ++ d ++ s.ne.wdata.drop (s.ne.off + d.length)

/-- From every state at a poll with a budget the elapsed time has not reached, the units apart: under any number of cycles
in which the tick stands still and the device answers busy, NE issues one status read in each, never finishes and
stays not ready. The model hangs as the hardware does. (Derived: R167 (42_nor_flash_engine.md);
93_implementation_defined.md U14.) -/
def Obligations.StuckDevicePollsForever : Prop :=
  ∀ (s : State) (pos : NePos) (k T n : Nat) (z : Byte) (rest : List CycleIn), s.wiring = .separate →
    s.ne.phase = .run pos k → pollBudget s.cfg pos = some T → s.now < 2 ^ s.cfg.tickW → s.ne.t0 < 2 ^ s.cfg.tickW →
    (if k = 0 then 0 < T else elapsed s.cfg s.now s.ne.t0 < T ∧ s.tickSince < 2 ^ s.cfg.tickW) →
    busy s.cfg z = true → s.inputs = List.replicate n (answer (.ok [z])) ++ rest →
    ∃ t, run n s = .next t ∧ t.ne.phase = .run pos (k + n) ∧ t.neReady = false ∧
      transcript n s = List.replicate n ⟨[s.cfg.cmdRdsr], 1⟩

/-- For every t0 and every advance d below 2^TICK_W, the elapsed time computed from the wrapped tick is d. At a later poll
of a busy-poll whose device answers busy, if the tick has advanced by 2^TICK_W or more since the poll before, exec of
NOR_RDSR is refused by name. That the duty is tested there alone, so that a poll that reads not busy goes on, is the
model's reading of R229 (log entry 10). (Derived: R165 (42_nor_flash_engine.md); R229 (70_reset_and_hazards.md);
93_implementation_defined.md U10; log entry 10.) -/
def Obligations.TickArithmetic : Prop :=
  (∀ (c : Config) (t0 d : Nat), t0 < 2 ^ c.tickW → d < 2 ^ c.tickW →
    elapsed c ((t0 + d) % 2 ^ c.tickW) t0 = d) ∧
  ∀ (s : State) (pos : NePos) (k T : Nat) (z : Byte), s.ne.phase = .run pos k → pollBudget s.cfg pos = some T → k ≠ 0 →
    2 ^ s.cfg.tickW ≤ s.tickSince → s.bus = some (.ok [z]) → busy s.cfg z = true →
    exec .norRdsr s = .refused .tickDuty

/-- Outside reset a step leaves done high exactly when it finishes an operation, that is when NE was running and is idle
after it. The output ne_done shows the register before the edge: in the cycle after a step outside reset it is 1 if
that step finished an operation and 0 otherwise. In the cycle after a finishing step ne_ready is 1 too, and that
cycle's step lowers done again. While NE is idle, a step without a request keeps result, bytes_done and rdata, and one
with a request keeps result and rdata until it is accepted and beyond. done is 0 after reset. (Stated: R42.) -/
def Obligations.DoneIsOneCycleAndResultsHold : Prop :=
  State.reset.ne.done = false ∧
  ∀ s t : State, s.nextIn.rst = false → step s = .next t →
    (t.ne.done = true ↔ (s.ne.phase ≠ .idle ∧ t.ne.phase = .idle)) ∧
    t.out.neDone = s.ne.done ∧
    (∀ u, t.nextIn.rst = false → step t = .next u →
      (u.out.neDone = true ↔ (s.ne.phase ≠ .idle ∧ t.ne.phase = .idle)) ∧
      (s.ne.phase ≠ .idle → t.ne.phase = .idle → u.out.neReady = true ∧ u.ne.done = false)) ∧
    (s.ne.phase = .idle → t.ne.result = s.ne.result ∧ t.ne.rdata = s.ne.rdata ∧
      (s.nextIn.neReq = none → t.ne.bytesDone = s.ne.bytesDone ∧ t.ne.phase = .idle))

/-- Outside reset, if a step finishes an operation, its result is one of OK, BUSY, TIMEOUT, TRANSFER_ERROR and ILLEGAL;
BUSY only at GET_STATUS's status read, TIMEOUT only at a poll of WRITE_ENABLE, WRITE, ERASE_SECTOR or ERASE_CHIP,
TRANSFER_ERROR only on a failed transaction, ILLEGAL only for op 7; and for op 7 nothing but ILLEGAL. (Derived: R79
(30_encoding.md); R194, R195 (60_exceptions.md).) -/
def Obligations.ResultCodesHaveTheirOrigins : Prop :=
  ∀ s t : State, s.nextIn.rst = false → step s = .next t → t.ne.done = true →
    ∃ pos k, s.ne.phase = .run pos k ∧ LegalResult t.ne.result ∧
      (t.ne.result = 1#3 → pos = .status) ∧
      (t.ne.result = 2#3 → (pollBudget s.cfg pos).isSome ∧
        (pos.opCode = 2#3 ∨ pos.opCode = 4#3 ∨ pos.opCode = 5#3 ∨ pos.opCode = 6#3)) ∧
      (t.ne.result = 3#3 → s.nextIn.bus = some .err ∧ (nePending s.ne pos).isSome) ∧
      (t.ne.result = 7#3 ↔ pos = .illegal)

/-- If a request row or a NOR row answers a next state: BF, FD (so every byte of both arrays) and every output but the bus
transaction keep their values. A request row keeps result, rdata and t0, and the bus transaction. A NOR row keeps the
request latch; t0 unless it is NOR_RDSR; cur_addr and off unless it is NOR_RDSR; rdata unless it is NOR_READ;
bytes_done unless it is NOR_RDSR or NOR_READ; and result unless it finishes the operation. (Derived: R37 to R42
(10_state.md); R151, R152 (42_nor_flash_engine.md).) -/
def Obligations.EngineFrames : Prop :=
  ∀ (i : Instr) (s t : State), unitOf i = .ne → exec i s = .next t →
    t.bf = s.bf ∧ t.fd = s.fd ∧ { t.out with busTx := s.out.busTx } = s.out ∧
    (norTx s.cfg i = none → t.ne.result = s.ne.result ∧ t.ne.rdata = s.ne.rdata ∧ t.ne.t0 = s.ne.t0 ∧ t.out = s.out) ∧
    (norTx s.cfg i ≠ none →
      (t.ne.op = s.ne.op ∧ t.ne.addr = s.ne.addr ∧ t.ne.rlen = s.ne.rlen ∧ t.ne.wdata = s.ne.wdata) ∧
      (i ≠ .norRdsr → t.ne.t0 = s.ne.t0 ∧ t.ne.curAddr = s.ne.curAddr ∧ t.ne.off = s.ne.off) ∧
      ((∀ a n, i ≠ .norRead a n) → t.ne.rdata = s.ne.rdata) ∧
      (i ≠ .norRdsr → (∀ a n, i ≠ .norRead a n) → t.ne.bytesDone = s.ne.bytesDone) ∧
      (t.ne.phase ≠ .idle → t.ne.result = s.ne.result))

/-- In every cycle outside reset, on either wiring, each of frame_cnt, chk_err_cnt and sync_err_cnt goes up by 1 modulo
2^CNT_W if its event output is 1 in the cycle and keeps its value otherwise. (Derived: R34 (10_state.md); R190, R191,
R192 (60_exceptions.md).) -/
def Obligations.FrameEventsAreCounted : Prop :=
  ∀ s t : State, s.nextIn.rst = false → step s = .next t →
    t.fd.frameCnt = (if t.out.fdFrameValid then (s.fd.frameCnt + 1) % 2 ^ s.cfg.cntW else s.fd.frameCnt) ∧
    t.fd.chkErrCnt = (if t.out.fdChkErr then (s.fd.chkErrCnt + 1) % 2 ^ s.cfg.cntW else s.fd.chkErrCnt) ∧
    t.fd.syncErrCnt = (if t.out.fdSyncErr then (s.fd.syncErrCnt + 1) % 2 ^ s.cfg.cntW else s.fd.syncErrCnt)
end

