-- ==== Sys2Proof/Laws/Decode.lean ====
section
/-! SUPPORT. Laws/Decode.lean: what the decoders and the encoder's fields answer, once each: the fields of FD's key, the
row R73 selects in each state, and the address bytes. -/

namespace Sys2Proof

/-- A bit of the key is a bit of the byte below bit 8, and of the state from there on. -/
theorem getLsbD_fdKey (st : BitVec 3) (b : Byte) (i : Nat) :
    (fdKey st b).getLsbD i = if i < 8 then b.getLsbD i else st.getLsbD (i - 8) :=
  (BitVec.getLsbD_append (x := st) (y := b) (i := i)).trans (by split <;> simp_all)

@[simp] theorem keyState_fdKey (st : BitVec 3) (b : Byte) : keyState (fdKey st b) = st := by
  apply BitVec.eq_of_getLsbD_eq
  intro i hi
  simp [keyState, getLsbD_fdKey, hi]

@[simp] theorem keyByte_fdKey (st : BitVec 3) (b : Byte) : keyByte (fdKey st b) = b := by
  apply BitVec.eq_of_getLsbD_eq
  intro i hi
  simp [keyByte, getLsbD_fdKey, hi]

/-- Two keys are equal when their states and bytes are. -/
@[simp] theorem fdKey_inj (st st' : BitVec 3) (b b' : Byte) : fdKey st b = fdKey st' b' ↔ st = st' ∧ b = b' := by
  constructor
  · intro h
    exact ⟨by simpa using congrArg keyState h, by simpa using congrArg keyByte h⟩
  · rintro ⟨rfl, rfl⟩; rfl

/-- A mask acts on the state and on the byte apart. -/
theorem fdKey_and (st m : BitVec 3) (b n : Byte) : fdKey st b &&& fdKey m n = fdKey (st &&& m) (b &&& n) := by
  apply BitVec.eq_of_getLsbD_eq
  intro i hi
  simp only [BitVec.getLsbD_and, getLsbD_fdKey]
  split <;> simp

/-- Every key is a state and a byte. -/
theorem fdKey_fields (k : BitVec 11) : fdKey (keyState k) (keyByte k) = k := by
  apply BitVec.eq_of_getLsbD_eq
  intro i hi
  simp only [getLsbD_fdKey, keyState, keyByte, BitVec.getLsbD_extractLsb']
  split
  · simp_all
  · simp [show i - 8 < 3 by omega, show 8 + (i - 8) = i by omega]

/-- Whether a row with mask 0x7FF matches: the key is its pattern. -/
theorem fdKey_full (st p : BitVec 3) (b n : Byte) :
    ((fdKey st b &&& 0x7FF#11) == fdKey p n) = (decide (st = p) && decide (b = n)) := by
  rw [show (0x7FF#11) = fdKey 7#3 0xFF#8 by decide, fdKey_and]
  have h1 : st &&& 7#3 = st := BitVec.and_allOnes
  have h2 : b &&& 0xFF#8 = b := BitVec.and_allOnes
  rw [h1, h2, Bool.eq_iff_iff]; simp

/-- Whether a row with mask 0x700 matches: the state is its pattern's. -/
theorem fdKey_state (st p : BitVec 3) (b : Byte) : ((fdKey st b &&& 0x700#11) == fdKey p 0#8) = decide (st = p) := by
  rw [show (0x700#11) = fdKey 7#3 0#8 by decide, fdKey_and]
  have h1 : st &&& 7#3 = st := BitVec.and_allOnes
  rw [h1, Bool.eq_iff_iff]; simp

/-- Whether row 11 matches: bit 10 of the key, the top bit of the state. -/
theorem fdKey_bad (st : BitVec 3) (b : Byte) : ((fdKey st b &&& 0x400#11) == fdKey 4#3 0#8) = decide (4 ≤ st.toNat) := by
  rw [show (0x400#11) = fdKey 4#3 0#8 by decide, fdKey_and, Bool.eq_iff_iff]
  simp only [beq_iff_eq, fdKey_inj, decide_eq_true_eq, BitVec.and_zero, and_true]
  revert st; decide

/-- R73 read state by state: the row its table selects for a byte in each state, under the guards. -/
theorem decodeFd_fdKey (st : BitVec 3) (b : Byte) (g : FdGuards) :
    decodeFd (fdKey st b) g =
      if st = stIdle then .ok (if b = sync1 then .fdIdleSync1 else .fdIdleOther b)
      else if st = stSawSync1 then .ok (if b = sync2 then .fdSawSync1Sync2 else .fdSawSync1Other b)
      else if st = stReadLen then .ok (if b = 0#8 then .fdLenZero else .fdLenNonzero b)
      else if st = stReadPayload then
        if g.more then .ok (.fdPayloadMore b) else if g.last then .ok (.fdPayloadLast b) else .error .noFrameRow
      else if st = stReadChecksum then .ok (if g.chkEq then .fdChkMatch b else .fdChkMismatch b)
      else .ok (.fdBadState st b) := by
  have hp : fdRows = [
      ⟨fdKey stIdle sync1, 0x7FF#11, fun _ => true, fun _ => .fdIdleSync1⟩,
      ⟨fdKey stIdle 0#8, 0x700#11, fun _ => true, fun k => .fdIdleOther (keyByte k)⟩,
      ⟨fdKey stSawSync1 sync2, 0x7FF#11, fun _ => true, fun _ => .fdSawSync1Sync2⟩,
      ⟨fdKey stSawSync1 0#8, 0x700#11, fun _ => true, fun k => .fdSawSync1Other (keyByte k)⟩,
      ⟨fdKey stReadLen 0#8, 0x7FF#11, fun _ => true, fun _ => .fdLenZero⟩,
      ⟨fdKey stReadLen 0#8, 0x700#11, fun _ => true, fun k => .fdLenNonzero (keyByte k)⟩,
      ⟨fdKey stReadPayload 0#8, 0x700#11, fun g => g.more, fun k => .fdPayloadMore (keyByte k)⟩,
      ⟨fdKey stReadPayload 0#8, 0x700#11, fun g => g.last, fun k => .fdPayloadLast (keyByte k)⟩,
      ⟨fdKey stReadChecksum 0#8, 0x700#11, fun g => g.chkEq, fun k => .fdChkMatch (keyByte k)⟩,
      ⟨fdKey stReadChecksum 0#8, 0x700#11, fun g => !g.chkEq, fun k => .fdChkMismatch (keyByte k)⟩,
      ⟨fdKey 4#3 0#8, 0x400#11, fun _ => true, fun k => .fdBadState (keyState k) (keyByte k)⟩] := rfl
  unfold decodeFd
  rw [hp]
  simp only [List.find?, FdRow.applies, fdKey_full, fdKey_state, fdKey_bad]
  obtain ⟨gm, gl, gc⟩ := g
  have hst : st = 0#3 ∨ st = 1#3 ∨ st = 2#3 ∨ st = 3#3 ∨ st = 4#3 ∨ st = 5#3 ∨ st = 6#3 ∨ st = 7#3 := by
    revert st; decide
  rcases hst with rfl | rfl | rfl | rfl | rfl | rfl | rfl | rfl
  · by_cases h : b = sync1 <;> simp [stIdle, h]
  · by_cases h : b = sync2 <;> simp [stIdle, stSawSync1, h]
  · by_cases h : b = 0#8 <;> simp [stIdle, stSawSync1, stReadLen, h]
  · cases gm <;> cases gl <;> simp [stIdle, stSawSync1, stReadLen, stReadPayload, stReadChecksum]
  · cases gc <;> simp [stIdle, stSawSync1, stReadLen, stReadPayload, stReadChecksum]
  · simp [stIdle, stSawSync1, stReadLen, stReadPayload, stReadChecksum]
  · simp [stIdle, stSawSync1, stReadLen, stReadPayload, stReadChecksum]
  · simp [stIdle, stSawSync1, stReadLen, stReadPayload, stReadChecksum]

/-- A bit of an address is a bit of the byte of R81 it stands in. -/
theorem getLsbD_addrOfBytes (hi mid lo : Byte) (i : Nat) :
    (addrOfBytes hi mid lo).getLsbD i =
      if i < 8 then lo.getLsbD i else if i - 8 < 8 then mid.getLsbD (i - 8) else hi.getLsbD (i - 8 - 8) := by
  refine (BitVec.getLsbD_append (i := i)).trans ?_
  split
  · rfl
  · exact BitVec.getLsbD_append (i := i - 8)

/-- The address bytes of R81 give the address back. -/
theorem addrOfBytes_addrBytes (a : Addr) :
    addrOfBytes (a.extractLsb' 16 8) (a.extractLsb' 8 8) (a.extractLsb' 0 8) = a := by
  apply BitVec.eq_of_getLsbD_eq
  intro i hi
  simp only [getLsbD_addrOfBytes, BitVec.getLsbD_extractLsb']
  split_ifs
  · simp_all
  · simp [show i - 8 < 8 by omega, show 8 + (i - 8) = i by omega]
  · simp [show i - 8 - 8 < 8 by omega, show 16 + (i - 8 - 8) = i by omega]

/-- The address of three bytes goes out as those bytes. -/
theorem addrBytes_addrOfBytes (hi mid lo : Byte) : addrBytes (addrOfBytes hi mid lo) = [hi, mid, lo] := by
  simp only [addrBytes, List.cons.injEq, and_true]
  refine ⟨?_, ?_, ?_⟩ <;>
    (apply BitVec.eq_of_getLsbD_eq
     intro i hi
     simp only [BitVec.getLsbD_extractLsb', getLsbD_addrOfBytes, hi, decide_true, Bool.true_and])
  · simp [show ¬ 16 + i < 8 by omega, show ¬ 16 + i - 8 < 8 by omega, show 16 + i - 8 - 8 = i by omega]
  · simp [show ¬ 8 + i < 8 by omega, show 8 + i - 8 = i by omega, hi]
  · simp [hi]

/-- BF's port word selects R74's row. -/
theorem decodeBf_ports (p q : Bool) (b : Byte) :
    decodeBf (BitVec.ofBool p ++ BitVec.ofBool q) b =
      if p then (if q then .bfPushPop b else .bfPush b) else (if q then .bfPop else .bfNop) := by
  cases p <;> cases q <;> rfl

end Sys2Proof
end

