-- ==== Sys2Proof/Laws/State.lean ====
section
/-! SUPPORT. Laws/State.lean: one lemma for each field of State under each of the updates the meanings are made of, so that
no proof unfolds a record update. -/

namespace Sys2Proof.Machine

@[simp] theorem setBf_cfg (s : State) (u : BfState) : (s.setBf u).cfg = s.cfg := rfl
@[simp] theorem setBf_wiring (s : State) (u : BfState) : (s.setBf u).wiring = s.wiring := rfl
@[simp] theorem setBf_bf (s : State) (u : BfState) : (s.setBf u).bf = u := rfl
@[simp] theorem setBf_fd (s : State) (u : BfState) : (s.setBf u).fd = s.fd := rfl
@[simp] theorem setBf_ne (s : State) (u : BfState) : (s.setBf u).ne = s.ne := rfl
@[simp] theorem setBf_inputs (s : State) (u : BfState) : (s.setBf u).inputs = s.inputs := rfl
@[simp] theorem setBf_now (s : State) (u : BfState) : (s.setBf u).now = s.now := rfl
@[simp] theorem setBf_bus (s : State) (u : BfState) : (s.setBf u).bus = s.bus := rfl
@[simp] theorem setBf_tickSince (s : State) (u : BfState) : (s.setBf u).tickSince = s.tickSince := rfl
@[simp] theorem setBf_epoch (s : State) (u : BfState) : (s.setBf u).epoch = s.epoch := rfl
@[simp] theorem setBf_out (s : State) (u : BfState) : (s.setBf u).out = s.out := rfl

@[simp] theorem setFd_cfg (s : State) (u : FdState) : (s.setFd u).cfg = s.cfg := rfl
@[simp] theorem setFd_wiring (s : State) (u : FdState) : (s.setFd u).wiring = s.wiring := rfl
@[simp] theorem setFd_bf (s : State) (u : FdState) : (s.setFd u).bf = s.bf := rfl
@[simp] theorem setFd_fd (s : State) (u : FdState) : (s.setFd u).fd = u := rfl
@[simp] theorem setFd_ne (s : State) (u : FdState) : (s.setFd u).ne = s.ne := rfl
@[simp] theorem setFd_inputs (s : State) (u : FdState) : (s.setFd u).inputs = s.inputs := rfl
@[simp] theorem setFd_now (s : State) (u : FdState) : (s.setFd u).now = s.now := rfl
@[simp] theorem setFd_bus (s : State) (u : FdState) : (s.setFd u).bus = s.bus := rfl
@[simp] theorem setFd_tickSince (s : State) (u : FdState) : (s.setFd u).tickSince = s.tickSince := rfl
@[simp] theorem setFd_epoch (s : State) (u : FdState) : (s.setFd u).epoch = s.epoch := rfl
@[simp] theorem setFd_out (s : State) (u : FdState) : (s.setFd u).out = s.out := rfl

@[simp] theorem setNe_cfg (s : State) (u : NeState) : (s.setNe u).cfg = s.cfg := rfl
@[simp] theorem setNe_wiring (s : State) (u : NeState) : (s.setNe u).wiring = s.wiring := rfl
@[simp] theorem setNe_bf (s : State) (u : NeState) : (s.setNe u).bf = s.bf := rfl
@[simp] theorem setNe_fd (s : State) (u : NeState) : (s.setNe u).fd = s.fd := rfl
@[simp] theorem setNe_ne (s : State) (u : NeState) : (s.setNe u).ne = u := rfl
@[simp] theorem setNe_inputs (s : State) (u : NeState) : (s.setNe u).inputs = s.inputs := rfl
@[simp] theorem setNe_now (s : State) (u : NeState) : (s.setNe u).now = s.now := rfl
@[simp] theorem setNe_bus (s : State) (u : NeState) : (s.setNe u).bus = s.bus := rfl
@[simp] theorem setNe_tickSince (s : State) (u : NeState) : (s.setNe u).tickSince = s.tickSince := rfl
@[simp] theorem setNe_epoch (s : State) (u : NeState) : (s.setNe u).epoch = s.epoch := rfl
@[simp] theorem setNe_out (s : State) (u : NeState) : (s.setNe u).out = s.out := rfl

@[simp] theorem setOut_cfg (s : State) (u : Outputs) : (s.setOut u).cfg = s.cfg := rfl
@[simp] theorem setOut_wiring (s : State) (u : Outputs) : (s.setOut u).wiring = s.wiring := rfl
@[simp] theorem setOut_bf (s : State) (u : Outputs) : (s.setOut u).bf = s.bf := rfl
@[simp] theorem setOut_fd (s : State) (u : Outputs) : (s.setOut u).fd = s.fd := rfl
@[simp] theorem setOut_ne (s : State) (u : Outputs) : (s.setOut u).ne = s.ne := rfl
@[simp] theorem setOut_inputs (s : State) (u : Outputs) : (s.setOut u).inputs = s.inputs := rfl
@[simp] theorem setOut_now (s : State) (u : Outputs) : (s.setOut u).now = s.now := rfl
@[simp] theorem setOut_bus (s : State) (u : Outputs) : (s.setOut u).bus = s.bus := rfl
@[simp] theorem setOut_tickSince (s : State) (u : Outputs) : (s.setOut u).tickSince = s.tickSince := rfl
@[simp] theorem setOut_epoch (s : State) (u : Outputs) : (s.setOut u).epoch = s.epoch := rfl
@[simp] theorem setOut_out (s : State) (u : Outputs) : (s.setOut u).out = u := rfl

/-! A unit's register writes leave the rest of State alone. -/

@[simp] theorem neGoto_cfg (pos : NePos) (k : Nat) (s : State) : (neGoto pos k s).cfg = s.cfg := rfl
@[simp] theorem neGoto_wiring (pos : NePos) (k : Nat) (s : State) : (neGoto pos k s).wiring = s.wiring := rfl
@[simp] theorem neGoto_bf (pos : NePos) (k : Nat) (s : State) : (neGoto pos k s).bf = s.bf := rfl
@[simp] theorem neGoto_fd (pos : NePos) (k : Nat) (s : State) : (neGoto pos k s).fd = s.fd := rfl
@[simp] theorem neGoto_inputs (pos : NePos) (k : Nat) (s : State) : (neGoto pos k s).inputs = s.inputs := rfl
@[simp] theorem neGoto_now (pos : NePos) (k : Nat) (s : State) : (neGoto pos k s).now = s.now := rfl
@[simp] theorem neGoto_bus (pos : NePos) (k : Nat) (s : State) : (neGoto pos k s).bus = s.bus := rfl
@[simp] theorem neGoto_tickSince (pos : NePos) (k : Nat) (s : State) : (neGoto pos k s).tickSince = s.tickSince := rfl
@[simp] theorem neGoto_epoch (pos : NePos) (k : Nat) (s : State) : (neGoto pos k s).epoch = s.epoch := rfl
@[simp] theorem neGoto_out (pos : NePos) (k : Nat) (s : State) : (neGoto pos k s).out = s.out := rfl

@[simp] theorem neFinish_cfg (r : BitVec 3) (s : State) : (neFinish r s).cfg = s.cfg := rfl
@[simp] theorem neFinish_wiring (r : BitVec 3) (s : State) : (neFinish r s).wiring = s.wiring := rfl
@[simp] theorem neFinish_bf (r : BitVec 3) (s : State) : (neFinish r s).bf = s.bf := rfl
@[simp] theorem neFinish_fd (r : BitVec 3) (s : State) : (neFinish r s).fd = s.fd := rfl
@[simp] theorem neFinish_inputs (r : BitVec 3) (s : State) : (neFinish r s).inputs = s.inputs := rfl
@[simp] theorem neFinish_now (r : BitVec 3) (s : State) : (neFinish r s).now = s.now := rfl
@[simp] theorem neFinish_bus (r : BitVec 3) (s : State) : (neFinish r s).bus = s.bus := rfl
@[simp] theorem neFinish_tickSince (r : BitVec 3) (s : State) : (neFinish r s).tickSince = s.tickSince := rfl
@[simp] theorem neFinish_epoch (r : BitVec 3) (s : State) : (neFinish r s).epoch = s.epoch := rfl
@[simp] theorem neFinish_out (r : BitVec 3) (s : State) : (neFinish r s).out = s.out := rfl

@[simp] theorem fdGoto_cfg (code : BitVec 3) (s : State) : (fdGoto code s).cfg = s.cfg := rfl
@[simp] theorem fdGoto_wiring (code : BitVec 3) (s : State) : (fdGoto code s).wiring = s.wiring := rfl
@[simp] theorem fdGoto_bf (code : BitVec 3) (s : State) : (fdGoto code s).bf = s.bf := rfl
@[simp] theorem fdGoto_ne (code : BitVec 3) (s : State) : (fdGoto code s).ne = s.ne := rfl
@[simp] theorem fdGoto_inputs (code : BitVec 3) (s : State) : (fdGoto code s).inputs = s.inputs := rfl
@[simp] theorem fdGoto_now (code : BitVec 3) (s : State) : (fdGoto code s).now = s.now := rfl
@[simp] theorem fdGoto_bus (code : BitVec 3) (s : State) : (fdGoto code s).bus = s.bus := rfl
@[simp] theorem fdGoto_tickSince (code : BitVec 3) (s : State) : (fdGoto code s).tickSince = s.tickSince := rfl
@[simp] theorem fdGoto_epoch (code : BitVec 3) (s : State) : (fdGoto code s).epoch = s.epoch := rfl
@[simp] theorem fdGoto_out (code : BitVec 3) (s : State) : (fdGoto code s).out = s.out := rfl

@[simp] theorem fdStartPayload_cfg (n : BitVec 11) (s : State) : (fdStartPayload n s).cfg = s.cfg := rfl
@[simp] theorem fdStartPayload_wiring (n : BitVec 11) (s : State) : (fdStartPayload n s).wiring = s.wiring := rfl
@[simp] theorem fdStartPayload_bf (n : BitVec 11) (s : State) : (fdStartPayload n s).bf = s.bf := rfl
@[simp] theorem fdStartPayload_ne (n : BitVec 11) (s : State) : (fdStartPayload n s).ne = s.ne := rfl
@[simp] theorem fdStartPayload_inputs (n : BitVec 11) (s : State) : (fdStartPayload n s).inputs = s.inputs := rfl
@[simp] theorem fdStartPayload_now (n : BitVec 11) (s : State) : (fdStartPayload n s).now = s.now := rfl
@[simp] theorem fdStartPayload_bus (n : BitVec 11) (s : State) : (fdStartPayload n s).bus = s.bus := rfl
@[simp] theorem fdStartPayload_tickSince (n : BitVec 11) (s : State) : (fdStartPayload n s).tickSince = s.tickSince := rfl
@[simp] theorem fdStartPayload_epoch (n : BitVec 11) (s : State) : (fdStartPayload n s).epoch = s.epoch := rfl
@[simp] theorem fdStartPayload_out (n : BitVec 11) (s : State) : (fdStartPayload n s).out = s.out := rfl

@[simp] theorem neGoto_ne_phase (pos : NePos) (k : Nat) (s : State) : (neGoto pos k s).ne.phase = .run pos k := rfl
@[simp] theorem neGoto_ne_op (pos : NePos) (k : Nat) (s : State) : (neGoto pos k s).ne.op = s.ne.op := rfl
@[simp] theorem neGoto_ne_addr (pos : NePos) (k : Nat) (s : State) : (neGoto pos k s).ne.addr = s.ne.addr := rfl
@[simp] theorem neGoto_ne_rlen (pos : NePos) (k : Nat) (s : State) : (neGoto pos k s).ne.rlen = s.ne.rlen := rfl
@[simp] theorem neGoto_ne_wdata (pos : NePos) (k : Nat) (s : State) : (neGoto pos k s).ne.wdata = s.ne.wdata := rfl
@[simp] theorem neGoto_ne_curAddr (pos : NePos) (k : Nat) (s : State) : (neGoto pos k s).ne.curAddr = s.ne.curAddr := rfl
@[simp] theorem neGoto_ne_off (pos : NePos) (k : Nat) (s : State) : (neGoto pos k s).ne.off = s.ne.off := rfl
@[simp] theorem neGoto_ne_t0 (pos : NePos) (k : Nat) (s : State) : (neGoto pos k s).ne.t0 = s.ne.t0 := rfl
@[simp] theorem neGoto_ne_result (pos : NePos) (k : Nat) (s : State) : (neGoto pos k s).ne.result = s.ne.result := rfl
@[simp] theorem neGoto_ne_bytesDone (pos : NePos) (k : Nat) (s : State) : (neGoto pos k s).ne.bytesDone = s.ne.bytesDone := rfl
@[simp] theorem neGoto_ne_rdata (pos : NePos) (k : Nat) (s : State) : (neGoto pos k s).ne.rdata = s.ne.rdata := rfl
@[simp] theorem neGoto_ne_done (pos : NePos) (k : Nat) (s : State) : (neGoto pos k s).ne.done = false := rfl

@[simp] theorem neFinish_ne_phase (r : BitVec 3) (s : State) : (neFinish r s).ne.phase = .idle := rfl
@[simp] theorem neFinish_ne_op (r : BitVec 3) (s : State) : (neFinish r s).ne.op = s.ne.op := rfl
@[simp] theorem neFinish_ne_addr (r : BitVec 3) (s : State) : (neFinish r s).ne.addr = s.ne.addr := rfl
@[simp] theorem neFinish_ne_rlen (r : BitVec 3) (s : State) : (neFinish r s).ne.rlen = s.ne.rlen := rfl
@[simp] theorem neFinish_ne_wdata (r : BitVec 3) (s : State) : (neFinish r s).ne.wdata = s.ne.wdata := rfl
@[simp] theorem neFinish_ne_curAddr (r : BitVec 3) (s : State) : (neFinish r s).ne.curAddr = s.ne.curAddr := rfl
@[simp] theorem neFinish_ne_off (r : BitVec 3) (s : State) : (neFinish r s).ne.off = s.ne.off := rfl
@[simp] theorem neFinish_ne_t0 (r : BitVec 3) (s : State) : (neFinish r s).ne.t0 = s.ne.t0 := rfl
@[simp] theorem neFinish_ne_result (r : BitVec 3) (s : State) : (neFinish r s).ne.result = r := rfl
@[simp] theorem neFinish_ne_bytesDone (r : BitVec 3) (s : State) : (neFinish r s).ne.bytesDone = s.ne.bytesDone := rfl
@[simp] theorem neFinish_ne_rdata (r : BitVec 3) (s : State) : (neFinish r s).ne.rdata = s.ne.rdata := rfl
@[simp] theorem neFinish_ne_done (r : BitVec 3) (s : State) : (neFinish r s).ne.done = true := rfl

@[simp] theorem fdGoto_fd_st (code : BitVec 3) (s : State) : (fdGoto code s).fd.st = code := rfl
@[simp] theorem fdGoto_fd_len (code : BitVec 3) (s : State) : (fdGoto code s).fd.len = s.fd.len := rfl
@[simp] theorem fdGoto_fd_idx (code : BitVec 3) (s : State) : (fdGoto code s).fd.idx = s.fd.idx := rfl
@[simp] theorem fdGoto_fd_sum (code : BitVec 3) (s : State) : (fdGoto code s).fd.sum = s.fd.sum := rfl
@[simp] theorem fdGoto_fd_buf (code : BitVec 3) (s : State) : (fdGoto code s).fd.buf = s.fd.buf := rfl
@[simp] theorem fdGoto_fd_frameCnt (code : BitVec 3) (s : State) : (fdGoto code s).fd.frameCnt = s.fd.frameCnt := rfl
@[simp] theorem fdGoto_fd_chkErrCnt (code : BitVec 3) (s : State) : (fdGoto code s).fd.chkErrCnt = s.fd.chkErrCnt := rfl
@[simp] theorem fdGoto_fd_syncErrCnt (code : BitVec 3) (s : State) : (fdGoto code s).fd.syncErrCnt = s.fd.syncErrCnt := rfl

@[simp] theorem fdStartPayload_fd_st (n : BitVec 11) (s : State) : (fdStartPayload n s).fd.st = stReadPayload := rfl
@[simp] theorem fdStartPayload_fd_len (n : BitVec 11) (s : State) : (fdStartPayload n s).fd.len = n := rfl
@[simp] theorem fdStartPayload_fd_idx (n : BitVec 11) (s : State) : (fdStartPayload n s).fd.idx = 0#11 := rfl
@[simp] theorem fdStartPayload_fd_sum (n : BitVec 11) (s : State) : (fdStartPayload n s).fd.sum = 0#8 := rfl
@[simp] theorem fdStartPayload_fd_buf (n : BitVec 11) (s : State) : (fdStartPayload n s).fd.buf = s.fd.buf := rfl
@[simp] theorem fdStartPayload_fd_frameCnt (n : BitVec 11) (s : State) : (fdStartPayload n s).fd.frameCnt = s.fd.frameCnt := rfl
@[simp] theorem fdStartPayload_fd_chkErrCnt (n : BitVec 11) (s : State) : (fdStartPayload n s).fd.chkErrCnt = s.fd.chkErrCnt := rfl
@[simp] theorem fdStartPayload_fd_syncErrCnt (n : BitVec 11) (s : State) : (fdStartPayload n s).fd.syncErrCnt = s.fd.syncErrCnt := rfl

/-! Sampling a cycle's inputs. -/

@[simp] theorem sample_cfg (c : CycleIn) (s : State) : (sample c s).cfg = s.cfg := rfl
@[simp] theorem sample_wiring (c : CycleIn) (s : State) : (sample c s).wiring = s.wiring := rfl
@[simp] theorem sample_bf (c : CycleIn) (s : State) : (sample c s).bf = s.bf := rfl
@[simp] theorem sample_fd (c : CycleIn) (s : State) : (sample c s).fd = s.fd := rfl
@[simp] theorem sample_inputs (c : CycleIn) (s : State) : (sample c s).inputs = s.inputs.tail := rfl
@[simp] theorem sample_now (c : CycleIn) (s : State) : (sample c s).now = (s.now + c.tickAdv) % 2 ^ s.cfg.tickW := rfl
@[simp] theorem sample_bus (c : CycleIn) (s : State) : (sample c s).bus = c.bus := rfl
@[simp] theorem sample_tickSince (c : CycleIn) (s : State) : (sample c s).tickSince = s.tickSince + c.tickAdv := rfl
@[simp] theorem sample_epoch (c : CycleIn) (s : State) : (sample c s).epoch = s.epoch := rfl
@[simp] theorem sample_out (c : CycleIn) (s : State) : (sample c s).out = levelOutputs s c.fdRdAddr := rfl
@[simp] theorem sample_ne_phase (c : CycleIn) (s : State) : (sample c s).ne.phase = s.ne.phase := rfl
@[simp] theorem sample_ne_op (c : CycleIn) (s : State) : (sample c s).ne.op = s.ne.op := rfl
@[simp] theorem sample_ne_addr (c : CycleIn) (s : State) : (sample c s).ne.addr = s.ne.addr := rfl
@[simp] theorem sample_ne_rlen (c : CycleIn) (s : State) : (sample c s).ne.rlen = s.ne.rlen := rfl
@[simp] theorem sample_ne_wdata (c : CycleIn) (s : State) : (sample c s).ne.wdata = s.ne.wdata := rfl
@[simp] theorem sample_ne_curAddr (c : CycleIn) (s : State) : (sample c s).ne.curAddr = s.ne.curAddr := rfl
@[simp] theorem sample_ne_off (c : CycleIn) (s : State) : (sample c s).ne.off = s.ne.off := rfl
@[simp] theorem sample_ne_t0 (c : CycleIn) (s : State) : (sample c s).ne.t0 = s.ne.t0 := rfl
@[simp] theorem sample_ne_result (c : CycleIn) (s : State) : (sample c s).ne.result = s.ne.result := rfl
@[simp] theorem sample_ne_bytesDone (c : CycleIn) (s : State) : (sample c s).ne.bytesDone = s.ne.bytesDone := rfl
@[simp] theorem sample_ne_rdata (c : CycleIn) (s : State) : (sample c s).ne.rdata = s.ne.rdata := rfl
@[simp] theorem sample_ne_done (c : CycleIn) (s : State) : (sample c s).ne.done = false := rfl

/-! `andThen`. -/

@[simp] theorem andThen_next (s : State) (k : State → Result) : andThen (.next s) k = k s := rfl
@[simp] theorem andThen_fault (f : Fault) (k : State → Result) : andThen (.fault f) k = .fault f := rfl
@[simp] theorem andThen_refused (r : Refusal) (k : State → Result) : andThen (.refused r) k = .refused r := rfl

/-- A sequence answers next only when both parts do. -/
theorem andThen_eq_next (r : Result) (k : State → Result) (t : State) :
    andThen r k = .next t ↔ ∃ u, r = .next u ∧ k u = .next t := by
  cases r <;> simp [andThen]

/-- A sequence faults when its first part does, or its second part after a next state. -/
theorem andThen_eq_fault (r : Result) (k : State → Result) (f : Fault) :
    andThen r k = .fault f ↔ r = .fault f ∨ ∃ u, r = .next u ∧ k u = .fault f := by
  cases r <;> simp [andThen]

/-- A sequence is refused when its first part is, or its second part after a next state. -/
theorem andThen_eq_refused (r : Result) (k : State → Result) (e : Refusal) :
    andThen r k = .refused e ↔ r = .refused e ∨ ∃ u, r = .next u ∧ k u = .refused e := by
  cases r <;> simp [andThen]

end Sys2Proof.Machine
end

