-- ==== Sys2Proof/Laws/Memory.lean ====
section
/-! SUPPORT. Laws/Memory.lean: the storage arrays: a read after a write, and that every write keeps the canonical form. -/

namespace Sys2Proof.Machine

/-- A read after a write gives the byte written at its index, and what was there before at every other. -/
theorem read_write (m : Memory) (i j : Nat) (b : Byte) :
    Memory.read (Memory.write m i b) j = if j = i then some b else Memory.read m j := by
  induction m with
  | nil => simp [Memory.write, Memory.read, eq_comm]
  | cons x m ih =>
    obtain ⟨a, c⟩ := x
    unfold Memory.write
    rcases Nat.lt_trichotomy i a with h | rfl | h
    · simp [h, Memory.read, eq_comm]
    · by_cases hj : i = j
      · subst hj; simp [Memory.read]
      · simp [Memory.read, hj, Ne.symm hj]
    · simp only [show ¬ i < a by omega, show i ≠ a by omega, if_false, Memory.read, ih]
      by_cases ha : a = j
      · subst ha; simp [show a ≠ i by omega]
      · simp [ha]

/-- A read after a write at the index written. -/
theorem read_write_self (m : Memory) (i : Nat) (b : Byte) : Memory.read (Memory.write m i b) i = some b := by
  simp [read_write]

/-- A write leaves every other index alone. -/
theorem read_write_ne (m : Memory) {i j : Nat} (b : Byte) (h : j ≠ i) :
    Memory.read (Memory.write m i b) j = Memory.read m j := by
  simp [read_write, h]

/-- A cell of a written array was there before or is the one written. -/
theorem mem_write {m : Memory} {i : Nat} {b : Byte} {x : Host.Cell} (h : x ∈ Memory.write m i b) :
    x = (i, b) ∨ x ∈ m := by
  induction m with
  | nil => simpa [Memory.write] using h
  | cons y m ih =>
    obtain ⟨a, c⟩ := y
    unfold Memory.write at h
    split_ifs at h with h1 h2
    · simpa using h
    · simp only [List.mem_cons] at h ⊢; tauto
    · simp only [List.mem_cons] at h ⊢
      rcases h with h | h
      · tauto
      · have := ih h; tauto

/-- Writing keeps the indices strictly rising. -/
theorem write_wf {m : Memory} (h : Memory.wf m) (i : Nat) (b : Byte) : Memory.wf (Memory.write m i b) := by
  induction m with
  | nil => simp [Memory.write, Memory.wf]
  | cons y m ih =>
    obtain ⟨a, c⟩ := y
    rw [Memory.wf, List.pairwise_cons] at h
    unfold Memory.write
    split_ifs with h1 h2
    · refine List.pairwise_cons.2 ⟨fun z hz => ?_, List.pairwise_cons.2 h⟩
      rcases List.mem_cons.1 hz with rfl | hz
      · exact h1
      · exact h1.trans (h.1 z hz)
    · subst h2; exact List.pairwise_cons.2 h
    · refine List.pairwise_cons.2 ⟨fun z hz => ?_, ih h.2⟩
      rcases mem_write hz with rfl | hz
      · show a < i; omega
      · exact h.1 z hz

/-- Writing inside the array stays inside the array. -/
theorem write_within {m : Memory} {n i : Nat} (h : Memory.Within m n) (hi : i < n) (b : Byte) :
    Memory.Within (Memory.write m i b) n := by
  intro x hx
  rcases mem_write hx with rfl | hx
  · exact hi
  · exact h x hx

/-- The empty array of reset is in canonical form. -/
theorem nil_wf : Memory.wf [] := List.Pairwise.nil

end Sys2Proof.Machine
end

