-- ==== Sys2Proof/Laws/Ops.lean ====
section
/-! SUPPORT. Laws/Ops.lean: for each shared operation, everything it can do, said once: BF's cycle, FD's payload byte, a
request, an issued transaction, and how NE's sequence goes on from each position. -/

namespace Sys2Proof.Machine

/-! ### BF -/

/-- BF's cycle answers a next state exactly when the indices it uses name entries. -/
theorem bfCycle_eq_next {push : Option Byte} {pop : Bool} {s t : State} :
    bfCycle push pop s = .next t ↔
      fifoIndexBad s push pop = false ∧ t = (s.setBf (bfAfter s push pop)).setOut (bfOutputs s push pop) := by
  unfold bfCycle
  cases fifoIndexBad s push pop
  · simpa using eq_comm
  · simp

/-- BF's cycle is never refused. -/
theorem bfCycle_ne_refused (push : Option Byte) (pop : Bool) (s : State) (r : Refusal) : bfCycle push pop s ≠ .refused r := by
  unfold bfCycle
  split <;> simp

/-- BF's cycle only needs the index of an accepted pop and of an accepted push. -/
theorem fifoIndexBad_eq_false {push : Option Byte} {pop : Bool} {s : State} :
    fifoIndexBad s push pop = false ↔
      (s.popValid pop = true → s.bf.head < s.cfg.fifoDepth) ∧
      (s.pushAccepted push = true → s.bf.tail < s.cfg.fifoDepth) := by
  simp [fifoIndexBad, Bool.or_eq_false_iff]

@[simp] theorem pushAccepted_none (s : State) : s.pushAccepted none = false := rfl
@[simp] theorem pushAccepted_some (s : State) (b : Byte) :
    s.pushAccepted (some b) = decide (s.bf.count < s.cfg.fifoDepth) := rfl
@[simp] theorem pushRefused_none (s : State) : s.pushRefused none = false := rfl
@[simp] theorem pushRefused_some (s : State) (b : Byte) :
    s.pushRefused (some b) = !decide (s.bf.count < s.cfg.fifoDepth) := rfl
@[simp] theorem popValid_false (s : State) : s.popValid false = false := rfl
@[simp] theorem popValid_true (s : State) : s.popValid true = decide (0 < s.bf.count) := rfl

/-- BF's four rows are one cycle of the ring each (R102 to R105). -/
theorem exec_bfNop (s : State) : exec .bfNop s = bfCycle none false s := rfl
theorem exec_bfPush (b : Byte) (s : State) : exec (.bfPush b) s = bfCycle (some b) false s := rfl
theorem exec_bfPop (s : State) : exec .bfPop s = bfCycle none true s := rfl
theorem exec_bfPushPop (b : Byte) (s : State) : exec (.bfPushPop b) s = bfCycle (some b) true s := rfl

/-! ### FD -/

/-- A payload byte is taken exactly when `idx` names an entry of `Buf`. -/
theorem fdTakePayload_eq_next {b : Byte} {code : BitVec 3} {s t : State} :
    fdTakePayload b code s = .next t ↔
      s.fd.idx.toNat < maxFrame ∧ t = s.setFd { s.fd with
        buf := Memory.write s.fd.buf s.fd.idx.toNat b, idx := s.fd.idx + 1#11, sum := s.fd.sum + b, st := code } := by
  unfold fdTakePayload
  split
  · rename_i h; simpa [h] using eq_comm
  · rename_i h; simp [h]

theorem fdTakePayload_ne_refused (b : Byte) (code : BitVec 3) (s : State) (r : Refusal) :
    fdTakePayload b code s ≠ .refused r := by
  unfold fdTakePayload
  split <;> simp

/-! ### NE -/

/-- A request never faults. -/
theorem neRequest_ne_fault (pos : NePos) (a : Addr) (n : Nat) (w : List Byte) (s : State) (f : Fault) :
    neRequest pos a n w s ≠ .fault f := by
  unfold neRequest
  split_ifs <;> simp

/-- A request answers a next state when it is ignored, and when it is accepted. -/
theorem neRequest_eq_next {pos : NePos} {a : Addr} {n : Nat} {w : List Byte} {s t : State} :
    neRequest pos a n w s = .next t ↔
      (s.ne.phase ≠ .idle ∧ t = s) ∨
      (s.ne.phase = .idle ∧ s.cfg.LenFits n ∧ (pos = .wrLoop → w.length = n) ∧
        t = s.setNe (neAccepted pos a n w s.ne)) := by
  unfold neRequest State.neReady
  by_cases h : s.ne.phase = .idle
  · simp only [h, decide_true, if_true, ne_eq, not_true_eq_false, false_and, false_or, true_and]
    split_ifs with h1 h2
    · simp [h2]
    · have hw : pos = .wrLoop → w.length = n := fun hp => by_contra fun hn => h2 ⟨hp, hn⟩
      constructor
      · intro hs; cases hs; exact ⟨h1, hw, rfl⟩
      · rintro ⟨-, -, rfl⟩; rfl
    · simp [h1]
  · simp [h, eq_comm]

/-! A request, case by case (R151, R226, R232). -/

theorem neRequest_ignored {s : State} (h : s.ne.phase ≠ .idle) (pos : NePos) (a : Addr) (n : Nat) (w : List Byte) :
    neRequest pos a n w s = .next s := by
  simp [neRequest, State.neReady, h]

theorem neRequest_width {s : State} {n : Nat} (h : s.ne.phase = .idle) (hn : ¬ s.cfg.LenFits n) (pos : NePos) (a : Addr)
    (w : List Byte) : neRequest pos a n w s = .refused .lengthFieldWidth := by
  unfold neRequest State.neReady
  rw [if_pos (by simp [h]), if_neg hn]

theorem neRequest_mismatch {s : State} {n : Nat} {w : List Byte} (h : s.ne.phase = .idle) (hn : s.cfg.LenFits n)
    (hw : w.length ≠ n) (a : Addr) : neRequest .wrLoop a n w s = .refused .writeLengthMismatch := by
  unfold neRequest State.neReady
  rw [if_pos (by simp [h]), if_pos hn, if_pos ⟨rfl, hw⟩]

theorem neRequest_accepted {s : State} {pos : NePos} {n : Nat} {w : List Byte} (h : s.ne.phase = .idle)
    (hn : s.cfg.LenFits n) (hw : pos = .wrLoop → w.length = n) (a : Addr) :
    neRequest pos a n w s = .next (s.setNe (neAccepted pos a n w s.ne)) :=
  neRequest_eq_next.2 (.inr ⟨h, hn, hw, rfl⟩)

/-- How NE's sequence goes on from a position, its transaction answered: what the NOR rows do, read position by position
(R153 to R162). -/
def advance (pos : NePos) (k : Nat) (ans : BusAnswer) (s : State) : Result :=
  match pos with
  | .resetEnable => sendThen ans (neGoto .resetMemory 0) s
  | .resetMemory => sendThen ans (neFinish resOk) s
  | .status => .next (statusDone ans s)
  | .weWren => sendThen ans (neGoto .wePoll 0) s
  | .wePoll => pollStep s.cfg.tWe .wePoll k ans s
  | .read => .next (readDone ans s)
  | .wrLoop => sendThen ans (neGoto .wrWePoll 0) s
  | .wrWePoll => pollStep s.cfg.tWe .wrWePoll k ans s
  | .wrProgram => sendThen ans (neGoto .wrPoll 0) s
  | .wrPoll => pollStep s.cfg.tPp .wrPoll k ans s
  | .seWren => sendThen ans (neGoto .seWePoll 0) s
  | .seWePoll => pollStep s.cfg.tWe .seWePoll k ans s
  | .seErase => sendThen ans (neGoto .sePoll 0) s
  | .sePoll => pollStep s.cfg.tSe .sePoll k ans s
  | .ceWren => sendThen ans (neGoto .ceWePoll 0) s
  | .ceWePoll => pollStep s.cfg.tWe .ceWePoll k ans s
  | .ceErase => sendThen ans (neGoto .cePoll 0) s
  | .cePoll => pollStep s.cfg.tCe .cePoll k ans s
  | .illegal => .fault .norNotPending

/-- The state with a row's transaction on the bus. -/
def issued (i : Instr) (s : State) : State := s.setOut { s.out with busTx := norTx s.cfg i }

@[simp] theorem issued_cfg (i : Instr) (s : State) : (issued i s).cfg = s.cfg := rfl
@[simp] theorem issued_wiring (i : Instr) (s : State) : (issued i s).wiring = s.wiring := rfl
@[simp] theorem issued_bf (i : Instr) (s : State) : (issued i s).bf = s.bf := rfl
@[simp] theorem issued_fd (i : Instr) (s : State) : (issued i s).fd = s.fd := rfl
@[simp] theorem issued_ne (i : Instr) (s : State) : (issued i s).ne = s.ne := rfl
@[simp] theorem issued_inputs (i : Instr) (s : State) : (issued i s).inputs = s.inputs := rfl
@[simp] theorem issued_now (i : Instr) (s : State) : (issued i s).now = s.now := rfl
@[simp] theorem issued_bus (i : Instr) (s : State) : (issued i s).bus = s.bus := rfl
@[simp] theorem issued_tickSince (i : Instr) (s : State) : (issued i s).tickSince = s.tickSince := rfl
@[simp] theorem issued_epoch (i : Instr) (s : State) : (issued i s).epoch = s.epoch := rfl
@[simp] theorem issued_out (i : Instr) (s : State) : (issued i s).out = { s.out with busTx := norTx s.cfg i } := rfl

/-- The transaction pending at a position is a NOR row. -/
theorem nePending_isNor {ne : NeState} {pos : NePos} {i : Instr} (h : nePending ne pos = some i) (c : Config) :
    ∃ t, norTx c i = some t := by
  cases pos <;> simp only [nePending, Option.some.injEq, reduceCtorEq] at h <;>
    first
      | (subst h; exact ⟨_, rfl⟩)
      | (split at h <;> simp only [Option.some.injEq, reduceCtorEq] at h; subst h; exact ⟨_, rfl⟩)

/-- exec of the transaction NE's sequence is at, when the bus answers it, is how the sequence goes on. -/
theorem exec_pending {s : State} {pos : NePos} {k : Nat} {i : Instr} {a : BusAnswer} (hp : s.ne.phase = .run pos k)
    (hi : nePending s.ne pos = some i) (hb : s.bus = some a) (hf : answerFits (rxCount s.cfg i) a = true) :
    exec i s = advance pos k a (issued i s) := by
  cases pos <;> simp only [nePending, Option.some.injEq, reduceCtorEq] at hi <;>
    first
      | (subst hi
         simp [exec, execNorRsten, execNorRst, execNorRdsr, execNorWren, execNorRead, execNorPp, execNorSe, execNorCe,
           norIssue, hp, hb, hf, nePending, pollBudget, pollAfterWren, advance, issued])
      | (split at hi <;> simp only [Option.some.injEq, reduceCtorEq] at hi
         subst hi
         simp_all [exec, execNorWren, norIssue, nePending, pollAfterWren, advance, issued])

/-- exec of the transaction NE's sequence is at changes nothing in a cycle in which NE's step does not end. -/
theorem exec_pending_held {s : State} {pos : NePos} {k : Nat} {i : Instr} (hp : s.ne.phase = .run pos k)
    (hi : nePending s.ne pos = some i) (hb : s.bus = none) : exec i s = .next s := by
  obtain ⟨t, ht⟩ := nePending_isNor hi s.cfg
  cases i <;> simp only [norTx, encode, reduceCtorEq] at ht <;>
    simp [exec, execNorRsten, execNorRst, execNorRdsr, execNorWren, execNorRead, execNorPp, execNorSe, execNorCe,
      norIssue, hp, hb, hi]

/-- exec of the transaction NE's sequence is at refuses an answer of another byte count. -/
theorem exec_pending_misfit {s : State} {pos : NePos} {k : Nat} {i : Instr} {a : BusAnswer} (hp : s.ne.phase = .run pos k)
    (hi : nePending s.ne pos = some i) (hb : s.bus = some a) (hf : answerFits (rxCount s.cfg i) a = false) :
    exec i s = .refused .busAnswerLength := by
  obtain ⟨t, ht⟩ := nePending_isNor hi s.cfg
  cases i <;> simp only [norTx, encode, reduceCtorEq] at ht <;>
    simp [exec, execNorRsten, execNorRst, execNorRdsr, execNorWren, execNorRead, execNorPp, execNorSe, execNorCe,
      norIssue, hp, hb, hi, hf]

/-- A NOR row that answers a next state was pending; either NE's step does not end, or the sequence goes on. -/
theorem exec_nor_next {i : Instr} {s t : State} (hn : norTx s.cfg i ≠ none) (h : exec i s = .next t) :
    ∃ pos k, s.ne.phase = .run pos k ∧ nePending s.ne pos = some i ∧
      ((s.bus = none ∧ t = s) ∨
        ∃ a, s.bus = some a ∧ answerFits (rxCount s.cfg i) a = true ∧ advance pos k a (issued i s) = .next t) := by
  have hex : ∃ pos k, s.ne.phase = .run pos k ∧ nePending s.ne pos = some i := by
    cases hp : s.ne.phase with
    | idle =>
      exfalso
      cases i <;> simp [norTx, encode] at hn <;>
        simp [exec, execNorRsten, execNorRst, execNorRdsr, execNorWren, execNorRead, execNorPp, execNorSe, execNorCe,
          norIssue, hp] at h
    | run pos k =>
      refine ⟨pos, k, rfl, ?_⟩
      by_contra hi
      cases i <;> simp [norTx, encode] at hn <;>
        simp [exec, execNorRsten, execNorRst, execNorRdsr, execNorWren, execNorRead, execNorPp, execNorSe, execNorCe,
          norIssue, hp, hi] at h
  obtain ⟨pos, k, hp, hi⟩ := hex
  refine ⟨pos, k, hp, hi, ?_⟩
  cases hb : s.bus with
  | none =>
    left
    rw [exec_pending_held hp hi hb] at h
    simpa [eq_comm] using h
  | some a =>
    right
    refine ⟨a, rfl, ?_⟩
    cases hf : answerFits (rxCount s.cfg i) a with
    | true => exact ⟨rfl, by rw [← exec_pending hp hi hb hf]; exact h⟩
    | false => rw [exec_pending_misfit hp hi hb hf] at h; cases h

end Sys2Proof.Machine
end

