-- ==== Sys2Proof/Laws/Engine.lean ====
section
/-! SUPPORT. Laws/Engine.lean: where NE's sequence goes on to, and that going on writes NE's registers alone. -/

namespace Sys2Proof.Machine

@[simp] theorem sampleT0_cfg (k : Nat) (s : State) : (sampleT0 k s).cfg = s.cfg := by unfold sampleT0; split <;> rfl
@[simp] theorem sampleT0_now (k : Nat) (s : State) : (sampleT0 k s).now = s.now := by unfold sampleT0; split <;> rfl
@[simp] theorem sampleT0_tickSince (k : Nat) (s : State) : (sampleT0 k s).tickSince = s.tickSince := by
  unfold sampleT0; split <;> rfl

/-- `t0` is sampled at the first poll only; no other register is written (R153). -/
theorem sampleT0_eq (k : Nat) (s : State) :
    sampleT0 k s = s.setNe { s.ne with t0 := if k = 0 then s.now else s.ne.t0 } := by
  unfold sampleT0
  split <;> rfl

/-- `finish` writes NE's registers alone. -/
theorem neFinish_eq (r : BitVec 3) (s : State) :
    neFinish r s = { s with ne := { s.ne with result := r, done := true, phase := .idle } } := rfl

/-- Ending an NE step without a `finish` writes NE's registers alone. -/
theorem neGoto_eq (pos : NePos) (k : Nat) (s : State) :
    neGoto pos k s = { s with ne := { s.ne with phase := .run pos k, done := false } } := rfl

/-- Completing a chunk writes NE's registers alone. -/
theorem chunkDone_only (s : State) : ∃ ne, chunkDone s = { s with ne := ne } := by
  simp only [chunkDone]
  split_ifs <;> exact ⟨_, rfl⟩

/-- Passing a busy-poll writes NE's registers alone. -/
theorem pollPassed_only (pos : NePos) (s : State) : ∃ ne, pollPassed pos s = { s with ne := ne } := by
  cases pos <;> first | exact ⟨_, rfl⟩ | exact chunkDone_only s

/-- A poll writes NE's registers and the record of the tick since the last poll. -/
theorem pollStep_only {b : Nat} {pos : NePos} {k : Nat} {ans : BusAnswer} {s t : State}
    (h : pollStep b pos k ans s = .next t) : ∃ ne ts, t = { s with ne := ne, tickSince := ts } := by
  unfold pollStep at h
  cases ans with
  | err => cases h; rw [sampleT0_eq]; exact ⟨_, _, rfl⟩
  | ok rx =>
    simp only at h
    split_ifs at h
    · cases h; rw [sampleT0_eq]; exact ⟨_, _, rfl⟩
    · cases h; rw [sampleT0_eq]; exact ⟨_, _, rfl⟩
    · cases h
      obtain ⟨ne, hne⟩ := pollPassed_only pos (sampleT0 k s)
      rw [hne, sampleT0_eq]; exact ⟨_, _, rfl⟩

@[simp] theorem statusByte_cons (z : Byte) (l : List Byte) : statusByte (z :: l) = z := rfl

/-! A poll, answer by answer (R153). -/

/-- `t0` as a poll compares it: the tick itself at the first poll (R153). -/
def pollT0 (k : Nat) (s : State) : Nat := if k = 0 then s.now else s.ne.t0

@[simp] theorem sampleT0_ne_t0 (k : Nat) (s : State) : (sampleT0 k s).ne.t0 = pollT0 k s := by
  unfold sampleT0 pollT0; split <;> rfl

theorem pollStep_err (b : Nat) (pos : NePos) (k : Nat) (s : State) :
    pollStep b pos k .err s = .next (neFinish resTransferError (sampleT0 k s)) := rfl

theorem pollStep_free {s : State} {rx : List Byte} (h : busy s.cfg (statusByte rx) = false) (b : Nat) (pos : NePos)
    (k : Nat) : pollStep b pos k (.ok rx) s = .next (pollPassed pos (sampleT0 k s)) := by
  simp [pollStep, h]

theorem pollStep_duty {s : State} {rx : List Byte} {k : Nat} (h : busy s.cfg (statusByte rx) = true) (hk : k ≠ 0)
    (hd : 2 ^ s.cfg.tickW ≤ s.tickSince) (b : Nat) (pos : NePos) : pollStep b pos k (.ok rx) s = .refused .tickDuty := by
  simp [pollStep, h, hk, hd]

theorem pollStep_timeout {s : State} {rx : List Byte} {k b : Nat} (h : busy s.cfg (statusByte rx) = true)
    (hd : k = 0 ∨ s.tickSince < 2 ^ s.cfg.tickW) (hb : b ≤ elapsed s.cfg s.now (pollT0 k s)) (pos : NePos) :
    pollStep b pos k (.ok rx) s = .next (neFinish resTimeout (sampleT0 k s)) := by
  have : ¬ (¬ k = 0 ∧ 2 ^ s.cfg.tickW ≤ s.tickSince) := by omega
  simp [pollStep, h, this, hb]

theorem pollStep_again {s : State} {rx : List Byte} {k b : Nat} (h : busy s.cfg (statusByte rx) = true)
    (hd : k = 0 ∨ s.tickSince < 2 ^ s.cfg.tickW) (hb : elapsed s.cfg s.now (pollT0 k s) < b) (pos : NePos) :
    pollStep b pos k (.ok rx) s = .next (neGoto pos (k + 1) { sampleT0 k s with tickSince := 0 }) := by
  have : ¬ (¬ k = 0 ∧ 2 ^ s.cfg.tickW ≤ s.tickSince) := by omega
  simp [pollStep, h, this, hb]

/-- A poll never faults. -/
theorem pollStep_ne_fault (b : Nat) (pos : NePos) (k : Nat) (ans : BusAnswer) (s : State) (f : Fault) :
    pollStep b pos k ans s ≠ .fault f := by
  unfold pollStep
  cases ans with
  | err => simp
  | ok rx => simp only; split_ifs <;> simp

/-- A poll is refused only when the tick broke its duty (R229). -/
theorem pollStep_refused {b : Nat} {pos : NePos} {k : Nat} {ans : BusAnswer} {s : State} {r : Refusal}
    (h : pollStep b pos k ans s = .refused r) : r = .tickDuty ∧ 2 ^ s.cfg.tickW ≤ s.tickSince := by
  unfold pollStep at h
  cases ans with
  | err => cases h
  | ok rx =>
    simp only at h
    split_ifs at h with h1 h2
    cases h
    exact ⟨rfl, by simpa using h2.2⟩

/-- Sending a transaction that receives nothing ends the operation or goes on. -/
theorem sendThen_eq (ans : BusAnswer) (next : State → State) (s : State) :
    sendThen ans next s = .next (match ans with | .err => neFinish resTransferError s | .ok _ => next s) := by
  cases ans <;> rfl

/-- However NE's sequence goes on, it writes NE's registers and the record of the tick since the last poll alone. -/
theorem advance_only {pos : NePos} {k : Nat} {ans : BusAnswer} {s t : State} (h : advance pos k ans s = .next t) :
    ∃ ne ts, t = { s with ne := ne, tickSince := ts } := by
  cases pos <;> simp only [advance] at h <;> first
    | exact pollStep_only h
    | (cases ans <;> cases h <;> exact ⟨_, _, rfl⟩)

/-- NE's sequence goes on without a fault from every position that issues a transaction. -/
theorem advance_ne_fault {pos : NePos} {ne : NeState} {i : Instr} (hi : nePending ne pos = some i) (k : Nat)
    (ans : BusAnswer) (s : State) (f : Fault) : advance pos k ans s ≠ .fault f := by
  intro h
  cases pos <;> simp only [advance] at h <;> first
    | exact pollStep_ne_fault _ _ _ _ _ _ h
    | (cases ans <;> cases h; done)
    | cases hi

/-- NE's sequence is refused only when the tick broke its duty (R229). -/
theorem advance_refused {pos : NePos} {k : Nat} {ans : BusAnswer} {s : State} {r : Refusal}
    (h : advance pos k ans s = .refused r) : r = .tickDuty ∧ 2 ^ s.cfg.tickW ≤ s.tickSince := by
  cases pos <;> simp only [advance] at h <;> first
    | exact pollStep_refused h
    | (cases ans <;> cases h)

end Sys2Proof.Machine
end

