-- ==== Sys2Proof/Laws/Locality.lean ====
section
/-! SUPPORT. Laws/Locality.lean: an operation of one unit neither reads nor writes the others: performing it commutes with
replacing everything that is not its own. -/

namespace Sys2Proof.Machine

/-- A next state changed; a fault or a refusal stands. -/
def mapNext (f : State → State) (r : Result) : Result := andThen r fun s => .next (f s)

@[simp] theorem mapNext_next (f : State → State) (s : State) : mapNext f (.next s) = .next (f s) := rfl
@[simp] theorem mapNext_fault (f : State → State) (e : Fault) : mapNext f (.fault e) = .fault e := rfl
@[simp] theorem mapNext_refused (f : State → State) (e : Refusal) : mapNext f (.refused e) = .refused e := rfl

/-- The state with BF, FD and every output but NE's bus replaced. -/
def withOthers (bf : BfState) (fd : FdState) (o : Outputs) (s : State) : State :=
  { s with bf := bf, fd := fd, out := { o with busTx := s.out.busTx } }

section
variable (bf : BfState) (fd : FdState) (o : Outputs)

@[simp] theorem withOthers_cfg (s : State) : (withOthers bf fd o s).cfg = s.cfg := rfl
@[simp] theorem withOthers_ne (s : State) : (withOthers bf fd o s).ne = s.ne := rfl
@[simp] theorem withOthers_now (s : State) : (withOthers bf fd o s).now = s.now := rfl
@[simp] theorem withOthers_bus (s : State) : (withOthers bf fd o s).bus = s.bus := rfl
@[simp] theorem withOthers_tickSince (s : State) : (withOthers bf fd o s).tickSince = s.tickSince := rfl

theorem chunkDone_withOthers (s : State) : chunkDone (withOthers bf fd o s) = withOthers bf fd o (chunkDone s) := by
  by_cases h : s.ne.off + chunkLen s.ne < s.ne.rlen <;> simp only [chunkDone, withOthers_ne, h, if_true, if_false] <;> rfl

theorem pollPassed_withOthers (pos : NePos) (s : State) :
    pollPassed pos (withOthers bf fd o s) = withOthers bf fd o (pollPassed pos s) := by
  cases pos <;> first | rfl | exact chunkDone_withOthers bf fd o s

theorem sampleT0_withOthers (k : Nat) (s : State) :
    sampleT0 k (withOthers bf fd o s) = withOthers bf fd o (sampleT0 k s) := by
  unfold sampleT0; split_ifs <;> rfl

theorem pollStep_withOthers (b : Nat) (pos : NePos) (k : Nat) (a : BusAnswer) (s : State) :
    pollStep b pos k a (withOthers bf fd o s) = mapNext (withOthers bf fd o) (pollStep b pos k a s) := by
  cases a with
  | err => rw [pollStep_err, pollStep_err, sampleT0_withOthers]; rfl
  | ok rx =>
    cases h1 : busy s.cfg (statusByte rx) with
    | false => rw [pollStep_free h1, pollStep_free (s := withOthers bf fd o s) h1, sampleT0_withOthers, pollPassed_withOthers]; rfl
    | true =>
      by_cases h2 : k ≠ 0 ∧ 2 ^ s.cfg.tickW ≤ s.tickSince
      · rw [pollStep_duty h1 h2.1 h2.2, pollStep_duty (s := withOthers bf fd o s) h1 h2.1 h2.2]; rfl
      · have hd : k = 0 ∨ s.tickSince < 2 ^ s.cfg.tickW := by omega
        by_cases h3 : b ≤ elapsed s.cfg s.now (pollT0 k s)
        · rw [pollStep_timeout h1 hd h3, pollStep_timeout (s := withOthers bf fd o s) h1 hd h3, sampleT0_withOthers]; rfl
        · rw [pollStep_again h1 hd (by omega), pollStep_again (s := withOthers bf fd o s) h1 hd (Nat.lt_of_not_le h3),
            sampleT0_withOthers]; rfl

theorem advance_withOthers (pos : NePos) (k : Nat) (a : BusAnswer) (s : State) :
    advance pos k a (withOthers bf fd o s) = mapNext (withOthers bf fd o) (advance pos k a s) := by
  cases pos <;> simp only [advance, withOthers_cfg] <;> first
    | exact pollStep_withOthers bf fd o _ _ _ _ _
    | (cases a <;> rfl)

/-- A request row neither reads nor writes the other units. -/
theorem neRequest_withOthers (pos : NePos) (a : Addr) (n : Nat) (w : List Byte) (s : State) :
    neRequest pos a n w (withOthers bf fd o s) = mapNext (withOthers bf fd o) (neRequest pos a n w s) := by
  by_cases h1 : s.ne.phase = .idle
  · by_cases h2 : s.cfg.LenFits n
    · by_cases h3 : pos = .wrLoop → w.length = n
      · rw [neRequest_accepted h1 h2 h3, neRequest_accepted (s := withOthers bf fd o s) h1 h2 h3]; rfl
      · push Not at h3
        obtain ⟨rfl, h3⟩ := h3
        rw [neRequest_mismatch h1 h2 h3, neRequest_mismatch (s := withOthers bf fd o s) h1 h2 h3]; rfl
    · rw [neRequest_width h1 h2, neRequest_width (s := withOthers bf fd o s) h1 h2]; rfl
  · rw [neRequest_ignored h1, neRequest_ignored (s := withOthers bf fd o s) h1]; rfl

/-- An operation of NE neither reads nor writes the other units. -/
theorem exec_withOthers {i : Instr} (hi : unitOf i = .ne) (s : State) :
    exec i (withOthers bf fd o s) = mapNext (withOthers bf fd o) (exec i s) := by
  by_cases hn : norTx s.cfg i = none
  · cases i <;> simp only [norTx, encode, unitOf, reduceCtorEq] at hn hi <;> exact neRequest_withOthers bf fd o _ _ _ _ s
  · obtain ⟨pos, k, hp⟩ | hp : (∃ pos k, s.ne.phase = .run pos k) ∨ s.ne.phase = .idle := by
      cases s.ne.phase with
      | idle => exact .inr rfl
      | run pos k => exact .inl ⟨pos, k, rfl⟩
    · by_cases hi' : nePending s.ne pos = some i
      · cases hb : s.bus with
        | none =>
          rw [exec_pending_held hp hi' hb, exec_pending_held (s := withOthers bf fd o s) hp hi' hb]; rfl
        | some a =>
          cases hf : answerFits (rxCount s.cfg i) a with
          | false =>
            rw [exec_pending_misfit hp hi' hb hf, exec_pending_misfit (s := withOthers bf fd o s) hp hi' hb hf]; rfl
          | true =>
            rw [exec_pending hp hi' hb hf, exec_pending (s := withOthers bf fd o s) hp hi' hb hf, ← advance_withOthers]
            rfl
      · cases i <;> simp [norTx, encode] at hn <;>
          simp [exec, execNorRsten, execNorRst, execNorRdsr, execNorWren, execNorRead, execNorPp, execNorSe, execNorCe,
            norIssue, hp, hi']
    · cases i <;> simp [norTx, encode] at hn <;>
        simp [exec, execNorRsten, execNorRst, execNorRdsr, execNorWren, execNorRead, execNorPp, execNorSe, execNorCe,
          norIssue, hp]

end

/-! What a row of each unit can be, if it answers a next state. -/

/-- BF's rows are cycles of the ring. -/
theorem exec_bf {i : Instr} (hi : unitOf i = .bf) : ∃ p q, ∀ s, exec i s = bfCycle p q s := by
  cases i <;> simp only [unitOf, reduceCtorEq] at hi
  · exact ⟨_, _, exec_bfNop⟩
  · exact ⟨_, _, exec_bfPush _⟩
  · exact ⟨_, _, exec_bfPop⟩
  · exact ⟨_, _, exec_bfPushPop _⟩

/-- FD's rows write FD's registers and its three event outputs. -/
theorem exec_fd_only {i : Instr} (hi : unitOf i = .fd) {s t : State} (h : exec i s = .next t) :
    ∃ fd v e y, t = { s with fd := fd, out := { s.out with fdFrameValid := v, fdChkErr := e, fdSyncErr := y } } := by
  cases i <;> simp only [unitOf, reduceCtorEq] at hi <;> simp only [exec] at h <;> first
    | (obtain ⟨-, rfl⟩ := fdTakePayload_eq_next.1 h; exact ⟨_, s.out.fdFrameValid, s.out.fdChkErr, s.out.fdSyncErr, rfl⟩)
    | (cases h; exact ⟨_, _, _, _, rfl⟩)

/-- NE's rows write NE's registers, the record of the tick since the last poll, and the bus output. -/
theorem exec_ne_only {i : Instr} (hi : unitOf i = .ne) {s t : State} (h : exec i s = .next t) :
    ∃ ne ts x, t = { s with ne := ne, tickSince := ts, out := { s.out with busTx := x } } := by
  by_cases hn : norTx s.cfg i = none
  · obtain ⟨pos, a, n, w, he⟩ : ∃ pos a n w, exec i s = neRequest pos a n w s := by
      cases i <;> simp only [norTx, encode, unitOf, reduceCtorEq] at hn hi <;> exact ⟨_, _, _, _, rfl⟩
    rw [he] at h
    rcases neRequest_eq_next.1 h with ⟨-, rfl⟩ | ⟨-, -, -, rfl⟩
    · exact ⟨t.ne, t.tickSince, t.out.busTx, rfl⟩
    · exact ⟨_, s.tickSince, s.out.busTx, rfl⟩
  · obtain ⟨pos, k, -, -, ⟨-, rfl⟩ | ⟨a, -, -, ha⟩⟩ := exec_nor_next hn h
    · exact ⟨t.ne, t.tickSince, t.out.busTx, rfl⟩
    · obtain ⟨ne, ts, rfl⟩ := advance_only ha
      exact ⟨ne, ts, _, rfl⟩

end Sys2Proof.Machine
end

