-- ==== Sys2Proof/Laws/Ring.lean ====
section
/-! SUPPORT. Laws/Ring.lean: BF's ring over one cycle, whatever its push and pop: the invariant and the stored bytes. -/

namespace Sys2Proof.Machine

/-- One cycle of the ring keeps BF's invariant, and its stored bytes are the old ones without the popped byte, followed by
the pushed one. -/
theorem bfInv_bfAfter {s t : State} (h : BfInv s) (p : Option Byte) (q : Bool) (hb : t.bf = bfAfter s p q)
    (hc : t.cfg = s.cfg) (he : t.epoch = s.epoch) :
    BfInv t ∧ t.fifoBytes = (if s.popValid q then s.fifoBytes.tail else s.fifoBytes) ++
      (if s.pushAccepted p then [p.getD 0#8] else []) := by
  obtain ⟨h1, h2, h3, h4, h5, h6, h7⟩ := h
  have hD : 0 < s.cfg.fifoDepth := by omega
  have ht : s.bf.tail < s.cfg.fifoDepth := by rw [h3]; exact Nat.mod_lt _ hD
  -- read of the written memory at stored positions
  have hpv : s.popValid q = true → 0 < s.bf.count := by simp [State.popValid]
  have hpa : s.pushAccepted p = true → s.bf.count < s.cfg.fifoDepth := by simp [State.pushAccepted]
  set D := s.cfg.fifoDepth with hDd
  have modne : ∀ k, k < s.bf.count → s.bf.count < D → (s.bf.head + k) % D ≠ s.bf.tail := by
    intro k hk hc hh
    rw [h3] at hh
    have := (Nat.ModEq.add_left_cancel' s.bf.head (show s.bf.head + k ≡ s.bf.head + s.bf.count [MOD D] from hh))
    have := Nat.ModEq.eq_of_lt_of_lt this (by omega) hc
    omega
  have headmod : ∀ k, ((if s.popValid q then (s.bf.head + 1) % D else s.bf.head) + k) % D =
      (s.bf.head + ((if s.popValid q then 1 else 0) + k)) % D := by
    intro k; split
    · rw [Nat.mod_add_mod]; congr 1; omega
    · simp
  have readOld : ∀ k, k < s.bf.count → Memory.read t.bf.fifoMem ((s.bf.head + k) % D) =
      Memory.read s.bf.fifoMem ((s.bf.head + k) % D) := by
    intro k hk; rw [hb]; simp only [bfAfter]
    split
    · rw [read_write_ne]; exact modne k hk (hpa (by assumption))
    · rfl
  have readNew : s.pushAccepted p = true →
      Memory.read t.bf.fifoMem ((s.bf.head + s.bf.count) % D) = some (p.getD 0#8) := by
    intro hh; rw [hb]; simp only [bfAfter, hh, if_true]; rw [h3, read_write_self]
  have cnt : t.bf.count = s.bf.count + (if s.pushAccepted p then 1 else 0) - (if s.popValid q then 1 else 0) := by
    rw [hb]; rfl
  have hd : t.bf.head = if s.popValid q then (s.bf.head + 1) % D else s.bf.head := by rw [hb]; rfl
  have cle : (if s.popValid q then 1 else 0) ≤ s.bf.count := by split <;> [exact hpv (by assumption); omega]
  have readsome : ∀ k, k < t.bf.count →
      (Memory.read t.bf.fifoMem ((s.bf.head + ((if s.popValid q then 1 else 0) + k)) % D)).isSome := by
    intro k hk
    rw [cnt] at hk
    by_cases hlt : (if s.popValid q then 1 else 0) + k < s.bf.count
    · rw [readOld _ hlt]; exact h7 _ hlt
    · have hpa' : s.pushAccepted p = true := by by_contra hn; simp [hn] at hk; omega
      simp [hpa'] at hk
      rw [show (if s.popValid q then 1 else 0) + k = s.bf.count by omega, readNew hpa']; rfl
  refine ⟨⟨?_, ?_, ?_, ?_, ?_, ?_, ?_⟩, ?_⟩
  · rw [hc, hd]; split <;> [exact Nat.mod_lt _ hD; exact h1]
  · rw [hc, cnt]; split <;> split <;> (try have := hpa (by assumption)) <;> omega
  · rw [hc, cnt, hd, headmod, hb]; simp only [bfAfter, ← hDd]
    rw [show (if s.popValid q = true then 1 else 0) +
        (s.bf.count + (if s.pushAccepted p = true then 1 else 0) - if s.popValid q = true then 1 else 0) =
        s.bf.count + (if s.pushAccepted p = true then 1 else 0) by omega]
    split
    · rw [h3, Nat.mod_add_mod]; congr 1
    · simp [h3]
  · rw [hc, hb]; simp only [bfAfter, bump]; split <;> [exact Nat.mod_lt _ (Nat.two_pow_pos _); exact h4]
  · rw [hb]; simp only [bfAfter]; split <;> [exact write_wf h5 _ _; exact h5]
  · rw [hc, hb]; simp only [bfAfter]; split <;> [exact write_within h6 ht _; exact h6]
  · intro k hk; rw [hc, hd, headmod]; exact readsome k hk
  · simp only [State.fifoBytes]
    apply List.ext_getElem
    · simp only [List.length_map, List.length_range, cnt, List.length_append]
      cases hq : s.popValid q <;> cases hp : s.pushAccepted p <;> simp [hq] at cle ⊢ <;> omega
    · intro k hk1 hk2
      simp at hk1
      generalize hpq : s.popValid q = pv at *
      simp only [List.getElem_map, List.getElem_range, hc, hd, ← hDd, headmod]
      by_cases hlt : (if pv then 1 else 0) + k < s.bf.count
      · have e : t.fifoByte ((s.bf.head + ((if pv then 1 else 0) + k)) % D) =
            s.fifoByte ((s.bf.head + ((if pv then 1 else 0) + k)) % D) := by
          simp only [State.fifoByte, readOld _ hlt, he]
        rw [e]
        cases pv
        · simp at hlt; simp [hlt]
        · simp at hlt; simp [show k < s.bf.count - 1 by omega, Nat.add_comm]
      · rw [cnt] at hk1
        have hpa' : s.pushAccepted p = true := by by_contra hn; simp [hn] at hk1; omega
        simp [hpa'] at hk1
        have ek : (if pv then 1 else 0) + k = s.bf.count := by omega
        rw [ek]
        have e : t.fifoByte ((s.bf.head + s.bf.count) % D) = p.getD 0#8 := by simp only [State.fifoByte, readNew hpa']; rfl
        rw [e]
        cases pv
        · simp at hlt; simp [List.getElem_append, show ¬ k < s.bf.count by omega, hpa']
        · simp at hlt; simp [List.getElem_append, show ¬ k < s.bf.count - 1 by omega, hpa']

end Sys2Proof.Machine
end

