-- ==== Sys2Proof/Laws/Step.lean ====
section
/-! SUPPORT. Laws/Step.lean: a step taken apart into its units' parts, each said once in terms of the pre-state: what BF's
operation of a cycle is, what FD's is, and what NE does. -/

namespace Sys2Proof.Machine

/-- The push of a cycle as BF sees it (R100). -/
def pushIn (c : CycleIn) : Option Byte := if c.bfPush then some c.bfPushData else none

/-- BF's operation in a cycle is one cycle of the ring with its ports' push and pop. -/
theorem exec_bfRow (c : CycleIn) (s t : State) : exec (bfRow c s) t = bfCycle (pushIn c) (bfPopIn c s) t := by
  unfold bfRow pushIn
  rw [decodeBf_ports]
  cases c.bfPush <;> cases bfPopIn c s <;> rfl

/-- Sampling leaves BF and the configuration alone, so BF judges a cycle on the pre-state. -/
@[simp] theorem pushAccepted_sample (c : CycleIn) (s : State) (p : Option Byte) :
    (sample c s).pushAccepted p = s.pushAccepted p := rfl
@[simp] theorem pushRefused_sample (c : CycleIn) (s : State) (p : Option Byte) :
    (sample c s).pushRefused p = s.pushRefused p := rfl
@[simp] theorem popValid_sample (c : CycleIn) (s : State) (q : Bool) : (sample c s).popValid q = s.popValid q := rfl
@[simp] theorem popData_sample (c : CycleIn) (s : State) (q : Bool) : (sample c s).popData q = s.popData q := rfl
@[simp] theorem fifoIndexBad_sample (c : CycleIn) (s : State) (p : Option Byte) (q : Bool) :
    fifoIndexBad (sample c s) p q = fifoIndexBad s p q := rfl
@[simp] theorem fifoByte_sample (c : CycleIn) (s : State) (i : Nat) : (sample c s).fifoByte i = s.fifoByte i := rfl
@[simp] theorem bufByte_sample (c : CycleIn) (s : State) (i : Nat) : (sample c s).bufByte i = s.bufByte i := rfl
@[simp] theorem bfAfter_sample (c : CycleIn) (s : State) (p : Option Byte) (q : Bool) :
    bfAfter (sample c s) p q = bfAfter s p q := rfl

/-- The block after sampling and BF's part of a cycle. -/
def afterBf (c : CycleIn) (s : State) : State :=
  ((sample c s).setBf (bfAfter s (pushIn c) (bfPopIn c s))).setOut (bfOutputs (sample c s) (pushIn c) (bfPopIn c s))

@[simp] theorem afterBf_cfg (c : CycleIn) (s : State) : (afterBf c s).cfg = s.cfg := rfl
@[simp] theorem afterBf_wiring (c : CycleIn) (s : State) : (afterBf c s).wiring = s.wiring := rfl
@[simp] theorem afterBf_bf (c : CycleIn) (s : State) : (afterBf c s).bf = bfAfter s (pushIn c) (bfPopIn c s) := rfl
@[simp] theorem afterBf_fd (c : CycleIn) (s : State) : (afterBf c s).fd = s.fd := rfl
@[simp] theorem afterBf_ne (c : CycleIn) (s : State) : (afterBf c s).ne = { s.ne with done := false } := rfl
@[simp] theorem afterBf_inputs (c : CycleIn) (s : State) : (afterBf c s).inputs = s.inputs.tail := rfl
@[simp] theorem afterBf_now (c : CycleIn) (s : State) : (afterBf c s).now = (s.now + c.tickAdv) % 2 ^ s.cfg.tickW := rfl
@[simp] theorem afterBf_bus (c : CycleIn) (s : State) : (afterBf c s).bus = c.bus := rfl
@[simp] theorem afterBf_tickSince (c : CycleIn) (s : State) : (afterBf c s).tickSince = s.tickSince + c.tickAdv := rfl
@[simp] theorem afterBf_epoch (c : CycleIn) (s : State) : (afterBf c s).epoch = s.epoch := rfl
@[simp] theorem afterBf_out (c : CycleIn) (s : State) :
    (afterBf c s).out = bfOutputs (sample c s) (pushIn c) (bfPopIn c s) := rfl

/-- A cycle outside reset: BF faults on an index, or the cycle is FD's step and then NE's on the block after BF's part. -/
theorem cycle_eq (c : CycleIn) (s : State) (hr : c.rst = false) :
    cycle c s = if fifoIndexBad s (pushIn c) (bfPopIn c s) then .fault .fifoIndex
      else andThen (fdStep c s (afterBf c s)) (neStep c s) := by
  unfold cycle
  simp only [hr, Bool.false_eq_true, if_false, exec_bfRow, bfCycle, fifoIndexBad_sample]
  by_cases hb : fifoIndexBad s (pushIn c) (bfPopIn c s) = true <;> simp [hb, afterBf]

/-- A reset cycle (R220). -/
theorem cycle_reset (c : CycleIn) (s : State) (hr : c.rst = true) : cycle c s = .next (resetBlock (sample c s)) := by
  simp [cycle, hr]

/-- A step outside reset that answers a next state went through all three units. -/
theorem step_next {s t : State} (hr : s.nextIn.rst = false) (h : step s = .next t) :
    fifoIndexBad s (pushIn s.nextIn) (bfPopIn s.nextIn s) = false ∧
      ∃ u, fdStep s.nextIn s (afterBf s.nextIn s) = .next u ∧ neStep s.nextIn s u = .next t := by
  rw [step, cycle_eq _ _ hr] at h
  split_ifs at h with hb
  exact ⟨by simpa using hb, (andThen_eq_next _ _ _).1 h⟩

/-- FD's step is FD's row for the byte presented, and nothing without one. -/
theorem fdStep_none {c : CycleIn} {s : State} (h : fdByteIn c s = none) (t : State) : fdStep c s t = .next t := by
  simp [fdStep, h]

theorem fdStep_some {c : CycleIn} {s : State} {b : Byte} {i : Instr} (h : fdByteIn c s = some b) (hi : fdRow s b = .ok i)
    (t : State) : fdStep c s t = exec i t := by
  simp [fdStep, h, hi]

/-- Units apart, FD's byte is its port's. -/
theorem fdByteIn_separate {c : CycleIn} {s : State} (h : s.wiring = .separate) :
    fdByteIn c s = if c.fdInValid then some c.fdInByte else none := by
  simp [fdByteIn, h]

/-- Units apart, BF's pop is its port's. -/
theorem bfPopIn_separate {c : CycleIn} {s : State} (h : s.wiring = .separate) : bfPopIn c s = c.bfPop := by
  simp [bfPopIn, h]

/-- The row of a byte, state by state (R73), in the register tests of FD's pre-state. -/
theorem fdRow_eq (s : State) (b : Byte) :
    fdRow s b =
      if s.fd.st = stIdle then .ok (if b = sync1 then .fdIdleSync1 else .fdIdleOther b)
      else if s.fd.st = stSawSync1 then .ok (if b = sync2 then .fdSawSync1Sync2 else .fdSawSync1Other b)
      else if s.fd.st = stReadLen then .ok (if b = 0#8 then .fdLenZero else .fdLenNonzero b)
      else if s.fd.st = stReadPayload then
        if s.fd.idx.toNat + 1 < s.fd.len.toNat then .ok (.fdPayloadMore b)
        else if s.fd.idx.toNat + 1 = s.fd.len.toNat then .ok (.fdPayloadLast b) else .error .noFrameRow
      else if s.fd.st = stReadChecksum then .ok (if b = s.fd.sum then .fdChkMatch b else .fdChkMismatch b)
      else .ok (.fdBadState s.fd.st b) := by
  simp [fdRow, decodeFd_fdKey, fdGuards]

/-- exec of an FD row writes FD's registers and its three event outputs alone. -/
theorem fdRow_only {s t u : State} {b : Byte} {i : Instr} (hi : fdRow s b = .ok i) (h : exec i t = .next u) :
    ∃ fd v e y, u = { t with fd := fd, out := { t.out with fdFrameValid := v, fdChkErr := e, fdSyncErr := y } } := by
  rw [fdRow_eq] at hi
  split_ifs at hi <;> cases hi <;> simp only [exec] at h <;> first
    | (cases h; exact ⟨_, _, _, _, rfl⟩)
    | (obtain ⟨-, rfl⟩ := fdTakePayload_eq_next.1 h; exact ⟨_, t.out.fdFrameValid, t.out.fdChkErr, t.out.fdSyncErr, rfl⟩)

/-- FD's step writes FD's registers and its three event outputs alone. -/
theorem fdStep_only {c : CycleIn} {s t u : State} (h : fdStep c s t = .next u) :
    ∃ fd v e y, u = { t with fd := fd, out := { t.out with fdFrameValid := v, fdChkErr := e, fdSyncErr := y } } := by
  unfold fdStep at h
  split at h
  · cases h; exact ⟨t.fd, t.out.fdFrameValid, t.out.fdChkErr, t.out.fdSyncErr, rfl⟩
  · split at h
    · rename_i hi; exact fdRow_only hi h
    · cases h

/-- FD's step is never refused. -/
theorem fdStep_ne_refused (c : CycleIn) (s t : State) (r : Refusal) : fdStep c s t ≠ .refused r := by
  intro h
  unfold fdStep at h
  split at h
  · cases h
  · split at h
    · rename_i hi
      rw [fdRow_eq] at hi
      split_ifs at hi <;> cases hi <;> simp only [exec] at h <;> first
        | cases h
        | exact fdTakePayload_ne_refused _ _ _ _ h
    · cases h

/-- A request's row is a request at the start of its operation's sequence. -/
theorem exec_decodeNe (r : NeReq) (s : State) :
    ∃ pos w, pos.opCode = r.op ∧ (pos = .wrLoop ↔ r.op = 4#3) ∧ (w = if r.op = 4#3 then r.wdata else []) ∧
      ¬ InChunk pos ∧ exec (decodeNe r) s = neRequest pos r.addr r.len w s := by
  obtain ⟨op, a, n, d⟩ := r
  have hop : op = 0#3 ∨ op = 1#3 ∨ op = 2#3 ∨ op = 3#3 ∨ op = 4#3 ∨ op = 5#3 ∨ op = 6#3 ∨ op = 7#3 := by
    revert op; decide
  rcases hop with rfl | rfl | rfl | rfl | rfl | rfl | rfl | rfl <;>
    exact ⟨_, _, rfl, by simp, rfl, by decide, rfl⟩

/-- NE's step writes NE's registers, the record of the tick since the last poll, and the bus output alone. -/
theorem neStep_only {c : CycleIn} {s t u : State} (hne : t.ne.phase = s.ne.phase) (h : neStep c s t = .next u) :
    ∃ ne ts x, u = { t with ne := ne, tickSince := ts, out := { t.out with busTx := x } } := by
  unfold neStep at h
  split at h
  · split at h
    · cases h; exact ⟨t.ne, t.tickSince, t.out.busTx, rfl⟩
    · rename_i r _
      obtain ⟨pos, w, -, -, -, -, he⟩ := exec_decodeNe r t
      rw [he] at h
      rcases neRequest_eq_next.1 h with ⟨-, rfl⟩ | ⟨-, -, -, rfl⟩
      · exact ⟨u.ne, u.tickSince, u.out.busTx, rfl⟩
      · exact ⟨_, t.tickSince, t.out.busTx, rfl⟩
  · split at h
    · cases h; exact ⟨t.ne, t.tickSince, t.out.busTx, rfl⟩
    · split at h
      · rename_i i hi
        obtain ⟨tx, htx⟩ := nePending_isNor hi t.cfg
        obtain ⟨pos, k, -, -, ⟨-, rfl⟩ | ⟨a, -, -, ha⟩⟩ := exec_nor_next (by simp [htx]) h
        · exact ⟨u.ne, u.tickSince, u.out.busTx, rfl⟩
        · obtain ⟨ne, ts, rfl⟩ := advance_only ha
          exact ⟨ne, ts, _, rfl⟩
      · cases h; exact ⟨_, t.tickSince, t.out.busTx, rfl⟩

end Sys2Proof.Machine
end

