-- ==== Sys2Proof/Laws/Units.lean ====
section
/-! SUPPORT. Laws/Units.lean: a step unit by unit: what BF, FD and NE hold after it in terms of what they held before, and
the step under each stimulus of R85 alone. -/

namespace Sys2Proof.Machine

/-! ### What the ports present, in the words of Safety -/

/-- A byte that arrives is the one FD takes. -/
theorem fdByteIn_arrives {s : State} {b : Byte} (h : s.ByteArrives b) : fdByteIn s.nextIn s = some b := by
  rcases h with ⟨hw, hv, hb⟩ | ⟨hw, hh, hc, hb⟩
  · simp [fdByteIn, hw, hv, hb]
  · simp [fdByteIn, bfPopIn, hw, hh, hc, hb, State.popData]

/-- Where no byte arrives, FD takes none. -/
theorem fdByteIn_noByte {s : State} (h : s.NoByteArrives) : fdByteIn s.nextIn s = none := by
  rcases h with ⟨hw, hv⟩ | ⟨hw, hh | hc⟩
  · simp [fdByteIn, hw, hv]
  · simp [fdByteIn, bfPopIn, hw, hh]
  · simp [fdByteIn, bfPopIn, hw, hc, State.popValid]

/-- NE's step is the row it performs. -/
theorem neStep_performs {s : State} {k : Instr} (h : s.NePerforms k) (t : State) : neStep s.nextIn s t = exec k t := by
  rcases h with ⟨hp, r, hr, hk⟩ | ⟨pos, n, hp, hb, hi⟩
  · simp only [decode, Except.ok.injEq] at hk
    simp [neStep, hp, hr, hk]
  · obtain ⟨a, ha⟩ := Option.ne_none_iff_exists'.1 hb
    simp [neStep, hp, ha, hi]

/-- Where NE rests, its step does nothing. -/
theorem neStep_rests {s : State} (h : s.NeRests) (t : State) : neStep s.nextIn s t = .next t := by
  rcases h with ⟨hp, hr⟩ | ⟨pos, n, hp, hb⟩
  · simp [neStep, hp, hr]
  · simp [neStep, hp, hb]

/-- Where NE finishes without a transaction, its step is that `finish`. -/
theorem neStep_finishes {s : State} {pos : NePos} (h : s.NeFinishesAt pos) (t : State) :
    neStep s.nextIn s t = .next (neFinish (finishResult pos) t) := by
  obtain ⟨⟨n, hp⟩, hb, hi⟩ := h
  obtain ⟨a, ha⟩ := Option.ne_none_iff_exists'.1 hb
  simp [neStep, hp, ha, hi]

/-- BF_NOP leaves the sampled block as it is. -/
theorem exec_bfNop_sample (c : CycleIn) (s : State) : exec .bfNop (sample c s) = .next (sample c s) := by
  rw [exec_bfNop]
  exact bfCycle_eq_next.2 ⟨rfl, rfl⟩

/-! ### FD as one function of its registers and a byte -/

/-- FD takes a byte without stopping: in READ_PAYLOAD some row of R73 applies and `idx` names an entry of `Buf`. -/
abbrev FdReady (fd : FdState) : Prop :=
  fd.st = stReadPayload → fd.idx.toNat + 1 ≤ fd.len.toNat ∧ fd.idx.toNat < maxFrame

/-- FD's registers after a byte (R122 to R132). -/
def fdAfter (c : Config) (fd : FdState) (b : Byte) : FdState :=
  if fd.st = stIdle then (if b = sync1 then { fd with st := stSawSync1 } else fd)
  else if fd.st = stSawSync1 then
    (if b = sync2 then { fd with st := stReadLen } else { fd with st := stIdle, syncErrCnt := bump c.cntW fd.syncErrCnt })
  else if fd.st = stReadLen then { fd with len := decodedLength b, idx := 0#11, sum := 0#8, st := stReadPayload }
  else if fd.st = stReadPayload then
    { fd with
      buf := Memory.write fd.buf fd.idx.toNat b, idx := fd.idx + 1#11, sum := fd.sum + b
      st := if fd.idx.toNat + 1 < fd.len.toNat then stReadPayload else stReadChecksum }
  else if fd.st = stReadChecksum then
    (if b = fd.sum then { fd with st := stIdle, frameCnt := bump c.cntW fd.frameCnt }
     else { fd with st := stIdle, chkErrCnt := bump c.cntW fd.chkErrCnt })
  else { fd with st := stIdle }

/-- `fd_frame_valid` for a byte (R130). -/
def fdFrame (fd : FdState) (b : Byte) : Bool := decide (fd.st = stReadChecksum ∧ b = fd.sum)
/-- `fd_chk_err` for a byte (R131). -/
def fdChkBad (fd : FdState) (b : Byte) : Bool := decide (fd.st = stReadChecksum ∧ b ≠ fd.sum)
/-- `fd_sync_err` for a byte (R125). -/
def fdSyncBad (fd : FdState) (b : Byte) : Bool := decide (fd.st = stSawSync1 ∧ b ≠ sync2)

/-- No event of FD is asserted. -/
abbrev NoFdEvent (o : Outputs) : Prop := o.fdFrameValid = false ∧ o.fdChkErr = false ∧ o.fdSyncErr = false

/-- FD's step at any state with the pre-state's FD registers and no event yet, such as the sampled state, with BF's part of the
cycle or without. -/
theorem fdStep_eq {c : CycleIn} {s t : State} {b : Byte} (h : fdByteIn c s = some b) (hf : t.fd = s.fd)
    (he : NoFdEvent t.out) :
    fdStep c s t =
      if FdReady s.fd then
        .next { t with
          fd := fdAfter t.cfg s.fd b
          out := { t.out with
            fdFrameValid := fdFrame s.fd b, fdChkErr := fdChkBad s.fd b, fdSyncErr := fdSyncBad s.fd b } }
      else .fault (if s.fd.idx.toNat + 1 ≤ s.fd.len.toNat then .bufIndex else .noFrameRow) := by
  have h01 : stSawSync1 ≠ stIdle := by decide
  have h02 : stReadLen ≠ stIdle := by decide
  have h03 : stReadPayload ≠ stIdle := by decide
  have h04 : stReadChecksum ≠ stIdle := by decide
  have h12 : stReadLen ≠ stSawSync1 := by decide
  have h13 : stReadPayload ≠ stSawSync1 := by decide
  have h14 : stReadChecksum ≠ stSawSync1 := by decide
  have h23 : stReadPayload ≠ stReadLen := by decide
  have h24 : stReadChecksum ≠ stReadLen := by decide
  have h34 : stReadChecksum ≠ stReadPayload := by decide
  obtain ⟨cfg, w, bf, fd, ne, inp, now, bus, ts, ep, o⟩ := t
  obtain ⟨v, e, y⟩ := he
  cases o
  simp only at hf v e y
  subst hf v e y
  unfold fdStep
  rw [h]
  simp only [fdRow_eq]
  by_cases e0 : s.fd.st = stIdle
  · by_cases hb : b = sync1 <;>
      simp [e0, hb, FdReady, fdAfter, fdFrame, fdChkBad, fdSyncBad, h01.symm, h03.symm, h04.symm, exec, execFdIdleSync1,
        execFdIdleOther, fdGoto, State.setFd]
  by_cases e1 : s.fd.st = stSawSync1
  · by_cases hb : b = sync2 <;>
      simp [e1, hb, FdReady, fdAfter, fdFrame, fdChkBad, fdSyncBad, h01, h13.symm, h14.symm, exec, execFdSawSync1Sync2,
        execFdSawSync1Other, emitSyncError, fdGoto, State.setFd, State.setOut]
  by_cases e2 : s.fd.st = stReadLen
  · by_cases hb : b = 0#8 <;>
      simp [e2, hb, FdReady, fdAfter, fdFrame, fdChkBad, fdSyncBad, h02, h12, h23.symm, h24.symm, exec, execFdLenZero,
        execFdLenNonzero, fdStartPayload, decodedLength, State.setFd]
  by_cases e3 : s.fd.st = stReadPayload
  · rcases Nat.lt_trichotomy (s.fd.idx.toNat + 1) s.fd.len.toNat with hl | hl | hl
    · by_cases hi : s.fd.idx.toNat < maxFrame <;>
        simp [e3, hl, hl.le, hi, FdReady, fdAfter, fdFrame, fdChkBad, fdSyncBad, h03, h13, h23, h34.symm, exec,
          execFdPayloadMore, fdTakePayload, State.setFd]
    · by_cases hi : s.fd.idx.toNat < maxFrame <;>
        simp [e3, hl, hi, FdReady, fdAfter, fdFrame, fdChkBad, fdSyncBad, h03, h13, h23, h34.symm, exec,
          execFdPayloadLast, fdTakePayload, State.setFd]
    · simp [e3, FdReady, show ¬ s.fd.idx.toNat + 1 < s.fd.len.toNat by omega,
        show ¬ s.fd.idx.toNat + 1 = s.fd.len.toNat by omega, show ¬ s.fd.idx.toNat + 1 ≤ s.fd.len.toNat by omega, h03,
        h13, h23]
  by_cases e4 : s.fd.st = stReadChecksum
  · by_cases hb : b = s.fd.sum <;>
      simp [e4, hb, FdReady, fdAfter, fdFrame, fdChkBad, fdSyncBad, h04, h14, h24, h34, exec, execFdChkMatch,
        execFdChkMismatch, emitFrameAccepted, emitChecksumError, fdGoto, State.setFd, State.setOut]
  · simp [e0, e1, e2, e3, e4, FdReady, fdAfter, fdFrame, fdChkBad, fdSyncBad, exec, execFdBadState, fdGoto,
      State.setFd]

/-- FD's step on the block after BF's part. -/
theorem fdStep_afterBf {c : CycleIn} {s : State} {b : Byte} (h : fdByteIn c s = some b) :
    fdStep c s (afterBf c s) =
      if FdReady s.fd then
        .next { afterBf c s with
          fd := fdAfter s.cfg s.fd b
          out := { (afterBf c s).out with
            fdFrameValid := fdFrame s.fd b, fdChkErr := fdChkBad s.fd b, fdSyncErr := fdSyncBad s.fd b } }
      else .fault (if s.fd.idx.toNat + 1 ≤ s.fd.len.toNat then .bufIndex else .noFrameRow) :=
  fdStep_eq (t := afterBf c s) h rfl ⟨rfl, rfl, rfl⟩

/-! ### NE's part of a step -/

/-- A request's row is one of NE's operations. -/
theorem unitOf_decodeNe (r : NeReq) : unitOf (decodeNe r) = .ne := by
  unfold decodeNe; split_ifs <;> rfl

/-- A pending transaction's row is one of NE's operations. -/
theorem unitOf_nePending {ne : NeState} {pos : NePos} {i : Instr} (h : nePending ne pos = some i) : unitOf i = .ne := by
  cases pos <;> simp only [nePending, Option.some.injEq, reduceCtorEq] at h <;>
    first
      | (subst h; rfl)
      | (split at h <;> simp only [Option.some.injEq, reduceCtorEq] at h; subst h; rfl)

/-- NE's step neither reads nor writes the other units. -/
theorem neStep_withOthers (c : CycleIn) (s t : State) (bf : BfState) (fd : FdState) (o : Outputs) :
    neStep c s (withOthers bf fd o t) = mapNext (withOthers bf fd o) (neStep c s t) := by
  unfold neStep
  cases s.ne.phase with
  | idle =>
    cases c.neReq with
    | none => rfl
    | some r => exact exec_withOthers bf fd o (unitOf_decodeNe r) t
  | run pos k =>
    cases c.bus with
    | none => rfl
    | some a =>
      simp only
      cases hi : nePending s.ne pos with
      | none => rfl
      | some i => exact exec_withOthers bf fd o (unitOf_nePending hi) t

/-- NE idle and no request: nothing. -/
theorem neStep_idle {c : CycleIn} {s : State} (hp : s.ne.phase = .idle) (hc : c.neReq = none) (t : State) :
    neStep c s t = .next t := by
  simp [neStep, hp, hc]

/-- NE idle and a request: its row. -/
theorem neStep_request {c : CycleIn} {s : State} {r : NeReq} (hp : s.ne.phase = .idle) (hc : c.neReq = some r) (t : State) :
    neStep c s t = exec (decodeNe r) t := by
  simp [neStep, hp, hc]

/-- NE running, and its step does not end in this cycle: nothing (R152). -/
theorem neStep_held {c : CycleIn} {s : State} {pos : NePos} {k : Nat} (hp : s.ne.phase = .run pos k) (hc : c.bus = none)
    (t : State) : neStep c s t = .next t := by
  simp [neStep, hp, hc]

/-- NE running at a position without a transaction: it finishes (R159, R163). -/
theorem neStep_finish {c : CycleIn} {s : State} {pos : NePos} {k : Nat} {a : BusAnswer} (hp : s.ne.phase = .run pos k)
    (hc : c.bus = some a) (hi : nePending s.ne pos = none) (t : State) :
    neStep c s t = .next (neFinish (finishResult pos) t) := by
  simp [neStep, hp, hc, hi]

/-- What NE's position has pending does not depend on `done`. -/
@[simp] theorem nePending_sample (c : CycleIn) (s : State) (pos : NePos) :
    nePending (sample c s).ne pos = nePending s.ne pos := rfl

/-- NE running at a transaction that is answered: its sequence goes on. -/
theorem neStep_answer {c : CycleIn} {s : State} {pos : NePos} {k : Nat} {i : Instr} {a : BusAnswer}
    (hp : s.ne.phase = .run pos k) (hc : c.bus = some a) (hi : nePending s.ne pos = some i)
    (hf : answerFits (rxCount s.cfg i) a = true) :
    neStep c s (sample c s) = advance pos k a (issued i (sample c s)) := by
  simp only [neStep, hp, hc, hi]
  exact exec_pending (s := sample c s) hp hi hc hf

/-- NE running at a transaction whose answer has another byte count: refused. -/
theorem neStep_misfit {c : CycleIn} {s : State} {pos : NePos} {k : Nat} {i : Instr} {a : BusAnswer}
    (hp : s.ne.phase = .run pos k) (hc : c.bus = some a) (hi : nePending s.ne pos = some i)
    (hf : answerFits (rxCount s.cfg i) a = false) : neStep c s (sample c s) = .refused .busAnswerLength := by
  simp only [neStep, hp, hc, hi]
  exact exec_pending_misfit (s := sample c s) hp hi hc hf

/-- Everything NE's step can be: nothing without a request; a request accepted; running, a cycle in which its step does not
end, a finish without a transaction, or an answered transaction with which the sequence goes on. -/
theorem neStep_cases {c : CycleIn} {s v : State} (h : neStep c s (sample c s) = .next v) :
    (s.ne.phase = .idle ∧ c.neReq = none ∧ v = sample c s) ∨
    (s.ne.phase = .idle ∧ ∃ r pos w, c.neReq = some r ∧ pos.opCode = r.op ∧ (pos = .wrLoop ↔ r.op = 4#3) ∧
      (w = if r.op = 4#3 then r.wdata else []) ∧ ¬ InChunk pos ∧ s.cfg.LenFits r.len ∧
      (pos = .wrLoop → w.length = r.len) ∧
      v = (sample c s).setNe (neAccepted pos r.addr r.len w (sample c s).ne)) ∨
    (∃ pos k, s.ne.phase = .run pos k ∧
      ((c.bus = none ∧ v = sample c s) ∨
        (∃ a, c.bus = some a ∧ nePending s.ne pos = none ∧ v = neFinish (finishResult pos) (sample c s)) ∨
        (∃ a i, c.bus = some a ∧ nePending s.ne pos = some i ∧ answerFits (rxCount s.cfg i) a = true ∧
          advance pos k a (issued i (sample c s)) = .next v))) := by
  cases hp : s.ne.phase with
  | idle =>
    cases hc : c.neReq with
    | none => rw [neStep_idle hp hc] at h; cases h; simp
    | some r =>
      rw [neStep_request hp hc] at h
      obtain ⟨pos, w, h1, h2, h3, h4, he⟩ := exec_decodeNe r (sample c s)
      rw [he] at h
      rcases neRequest_eq_next.1 h with ⟨h5, -⟩ | ⟨-, h6, h7, rfl⟩
      · exact absurd hp h5
      · exact .inr (.inl ⟨rfl, r, pos, w, rfl, h1, h2, h3, h4, h6, h7, rfl⟩)
  | run pos k =>
    refine .inr (.inr ⟨pos, k, rfl, ?_⟩)
    cases hc : c.bus with
    | none => rw [neStep_held hp hc] at h; cases h; simp
    | some a =>
      cases hi : nePending s.ne pos with
      | none => rw [neStep_finish hp hc hi] at h; cases h; simp
      | some i =>
        cases hf : answerFits (rxCount s.cfg i) a with
        | false => rw [neStep_misfit hp hc hi hf] at h; cases h
        | true => rw [neStep_answer hp hc hi hf] at h; exact .inr (.inr ⟨a, i, rfl, rfl, hf, h⟩)

/-! ### The whole step -/

/-- FD after a cycle. -/
def fdPart (c : CycleIn) (s : State) : FdState :=
  match fdByteIn c s with
  | none => s.fd
  | some b => fdAfter s.cfg s.fd b

/-- The outputs of a cycle but for NE's bus. -/
def outPart (c : CycleIn) (s : State) : Outputs :=
  { levelOutputs s c.fdRdAddr with
    bfPushOk := s.pushAccepted (pushIn c)
    bfPopValid := s.popValid (bfPopIn c s)
    bfPopData := s.popData (bfPopIn c s)
    bfOvf := s.pushRefused (pushIn c)
    fdFrameValid := (fdByteIn c s).any (fdFrame s.fd)
    fdChkErr := (fdByteIn c s).any (fdChkBad s.fd)
    fdSyncErr := (fdByteIn c s).any (fdSyncBad s.fd) }

/-- BF and FD do not stop in the cycle. -/
abbrev BytesReady (c : CycleIn) (s : State) : Prop :=
  fifoIndexBad s (pushIn c) (bfPopIn c s) = false ∧ ∀ b, fdByteIn c s = some b → FdReady s.fd

/-- A step outside reset in which BF and FD do not stop is NE's step, with BF, FD and the outputs replaced. -/
theorem step_eq {s : State} (hr : s.nextIn.rst = false) (hb : BytesReady s.nextIn s) :
    step s = mapNext (withOthers (bfAfter s (pushIn s.nextIn) (bfPopIn s.nextIn s)) (fdPart s.nextIn s) (outPart s.nextIn s))
      (neStep s.nextIn s (sample s.nextIn s)) := by
  rw [step, cycle_eq _ _ hr, hb.1, ← neStep_withOthers]
  simp only [Bool.false_eq_true, if_false]
  cases h : fdByteIn s.nextIn s with
  | none => rw [fdStep_none h, andThen_next, outPart, fdPart, h]; rfl
  | some b => rw [fdStep_afterBf h, if_pos (hb.2 b h), andThen_next, outPart, fdPart, h]; rfl

/-- A step outside reset that answers a next state: BF and FD do not stop, and NE's step answers. -/
theorem step_next_parts {s t : State} (hr : s.nextIn.rst = false) (h : step s = .next t) :
    BytesReady s.nextIn s ∧ ∃ v, neStep s.nextIn s (sample s.nextIn s) = .next v ∧
      t = withOthers (bfAfter s (pushIn s.nextIn) (bfPopIn s.nextIn s)) (fdPart s.nextIn s) (outPart s.nextIn s) v := by
  have hb : BytesReady s.nextIn s := by
    obtain ⟨h1, u, h2, -⟩ := step_next hr h
    refine ⟨h1, fun b hb => ?_⟩
    by_contra hn
    rw [fdStep_afterBf hb, if_neg hn] at h2
    cases h2
  refine ⟨hb, ?_⟩
  rw [step_eq hr hb] at h
  obtain ⟨v, hv, ht⟩ := (andThen_eq_next _ _ _).1 h
  cases ht
  exact ⟨v, hv, rfl⟩

/-- NE's step writes NE's registers, the record of the tick since the last poll, and the bus output alone. -/
theorem neStep_sample_only {c : CycleIn} {s v : State} (h : neStep c s (sample c s) = .next v) :
    ∃ ne ts x, v = { sample c s with ne := ne, tickSince := ts, out := { (sample c s).out with busTx := x } } :=
  neStep_only (s := s) rfl h

/-- A step outside reset that answers a next state, register by register: BF and FD and the outputs are functions of the
pre-state and the inputs, and NE's registers are those its own step answers. -/
theorem step_next_eq {s t : State} (hr : s.nextIn.rst = false) (h : step s = .next t) :
    BytesReady s.nextIn s ∧ ∃ ne ts x,
      neStep s.nextIn s (sample s.nextIn s) = .next { sample s.nextIn s with
        ne := ne, tickSince := ts, out := { levelOutputs s s.nextIn.fdRdAddr with busTx := x } } ∧
      t = { sample s.nextIn s with
        bf := bfAfter s (pushIn s.nextIn) (bfPopIn s.nextIn s), fd := fdPart s.nextIn s, ne := ne, tickSince := ts
        out := { outPart s.nextIn s with busTx := x } } := by
  obtain ⟨hb, v, hv, rfl⟩ := step_next_parts hr h
  obtain ⟨ne, ts, x, rfl⟩ := neStep_sample_only hv
  exact ⟨hb, ne, ts, x, hv, rfl⟩

/-- What NE's part of a step says about the whole step outside reset. -/
theorem step_of_neStep {s v : State} (hr : s.nextIn.rst = false) (hb : BytesReady s.nextIn s)
    (h : neStep s.nextIn s (sample s.nextIn s) = .next v) :
    step s = .next (withOthers (bfAfter s (pushIn s.nextIn) (bfPopIn s.nextIn s)) (fdPart s.nextIn s)
      (outPart s.nextIn s) v) := by
  rw [step_eq hr hb, h]; rfl

end Sys2Proof.Machine
end

