-- ==== Sys2Proof/Laws/Stimulus.lean ====
section
/-! SUPPORT. Laws/Stimulus.lean: the step under each stimulus of R85 alone, and runs of several cycles taken apart. -/

namespace Sys2Proof.Machine

/-- The next cycle's inputs are the head of the queue. -/
theorem nextIn_cons {s : State} {c : CycleIn} {l : List CycleIn} (h : s.inputs = c :: l) : s.nextIn = c := by
  simp [State.nextIn, h]

/-- NE does nothing in a cycle without a request and without the end of its step. -/
theorem neStep_quiet {c : CycleIn} (s : State) (h1 : c.neReq = none) (h2 : c.bus = none) (t : State) :
    neStep c s t = .next t := by
  cases hp : s.ne.phase with
  | idle => exact neStep_idle hp h1 t
  | run pos k => exact neStep_held hp h2 t

/-! ### One cycle -/

/-- `feed b` (R85): FD takes the byte, and nothing else happens. -/
theorem step_feed {s : State} {b : Byte} {rest : List CycleIn} (hw : s.wiring = .separate)
    (hi : s.inputs = feed b :: rest) (hf : FdReady s.fd) :
    ∃ t, step s = .next t ∧ t.fd = fdAfter s.cfg s.fd b ∧ t.cfg = s.cfg ∧ t.epoch = s.epoch ∧ t.wiring = .separate ∧
      t.inputs = rest ∧ t.out.fdFrameValid = fdFrame s.fd b ∧ t.out.fdChkErr = fdChkBad s.fd b ∧
      t.out.fdSyncErr = fdSyncBad s.fd b := by
  have hn := nextIn_cons hi
  have hx : fdByteIn (feed b) s = some b := by rw [fdByteIn_separate hw]; simp [feed]
  have hb : BytesReady s.nextIn s := by
    rw [hn]; exact ⟨by simp [fifoIndexBad, pushIn, feed, idleIn, bfPopIn, hw], fun b _ => hf⟩
  refine ⟨_, step_of_neStep (by rw [hn]; rfl) hb (neStep_quiet s (by rw [hn]; rfl) (by rw [hn]; rfl) _), ?_⟩
  rw [hn]
  simp [withOthers, hw, hi, outPart, hx, fdPart]

/-- A cycle in which BF's ports alone are driven, the pointers naming entries: BF's ring takes one cycle. -/
theorem step_bfPorts {s : State} {c : CycleIn} {rest : List CycleIn} (hw : s.wiring = .separate)
    (hi : s.inputs = c :: rest) (hh : s.bf.head < s.cfg.fifoDepth) (ht : s.bf.tail < s.cfg.fifoDepth)
    (h1 : c.rst = false) (h2 : c.fdInValid = false) (h3 : c.neReq = none) (h4 : c.bus = none) :
    ∃ t, step s = .next t ∧ t.bf = bfAfter s (pushIn c) c.bfPop ∧ t.cfg = s.cfg ∧ t.epoch = s.epoch ∧
      t.wiring = .separate ∧ t.inputs = rest ∧ t.out.bfPushOk = s.pushAccepted (pushIn c) ∧
      t.out.bfPopValid = s.popValid c.bfPop ∧ t.out.bfPopData = s.popData c.bfPop := by
  have hn := nextIn_cons hi
  have hb : BytesReady s.nextIn s := by
    refine ⟨fifoIndexBad_eq_false.2 ⟨fun _ => hh, fun _ => ht⟩, ?_⟩
    rw [hn, fdByteIn_separate hw]; simp [h2]
  refine ⟨_, step_of_neStep (by rw [hn]; exact h1) hb (neStep_quiet s (by rw [hn]; exact h3) (by rw [hn]; exact h4) _), ?_⟩
  rw [hn]
  simp [withOthers, bfPopIn_separate hw, hw, hi, outPart]

/-- A cycle in which NE's ports alone are driven: NE's step is the whole step. -/
theorem step_nePorts {s v : State} {c : CycleIn} {rest : List CycleIn} (hw : s.wiring = .separate)
    (hi : s.inputs = c :: rest) (h1 : c.rst = false) (h2 : c.fdInValid = false) (h3 : c.bfPush = false)
    (h4 : c.bfPop = false) (hv : neStep c s (sample c s) = .next v) :
    ∃ t, step s = .next t ∧ t.ne = v.ne ∧ t.tickSince = v.tickSince ∧ t.out.busTx = v.out.busTx ∧
      t.now = (s.now + c.tickAdv) % 2 ^ s.cfg.tickW ∧ t.cfg = s.cfg ∧ t.wiring = .separate ∧ t.inputs = rest := by
  have hn := nextIn_cons hi
  have hb : BytesReady s.nextIn s := by
    rw [hn]
    refine ⟨by simp [fifoIndexBad, pushIn, h3, bfPopIn, hw, h4], ?_⟩
    rw [fdByteIn_separate hw]; simp [h2]
  obtain ⟨ne, ts, x, rfl⟩ := neStep_sample_only hv
  refine ⟨_, step_of_neStep (by rw [hn]; exact h1) hb (by rw [hn]; exact hv), ?_⟩
  rw [hn]
  simp [withOthers, hw, hi]

/-- `ne ...` (R85): an idle NE accepts the request, whose row starts at `pos` with the write data `w`. -/
theorem step_present {s : State} {r : NeReq} {rest : List CycleIn} {pos : NePos} {w : List Byte}
    (hw : s.wiring = .separate) (hi : s.inputs = present r :: rest) (hp : s.ne.phase = .idle)
    (he : ∀ s, exec (decodeNe r) s = neRequest pos r.addr r.len w s) (hn : s.cfg.LenFits r.len)
    (hl : pos = .wrLoop → w.length = r.len) :
    ∃ t, step s = .next t ∧ t.ne = neAccepted pos r.addr r.len w s.ne ∧ t.out.busTx = none ∧
      t.now = s.now % 2 ^ s.cfg.tickW ∧ t.cfg = s.cfg ∧ t.wiring = .separate ∧ t.inputs = rest := by
  have h : neStep (present r) s (sample (present r) s) =
      .next ((sample (present r) s).setNe (neAccepted pos r.addr r.len w (sample (present r) s).ne)) := by
    rw [neStep_request hp (by rfl), he]
    exact neRequest_accepted (s := sample (present r) s) hp hn hl _
  obtain ⟨t, a1, a2, -, a4, a5, a6, a7, a8⟩ := step_nePorts hw hi rfl rfl rfl rfl h
  exact ⟨t, a1, a2, a4, a5, a6, a7, a8⟩

/-- `bus ...` (R85): the transaction NE is at is answered, and its sequence goes on to `v`. -/
theorem step_answer {s v : State} {a : BusAnswer} {rest : List CycleIn} {pos : NePos} {k : Nat} {i : Instr}
    (hw : s.wiring = .separate) (hi : s.inputs = answer a :: rest) (hp : s.ne.phase = .run pos k)
    (hpend : nePending s.ne pos = some i) (hf : answerFits (rxCount s.cfg i) a = true)
    (hv : advance pos k a (issued i (sample (answer a) s)) = .next v) :
    ∃ t, step s = .next t ∧ t.ne = v.ne ∧ t.tickSince = v.tickSince ∧ t.out.busTx = norTx s.cfg i ∧
      t.now = s.now % 2 ^ s.cfg.tickW ∧ t.cfg = s.cfg ∧ t.wiring = .separate ∧ t.inputs = rest := by
  have h : neStep (answer a) s (sample (answer a) s) = .next v := by rw [neStep_answer hp rfl hpend hf, hv]
  obtain ⟨t, a1, a2, a3, a4, a5, a6, a7, a8⟩ := step_nePorts hw hi rfl rfl rfl rfl h
  refine ⟨t, a1, a2, a3, ?_, a5, a6, a7, a8⟩
  rw [a4]
  obtain ⟨ne, ts, rfl⟩ := advance_only hv
  rfl

/-! ### Several cycles -/

/-- A run's first cycle. -/
theorem run_succ (n : Nat) {s t : State} (h : step s = .next t) : run (n + 1) s = run n t := by
  simp [run, h]

theorem trace_succ (n : Nat) {s t : State} (h : step s = .next t) : trace (n + 1) s = t.out :: trace n t := by
  simp [trace, h]

theorem transcript_zero (s : State) : transcript 0 s = [] := rfl

theorem transcript_succ (n : Nat) {s t : State} (h : step s = .next t) :
    transcript (n + 1) s = t.out.busTx.toList ++ transcript n t := by
  unfold transcript
  rw [trace_succ n h]
  cases hx : t.out.busTx <;> simp [hx]

/-- A run of `m + n` cycles is one of `m` and then one of `n`. -/
theorem run_add (m n : Nat) {s t : State} (h : run m s = .next t) :
    run (m + n) s = run n t ∧ trace (m + n) s = trace m s ++ trace n t ∧ (trace m s).length = m := by
  induction m generalizing s with
  | zero => cases h; simp [trace]
  | succ m ih =>
    obtain ⟨u, h1, h2⟩ := (andThen_eq_next _ _ _).1 h
    obtain ⟨a, b, c⟩ := ih h2
    rw [show m + 1 + n = (m + n) + 1 by omega, run_succ _ h1, trace_succ _ h1, trace_succ _ h1, a, b]
    simp [c]

theorem transcript_add (m n : Nat) {s t : State} (h : run m s = .next t) :
    transcript (m + n) s = transcript m s ++ transcript n t := by
  simp [transcript, (run_add m n h).2.1]

/-- Cycles in which nothing is presented: NE's registers stand but for `done`, which is low. -/
theorem run_idle (i : Nat) {s : State} {rest : List CycleIn} (hw : s.wiring = .separate)
    (hi : s.inputs = List.replicate i idleIn ++ rest) (hd : s.ne.done = false) :
    ∃ t, run i s = .next t ∧ t.ne = s.ne ∧ t.cfg = s.cfg ∧ t.wiring = .separate ∧ t.inputs = rest ∧
      transcript i s = [] := by
  induction i generalizing s with
  | zero => exact ⟨s, rfl, rfl, rfl, hw, by simpa using hi, rfl⟩
  | succ i ih =>
    obtain ⟨t, a1, a2, -, a4, -, a6, a7, a8⟩ := step_nePorts (c := idleIn) (rest := List.replicate i idleIn ++ rest) hw hi
      rfl rfl rfl rfl (neStep_quiet s rfl rfl _)
    have hn : t.ne = s.ne := by
      rw [a2]
      show { s.ne with done := false } = s.ne
      rw [← hd]
    obtain ⟨u, b1, b2, b3, b4, b5, b6⟩ := ih a7 a8 (by rw [hn, hd])
    refine ⟨u, by rw [run_succ i a1, b1], b2.trans hn, b3.trans a6, b4, b5, ?_⟩
    rw [transcript_succ i a1, b6, a4]
    rfl

/-- An NE step of `i + 1` cycles whose answer ends it: the transaction NE is at stands on the bus once. -/
theorem run_answerAfter (i : Nat) {s : State} {a : BusAnswer} {rest : List CycleIn} {pos : NePos} {k : Nat} {x : Instr}
    (hw : s.wiring = .separate) (hi : s.inputs = answerAfter i a ++ rest) (hd : s.ne.done = false)
    (hp : s.ne.phase = .run pos k) (hpend : nePending s.ne pos = some x) (hf : answerFits (rxCount s.cfg x) a = true)
    {P : NeState → Prop}
    (hv : ∀ t : State, t.ne = s.ne → t.cfg = s.cfg →
      ∃ v, advance pos k a (issued x (sample (answer a) t)) = .next v ∧ P v.ne) :
    ∃ t, run (i + 1) s = .next t ∧ P t.ne ∧ t.cfg = s.cfg ∧ t.wiring = .separate ∧ t.inputs = rest ∧
      transcript (i + 1) s = (norTx s.cfg x).toList := by
  obtain ⟨u, b1, b2, b3, b4, b5, b6⟩ := run_idle i (rest := answer a :: rest) hw (by simpa [answerAfter] using hi) hd
  obtain ⟨v, hv, hP⟩ := hv u b2 b3
  obtain ⟨t, c1, c2, -, c4, -, c6, c7, c8⟩ := step_answer b4 b5 (by rw [b2]; exact hp) (by rw [b2]; exact hpend)
    (by rw [b3]; exact hf) hv
  refine ⟨t, by rw [(run_add i 1 b1).1, run_succ 0 c1]; rfl, by rw [c2]; exact hP, c6.trans b3, c7, c8, ?_⟩
  rw [transcript_add i 1 b1, b6, transcript_succ 0 c1, c4, b3]
  simp [transcript_zero]

/-- The checksum of one byte more (R12). -/
theorem sum8_append (l : List Byte) (b : Byte) : sum8 (l ++ [b]) = sum8 l + b := by
  induction l with
  | nil => simp [sum8]
  | cons a l ih => simp [sum8, ih, BitVec.add_assoc]

end Sys2Proof.Machine
end

