-- ==== Sys2Proof/Tests/Slice0.lean ====
section
/-! SUPPORT. Tests/Slice0.lean: tests of single steps against the vectors of 95_test_vectors.md, decode tests against words
written out from 30_encoding.md, ill-formed terms that the checks refuse, and for each obligation with hypotheses a state
and operands that meet them together. -/

namespace Sys2Proof.Machine

/-- The state with this cycle's inputs next. -/
def State.given (s : State) (c : CycleIn) : State := { s with inputs := [c] }

end Sys2Proof.Machine

namespace Sys2Proof.Tests
open Sys2Proof.Machine

/-! ### Small states -/

/-- The configuration of 95_test_vectors.md: `FIFO_DEPTH = 4`, the reference bytes and the illustrative budgets. -/
def testConfig : Config :=
  { Config.reference with fifoDepth := 4, tWe := 10, tPp := 5, tSe := 400, tCe := 20000, legal := by decide }

/-- Reset under `testConfig`, the tick at 0. -/
def start : State := { State.reset with cfg := testConfig, now := 0 }

/-- BF holds `10 20 30 40`, its head at 0 (V-BF-4). -/
def fullFifo : State :=
  start.setBf { BfState.reset with fifoMem := [(0, 0x10#8), (1, 0x20#8), (2, 0x30#8), (3, 0x40#8)], count := 4 }

/-- BF holds `10 20 30 40` and its bytes go to FD. -/
def receiving : State := { fullFifo with wiring := .receivePath }

/-- BF holds these bytes from index 0 on. -/
def fifoOf (m : Memory) : State :=
  start.setBf { BfState.reset with fifoMem := m, tail := m.length, count := m.length }

/-- FD stands at `code` with these registers. -/
def fdAt (code : BitVec 3) (len idx : BitVec 11) (sum : Byte) (buf : Memory) : State :=
  start.setFd { FdState.reset with st := code, len := len, idx := idx, sum := sum, buf := buf }

/-- NE stands at `pos` with a request of `n` bytes at `a`. -/
def neAt (pos : NePos) (k : Nat) (a : Addr) (n : Nat) (d : List Byte) : State :=
  start.setNe { NeState.reset with phase := .run pos k, op := pos.opCode, addr := a, rlen := n, wdata := d, curAddr := a }

/-- The answer is a next state with this property. -/
def holds (r : Result) (p : State → Bool) : Bool :=
  match r with
  | .next t => p t
  | .fault _ => false
  | .refused _ => false

/-- The answer is a next state. -/
abbrev Completes (r : Result) : Prop := ∃ t, r = .next t

theorem completes_of_holds {r : Result} {p : State → Bool} (h : holds r p = true) : Completes r := by
  cases r <;> simp_all [holds]

/-- All three units under way: BF around its wrap with three bytes, FD before the last payload byte of three, NE at the
second poll of a chunk whose device still answers busy. -/
def underway : State :=
  { start with
    bf := ⟨[(0, 0x22#8), (1, 0x33#8), (3, 0x11#8)], 3, 2, 3, 7⟩
    fd := ⟨3#3, 3#11, 2#11, 0x30#8, [(0, 0x10#8), (1, 0x20#8)], 1, 2, 3⟩
    ne := ⟨.run .wrPoll 1, 4#3, 0x0000FF#24, 2, [0xAB#8, 0xCD#8], 0x0000FF#24, 0, 0, 0#3, 0, [], false⟩
    inputs := [{ feed 0x30#8 with bfPush := true, bfPushData := 0x44#8, bus := some (.ok [0x01#8]), tickAdv := 3 }] }

theorem underway_inv : underway.Inv where
  bf := ⟨by decide, by decide, by decide, by decide, by decide, by decide, by decide⟩
  fd := ⟨by decide, by decide, by decide, by decide, by decide, by decide, by decide, by decide, by decide, by decide,
    by decide, by decide⟩
  ne := ⟨by rintro _ _ ⟨⟩; rfl, by decide, by decide, by decide, by decide, by rintro _ _ ⟨⟩ _; decide, by decide,
    by decide, by decide, by decide, by decide, by decide, by decide⟩
  now_lt := by decide

/-! ### Ill-formed terms (R73, R75, R173, R232) -/

theorem test_wf_refuses_sync1_as_other : (Instr.fdIdleOther 0xAA#8).wf testConfig = false := by decide
theorem test_wf_refuses_sync2_as_other : (Instr.fdSawSync1Other 0x55#8).wf testConfig = false := by decide
theorem test_wf_refuses_zero_as_nonzero : (Instr.fdLenNonzero 0x00#8).wf testConfig = false := by decide
theorem test_wf_refuses_defined_state_as_bad : (Instr.fdBadState 4#3 0x00#8).wf testConfig = false := by decide
theorem test_wf_refuses_wide_length : [Instr.neReset 0#24 65536, .neGetStatus 0#24 65536, .neWriteEnable 0#24 65536,
    .neRead 0#24 65536, .neEraseSector 0#24 65536, .neEraseChip 0#24 65536, .neReserved7 0#24 65536,
    .norRead 0#24 65536].all (fun i => !i.wf testConfig) = true := by decide
theorem test_wf_refuses_write_of_another_length : (Instr.neWrite 0#24 2 [0x01#8]).wf testConfig = false := by decide
theorem test_wf_refuses_wide_write : (Instr.neWrite 0#24 65536 []).wf testConfig = false := by decide
theorem test_wf_refuses_empty_program : (Instr.norPp 0#24 []).wf testConfig = false := by decide
theorem test_wf_refuses_program_across_page : (Instr.norPp 0x0000FF#24 [0x01#8, 0x02#8]).wf testConfig = false := by
  decide
theorem test_illegal_config_refused :
    Config.ofRaw { testConfig with fifoDepth := 0 } = none ∧ Config.ofRaw { testConfig with lenW := 10 } = none ∧
    Config.ofRaw { testConfig with busyBit := 8 } = none ∧ Config.ofRaw { testConfig with tickW := 14 } = none := by decide

/-! ### Decoding words written out from 30_encoding.md -/

/-- The eleven rows of R73, the key's `st` in bits 10:8 and the byte in bits 7:0. -/
theorem test_decode_fd :
    decodeFd 0b000_10101010#11 noGuards = .ok .fdIdleSync1 ∧
    decodeFd 0b000_01010101#11 noGuards = .ok (.fdIdleOther 0x55#8) ∧
    decodeFd 0b001_01010101#11 noGuards = .ok .fdSawSync1Sync2 ∧
    decodeFd 0b001_10101010#11 noGuards = .ok (.fdSawSync1Other 0xAA#8) ∧
    decodeFd 0b010_00000000#11 noGuards = .ok .fdLenZero ∧
    decodeFd 0b010_11111111#11 noGuards = .ok (.fdLenNonzero 0xFF#8) ∧
    decodeFd 0b011_00010000#11 ⟨true, false, true⟩ = .ok (.fdPayloadMore 0x10#8) ∧
    decodeFd 0b011_00110000#11 ⟨false, true, true⟩ = .ok (.fdPayloadLast 0x30#8) ∧
    decodeFd 0b100_01100000#11 ⟨false, false, true⟩ = .ok (.fdChkMatch 0x60#8) ∧
    decodeFd 0b100_11111111#11 ⟨false, false, false⟩ = .ok (.fdChkMismatch 0xFF#8) ∧
    decodeFd 0b101_00000000#11 noGuards = .ok (.fdBadState 5#3 0x00#8) ∧
    decodeFd 0b111_10101010#11 noGuards = .ok (.fdBadState 7#3 0xAA#8) := by decide

/-- R74's four words, push in bit 1 and pop in bit 0. -/
theorem test_decode_bf :
    decodeBf 0b00#2 0x41#8 = .bfNop ∧ decodeBf 0b10#2 0x41#8 = .bfPush 0x41#8 ∧ decodeBf 0b01#2 0x41#8 = .bfPop ∧
    decodeBf 0b11#2 0x41#8 = .bfPushPop 0x41#8 := by decide

/-- R76's eight codes. -/
theorem test_decode_ne :
    decodeNe ⟨0#3, 1#24, 2, []⟩ = .neReset 1#24 2 ∧ decodeNe ⟨1#3, 1#24, 2, []⟩ = .neGetStatus 1#24 2 ∧
    decodeNe ⟨2#3, 1#24, 2, []⟩ = .neWriteEnable 1#24 2 ∧ decodeNe ⟨3#3, 1#24, 2, []⟩ = .neRead 1#24 2 ∧
    decodeNe ⟨4#3, 1#24, 2, [3#8, 4#8]⟩ = .neWrite 1#24 2 [3#8, 4#8] ∧
    decodeNe ⟨5#3, 1#24, 2, []⟩ = .neEraseSector 1#24 2 ∧ decodeNe ⟨6#3, 1#24, 2, []⟩ = .neEraseChip 1#24 2 ∧
    decodeNe ⟨7#3, 1#24, 2, []⟩ = .neReserved7 1#24 2 := by decide

/-- R80's eight shapes with the bus bytes of V-NE-1, V-NE-11, V-NE-12, V-NE-17, V-NE-18 and V-NE-5. -/
theorem test_decode_nor :
    decodeNor testConfig ⟨[0x66#8], 0⟩ = .ok .norRsten ∧ decodeNor testConfig ⟨[0x99#8], 0⟩ = .ok .norRst ∧
    decodeNor testConfig ⟨[0x05#8], 1⟩ = .ok .norRdsr ∧ decodeNor testConfig ⟨[0x06#8], 0⟩ = .ok .norWren ∧
    decodeNor testConfig ⟨[0x03#8, 0x01#8, 0x23#8, 0x45#8], 3⟩ = .ok (.norRead 0x012345#24 3) ∧
    decodeNor testConfig ⟨[0x02#8, 0x00#8, 0x00#8, 0xFF#8, 0xAB#8], 0⟩ = .ok (.norPp 0x0000FF#24 [0xAB#8]) ∧
    decodeNor testConfig ⟨[0x20#8, 0x00#8, 0x12#8, 0x34#8], 0⟩ = .ok (.norSe 0x001234#24) ∧
    decodeNor testConfig ⟨[0xC7#8], 0⟩ = .ok .norCe := by decide

/-- Words that stand for no operation. -/
theorem test_decode_refuses :
    decodeFd 0b011_00000000#11 noGuards = .error .noFrameRow ∧ decodeNor testConfig ⟨[], 0⟩ = .error .emptyTransaction ∧
    decodeNor testConfig ⟨[0x0B#8], 0⟩ = .error .unknownCommand ∧ decodeNor testConfig ⟨[0x05#8], 0⟩ = .error .badShape ∧
    decodeNor testConfig ⟨[0x20#8, 0x00#8, 0x12#8], 0⟩ = .error .badShape ∧
    decodeNor testConfig ⟨[0x02#8, 0x00#8, 0x00#8, 0xFF#8, 0xAB#8, 0xCD#8], 0⟩ = .error .badShape := by decide

/-- Opcode-table words: FD_LEN_ZERO, BF_POP, NE_ERASE_CHIP, and one-byte words below and above 8 (log entry 12). -/
theorem test_decode_table :
    decodeTableWord 11 0x200 = some .fdLenZero ∧ decodeTableWord 2 1 = some .bfPop ∧
    decodeTableWord 3 6 = some (.neEraseChip 0#24 0) ∧ decodeTableWord 8 0x05 = some (.neEraseSector 0#24 0) ∧
    decodeTableWord 8 0x99 = some .norRst := by decide

/-! ### BF, one step (V-BF) -/

/-- V-BF-1. -/
theorem test_nop : holds (step (start.given idleIn)) fun t =>
    t.out.bfEmpty && !t.out.bfFull && t.out.bfLen == 0 && t.bf.count == 0 := by decide
/-- V-BF-2. -/
theorem test_push : holds (step (start.given (push 0x41#8))) fun t =>
    t.out.bfPushOk && !t.out.bfOvf && t.bf == ⟨[(0, 0x41#8)], 0, 1, 1, 0⟩ := by decide
/-- V-BF-10: the counter wraps on a refused push. -/
theorem test_push_refused : holds (step ((fullFifo.setBf { fullFifo.bf with ovfCnt := 0xFFFFFFFF }).given (push 0#8)))
    fun t => !t.out.bfPushOk && t.out.bfOvf && t.bf == fullFifo.bf := by decide
/-- V-BF-3. -/
theorem test_pop_empty : holds (step (start.given pop)) fun t =>
    !t.out.bfPopValid && t.out.bfPopData == 0x00#8 && t.bf == start.bf := by decide
/-- L1-5: the oldest byte comes out. -/
theorem test_pop : holds (step (fullFifo.given pop)) fun t =>
    t.out.bfPopValid && t.out.bfPopData == 0x10#8 && t.bf.head == 1 && t.bf.count == 3 := by decide
/-- V-BF-5. -/
theorem test_pushpop_full : holds (step (fullFifo.given (pushpop 0x60#8))) fun t =>
    t.out.bfPopData == 0x10#8 && !t.out.bfPushOk && t.bf == { fullFifo.bf with head := 1, count := 3, ovfCnt := 1 } := by
  decide
/-- V-BF-6. -/
theorem test_pushpop_empty : holds (step (start.given (pushpop 0x77#8))) fun t =>
    !t.out.bfPopValid && t.out.bfPushOk && t.bf == ⟨[(0, 0x77#8)], 0, 1, 1, 0⟩ := by decide

/-! ### FD, one step (V-FD) -/

/-- V-FD-1. -/
theorem test_idle_sync1 : holds (step (start.given (feed 0xAA#8))) fun t => t.fd == { start.fd with st := 1#3 } := by
  decide
/-- V-FD-2. -/
theorem test_idle_other : holds (step (start.given (feed 0x55#8))) fun t => t.fd == start.fd && !t.out.fdSyncErr := by
  decide
/-- V-FD-12, its last byte. -/
theorem test_sync2 : holds (step ((fdAt 1#3 0#11 0#11 0#8 []).given (feed 0x55#8))) fun t => t.fd.st == 2#3 := by decide
/-- V-FD-3. -/
theorem test_sync_error : holds (step ((fdAt 1#3 0#11 0#11 0#8 []).given (feed 0x12#8))) fun t =>
    t.fd.st == 0#3 && t.fd.syncErrCnt == 1 && t.out.fdSyncErr := by decide
/-- V-FD-4: a second 0xAA is a sync error too. -/
theorem test_sync_error_on_sync1 : holds (step ((fdAt 1#3 0#11 0#11 0#8 []).given (feed 0xAA#8))) fun t =>
    t.fd.st == 0#3 && t.fd.syncErrCnt == 1 && t.out.fdSyncErr := by decide
/-- L1-4. -/
theorem test_len_zero : holds (step ((fdAt 2#3 7#11 7#11 9#8 []).given (feed 0x00#8))) fun t =>
    t.fd.len == 1029#11 && t.fd.idx == 0#11 && t.fd.sum == 0#8 && t.fd.st == 3#3 := by decide
/-- V-FD-10. -/
theorem test_len_nonzero : holds (step ((fdAt 2#3 7#11 7#11 9#8 []).given (feed 0xAA#8))) fun t =>
    t.fd.len == 170#11 && t.fd.idx == 0#11 && t.fd.sum == 0#8 && t.fd.st == 3#3 := by decide
/-- L1-2, its fifth byte. -/
theorem test_payload_more : holds (step ((fdAt 3#3 3#11 1#11 0x10#8 [(0, 0x10#8)]).given (feed 0x20#8))) fun t =>
    t.bufByte 1 == 0x20#8 && t.fd.idx == 2#11 && t.fd.sum == 0x30#8 && t.fd.st == 3#3 := by decide
/-- V-FD-5, its fifth byte: the sum wraps. -/
theorem test_payload_last : holds (step ((fdAt 3#3 2#11 1#11 0xFF#8 [(0, 0xFF#8)]).given (feed 0x02#8))) fun t =>
    t.bufByte 1 == 0x02#8 && t.fd.idx == 2#11 && t.fd.sum == 0x01#8 && t.fd.st == 4#3 := by decide
/-- L1-2, its last byte. -/
theorem test_frame_accepted : holds (step ((fdAt 4#3 3#11 3#11 0x60#8 []).given (feed 0x60#8))) fun t =>
    t.out.fdFrameValid && t.out.fdFrameLen == 3#11 && t.out.fdFrameChk == 0x60#8 && t.fd.st == 0#3 &&
      t.fd.frameCnt == 1 := by decide
/-- L1-3, its sixth byte. -/
theorem test_checksum_error : holds (step ((fdAt 4#3 2#11 2#11 0x03#8 []).given (feed 0xFF#8))) fun t =>
    t.out.fdChkErr && !t.out.fdFrameValid && t.fd.st == 0#3 && t.fd.chkErrCnt == 1 := by decide
/-- V-FD-16. -/
theorem test_bad_state : holds (step ((fdAt 5#3 0#11 0#11 0#8 []).given (feed 0xAA#8))) fun t =>
    t.fd == start.fd && !t.out.fdSyncErr := by decide
/-- V-FD-13. -/
theorem test_read_port_out_of_range : holds (step (start.given { idleIn with fdRdAddr := 0x7FF#11 })) fun t =>
    t.out.fdRdData == 0x00#8 := by decide
/-- P1, its second cycle: FD takes the byte that BF pops while the next one is pushed. -/
theorem test_receive_path :
    holds (step ({ fifoOf [(0, 0xAA#8)] with wiring := .receivePath, inputs := [push 0x55#8] })) fun t =>
      t.fd.st == 1#3 && t.bf.count == 1 && t.fifoBytes == [0x55#8] := by decide

/-! ### NE, one step (V-NE) -/

/-- The request is latched and NE stands at `pos`. -/
def accepts (r : NeReq) (pos : NePos) : Bool :=
  holds (step (start.given (present r))) fun t =>
    t.ne.phase == .run pos 0 && t.ne.op == r.op && t.ne.addr == r.addr && t.ne.rlen == r.len && t.out.neReady &&
      t.out.busTx == none

theorem test_ne_reset : accepts ⟨0#3, 0#24, 0, []⟩ .resetEnable := by decide
theorem test_ne_get_status : accepts ⟨1#3, 0#24, 0, []⟩ .status := by decide
theorem test_ne_write_enable : accepts ⟨2#3, 0#24, 0, []⟩ .weWren := by decide
theorem test_ne_read : accepts ⟨3#3, 0x012345#24, 3, []⟩ .read := by decide
theorem test_ne_write : accepts ⟨4#3, 0x0000FF#24, 2, [0xAB#8, 0xCD#8]⟩ .wrLoop := by decide
theorem test_ne_write_malformed :
    step (start.given (present ⟨4#3, 0#24, 2, [0xAB#8]⟩)) = .refused .writeLengthMismatch := rfl
theorem test_ne_erase_sector : accepts ⟨5#3, 0x001234#24, 0, []⟩ .seWren := by decide
theorem test_ne_erase_chip : accepts ⟨6#3, 0#24, 0, []⟩ .ceWren := by decide
theorem test_ne_reserved_7 : accepts ⟨7#3, 0#24, 0, []⟩ .illegal := by decide
/-- V-NE-19, its run step. -/
theorem test_ne_reserved_7_finishes : holds (step ((neAt .illegal 0 0#24 0 []).given (answer .err))) fun t =>
    t.ne.phase == .idle && t.ne.result == 7#3 && t.ne.done && t.out.busTx == none := by decide
/-- V-NE-6, its run step. -/
theorem test_ne_write_nothing : holds (step ((neAt .wrLoop 0 0x123456#24 0 []).given (answer .err))) fun t =>
    t.ne.phase == .idle && t.ne.result == 0#3 && t.ne.bytesDone == 0 && t.out.busTx == none := by decide
/-- V-NE-21. -/
theorem test_ne_busy_ignores : holds (step ((neAt .read 0 0#24 3 []).given (present ⟨0#3, 0#24, 0, []⟩))) fun t =>
    t.ne == (neAt .read 0 0#24 3 []).ne && !t.out.neReady := by decide

/-- V-NE-1, its first transaction. -/
theorem test_rsten : holds (step ((neAt .resetEnable 0 0#24 0 []).given (answer (.ok [])))) fun t =>
    t.out.busTx == some ⟨[0x66#8], 0⟩ && t.ne.phase == .run .resetMemory 0 := by decide
/-- V-NE-2. -/
theorem test_rsten_error : holds (step ((neAt .resetEnable 0 0#24 0 []).given (answer .err))) fun t =>
    t.ne.phase == .idle && t.ne.result == 3#3 && t.ne.done := by decide
/-- V-NE-1, its second transaction. -/
theorem test_rst : holds (step ((neAt .resetMemory 0 0#24 0 []).given (answer (.ok [])))) fun t =>
    t.out.busTx == some ⟨[0x99#8], 0⟩ && t.ne.phase == .idle && t.ne.result == 0#3 && t.ne.done := by decide
/-- V-NE-11. -/
theorem test_rdsr_status :
    [(BusAnswer.ok [0x03#8], 1#3), (.ok [0x02#8], 0#3), (.ok [0xFE#8], 0#3), (.err, 3#3)].all fun x =>
      holds (step ((neAt .status 0 0#24 0 []).given (answer x.1))) fun t =>
        t.out.busTx == some ⟨[0x05#8], 1⟩ && t.ne.phase == .idle && t.ne.result == x.2 := by decide
/-- V-NE-9, its last two polls (elapsed 3 and 5 of a budget of 5), and V-NE-20's second, across the tick's wrap. -/
theorem test_rdsr_poll :
    (holds (step { (neAt .wrPoll 1 0x10#24 4 []).setNe { (neAt .wrPoll 1 0x10#24 4 []).ne with t0 := 100 } with
      now := 100, inputs := [{ answer (.ok [0x01#8]) with tickAdv := 3 }] }) fun t => t.ne.phase == .run .wrPoll 2) ∧
    (holds (step { (neAt .wrPoll 2 0x10#24 4 []).setNe { (neAt .wrPoll 2 0x10#24 4 []).ne with t0 := 100 } with
      now := 103, inputs := [{ answer (.ok [0x01#8]) with tickAdv := 2 }] }) fun t =>
        t.ne.phase == .idle && t.ne.result == 2#3 && t.ne.bytesDone == 0) ∧
    (holds (step { (neAt .wePoll 1 0#24 0 []).setNe { (neAt .wePoll 1 0#24 0 []).ne with t0 := 0xFFFFFFFE } with
      now := 0xFFFFFFFE, inputs := [{ answer (.ok [0x01#8]) with tickAdv := 4 }] }) fun t =>
        t.ne.phase == .run .wePoll 2 && t.now == 2) := by decide
/-- Log entry 20: in a poll of two cycles the tick of the second, in which the step ends, is compared and sampled. -/
theorem test_rdsr_reads_the_last_tick :
    holds (run 2 { neAt .wrPoll 0 0x10#24 4 [] with
      now := 100, inputs := [tickBy 3, { answer (.ok [0x01#8]) with tickAdv := 4 }] }) fun t =>
        t.ne.phase == .run .wrPoll 1 && t.ne.t0 == 107 := by decide
/-- V-NE-22. -/
theorem test_wren_error : holds (step ((neAt .seWren 0 0#24 0 []).given (answer .err))) fun t =>
    t.out.busTx == some ⟨[0x06#8], 0⟩ && t.ne.phase == .idle && t.ne.result == 3#3 := by decide
/-- V-NE-3, its first transaction. -/
theorem test_wren : holds (step ((neAt .wrLoop 0 0x32#24 2 [1#8, 2#8]).given (answer (.ok [])))) fun t =>
    t.out.busTx == some ⟨[0x06#8], 0⟩ && t.ne.phase == .run .wrWePoll 0 := by decide
/-- V-NE-12. -/
theorem test_nor_read : holds (step ((neAt .read 0 0x012345#24 3 []).given (answer (.ok [0xDE#8, 0xAD#8, 0xBE#8])))) fun t =>
    t.out.busTx == some ⟨[0x03#8, 0x01#8, 0x23#8, 0x45#8], 3⟩ && t.ne.rdata == [0xDE#8, 0xAD#8, 0xBE#8] &&
      t.ne.bytesDone == 3 && t.ne.result == 0#3 := by decide
/-- V-NE-13. -/
theorem test_nor_read_error : holds (step ((neAt .read 0 0x012345#24 3 []).given (answer .err))) fun t =>
    t.ne.rdata == [] && t.ne.bytesDone == 0 && t.ne.result == 3#3 := by decide
/-- V-NE-5, its first program: one byte, up to the end of the page. -/
theorem test_pp : holds (step ((neAt .wrProgram 0 0xFF#24 2 [0xAB#8, 0xCD#8]).given (answer (.ok [])))) fun t =>
    t.out.busTx == some ⟨[0x02#8, 0x00#8, 0x00#8, 0xFF#8, 0xAB#8], 0⟩ && t.ne.phase == .run .wrPoll 0 := by decide
/-- V-NE-8, after its first program: the address wraps. -/
theorem test_chunk_done_wraps :
    holds (step ((neAt .wrPoll 0 0xFFFFF0#24 32 (List.replicate 32 0#8)).given (answer (.ok [0x00#8])))) fun t =>
      t.ne.curAddr == 0#24 && t.ne.off == 16 && t.ne.bytesDone == 16 && t.ne.phase == .run .wrLoop 0 := by decide
/-- V-NE-17. -/
theorem test_se : holds (step ((neAt .seErase 0 0x001234#24 0 []).given (answer (.ok [])))) fun t =>
    t.out.busTx == some ⟨[0x20#8, 0x00#8, 0x12#8, 0x34#8], 0⟩ && t.ne.phase == .run .sePoll 0 := by decide
/-- V-NE-18. -/
theorem test_ce : holds (step ((neAt .ceErase 0 0#24 0 []).given (answer (.ok [])))) fun t =>
    t.out.busTx == some ⟨[0xC7#8], 0⟩ && t.ne.phase == .run .cePoll 0 := by decide
/-- R220, R221: a reset cycle with everything under way. -/
theorem test_reset_cycle : holds (step (underway.given { push 1#8 with rst := true })) fun t =>
    t.bf == BfState.reset && t.fd == FdState.reset && t.ne == NeState.reset && !t.out.bfPushOk := by decide

/-! ### Witnesses: for each obligation with hypotheses, a state and operands that meet them, at boundary values

Each theorem's name is the obligation's. Where an obligation has several clauses, each has its own part here. -/

/-- `start` meets the invariant. -/
theorem start_inv : start.Inv where
  bf := ⟨by decide, by decide, by decide, by decide, by decide, by decide, by decide⟩
  fd := ⟨by decide, by decide, by decide, by decide, by decide, by decide, by decide, by decide, by decide, by decide,
    by decide, by decide⟩
  ne := ⟨nofun, by decide, by decide, by decide, by decide, nofun, by decide, by decide, by decide, by decide, by decide,
    by decide, by decide⟩
  now_lt := by decide

/-- A full FIFO meets BF's invariant. -/
theorem fullFifo_inv : BfInv fullFifo :=
  ⟨by decide, by decide, by decide, by decide, by decide, by decide, by decide⟩

theorem witness_EveryStepKeepsInvariant : underway.Inv ∧ Completes (step underway) :=
  ⟨underway_inv, completes_of_holds (p := fun _ => true) (by decide)⟩

theorem witness_InvariantStatesNeverFault : underway.Inv := underway_inv

/-- At the largest advance of the tick between two polls. -/
theorem witness_StepCompletesOnLegalInputs :
    let s := underway.given { answer (.ok [0x01#8]) with tickAdv := 2 ^ 32 - 1 }
    s.Inv ∧ s.InputsLegal := by
  refine ⟨⟨?_, ?_, ?_, underway_inv.now_lt⟩, nofun, ?_, ?_⟩
  · exact ⟨by decide, by decide, by decide, by decide, by decide, by decide, by decide⟩
  · exact ⟨by decide, by decide, by decide, by decide, by decide, by decide, by decide, by decide, by decide, by decide,
      by decide, by decide⟩
  · exact ⟨by rintro _ _ ⟨⟩; rfl, by decide, by decide, by decide, by decide, by rintro _ _ ⟨⟩ _; decide, by decide,
      by decide, by decide, by decide, by decide, by decide, by decide⟩
  · rintro _ ⟨⟩ _ _ _ ⟨⟩ ⟨⟩
    decide
  · intro _ _ _ _
    decide

theorem witness_ResetCycleWritesResetValues : (underway.given resetIn).nextIn.rst = true := rfl

theorem witness_LevelOutputsShowThePreState : Completes (step underway) ∧ Completes (step (underway.given resetIn)) :=
  ⟨completes_of_holds (p := fun _ => true) (by decide), completes_of_holds (p := fun _ => true) (by decide)⟩

theorem witness_EachUnitIsWrittenByItsOwnOperation :
    (unitOf .bfPop = .bf ∧ Completes (exec .bfPop underway)) ∧
    (unitOf .fdIdleSync1 = .fd ∧ Completes (exec .fdIdleSync1 underway)) ∧
    (unitOf .norRst = .ne ∧ Completes (exec .norRst { neAt .resetMemory 0 0#24 0 [] with bus := some .err })) :=
  ⟨⟨rfl, completes_of_holds (p := fun _ => true) (by decide)⟩, ⟨rfl, _, rfl⟩,
    ⟨rfl, completes_of_holds (p := fun _ => true) (by decide)⟩⟩

theorem witness_UnitsActTogetherInAnyOrder :
    unitOf .bfPop ≠ unitOf (.fdPayloadLast 0x30#8) ∧ Completes (exec .bfPop underway) ∧
      Completes (exec (.fdPayloadLast 0x30#8) underway) :=
  ⟨by decide, completes_of_holds (p := fun _ => true) (by decide),
    completes_of_holds (p := fun _ => true) (by decide)⟩

/-- A cycle for each clause, the units apart: no byte or a byte, and NE at rest, performing a request or a transaction, or
finishing without one, BF acting or not. -/
theorem witness_StepRunsDecodedInstructions :
    let r : NeReq := ⟨1#3, 0#24, 0, []⟩
    (let s := start.given (push 7#8);
      s.nextIn.rst = false ∧ decode s.cfg (.bfPort 0b10#2 7#8) = .ok (.bfPush 7#8) ∧ s.NoByteArrives ∧ s.NeRests) ∧
    (let s := start.given { push 7#8 with neReq := some r };
      decode s.cfg (.bfPort 0b10#2 7#8) = .ok (.bfPush 7#8) ∧ s.NoByteArrives ∧ s.NePerforms (.neGetStatus 0#24 0)) ∧
    (let s := (neAt .resetEnable 0 0#24 0 []).given (answer .err);
      decode s.cfg (.bfPort 0b00#2 0#8) = .ok .bfNop ∧ s.NoByteArrives ∧ s.NePerforms .norRsten) ∧
    (let s := (neAt .wrLoop 0 0#24 0 []).given (answer .err);
      s.nextIn.rst = false ∧ s.NoByteArrives ∧ s.NeFinishesAt .wrLoop) ∧
    (let s := start.given (feed 0xAA#8);
      decode s.cfg (.bfPort 0b00#2 0#8) = .ok .bfNop ∧ s.ByteArrives 0xAA#8 ∧
        decode s.cfg (.fdKey (fdKey s.fd.st 0xAA#8) (fdGuards s.fd 0xAA#8)) = .ok .fdIdleSync1 ∧ s.NeRests) ∧
    (underway.nextIn.rst = false ∧ decode underway.cfg (.bfPort 0b10#2 0x44#8) = .ok (.bfPush 0x44#8) ∧
      underway.ByteArrives 0x30#8 ∧
      decode underway.cfg (.fdKey (fdKey underway.fd.st 0x30#8) (fdGuards underway.fd 0x30#8)) =
        .ok (.fdPayloadLast 0x30#8) ∧ underway.NePerforms .norRdsr) ∧
    (let s := (neAt .illegal 0 0#24 0 []).given { feed 0xAA#8 with bus := some .err };
      s.nextIn.rst = false ∧ s.ByteArrives 0xAA#8 ∧ s.NeFinishesAt .illegal) :=
  ⟨⟨by decide, by decide, by decide, .inl ⟨rfl, rfl⟩⟩, ⟨by decide, by decide, .inl ⟨rfl, _, rfl, rfl⟩⟩,
    ⟨by decide, by decide, .inr ⟨_, _, rfl, by decide, rfl⟩⟩, ⟨by decide, by decide, ⟨_, rfl⟩, by decide, rfl⟩,
    ⟨by decide, by decide, by decide, .inl ⟨rfl, rfl⟩⟩,
    ⟨by decide, by decide, by decide, by decide, .inr ⟨_, _, rfl, by decide, rfl⟩⟩,
    ⟨by decide, by decide, ⟨_, rfl⟩, by decide, rfl⟩⟩

/-- On the receive path the pop is `not hold`: a byte from a full FIFO beside a refused push, and none while held. -/
theorem witness_StepRunsDecodedInstructions_receivePath :
    (let s := receiving.given (push 7#8);
      s.nextIn.rst = false ∧
      decode s.cfg (.bfPort (BitVec.ofBool s.nextIn.bfPush ++
        BitVec.ofBool (if s.wiring = .separate then s.nextIn.bfPop else !s.nextIn.hold)) s.nextIn.bfPushData) =
          .ok (.bfPushPop 7#8) ∧
      s.ByteArrives 0x10#8 ∧ decode s.cfg (.fdKey (fdKey s.fd.st 0x10#8) (fdGuards s.fd 0x10#8)) =
        .ok (.fdIdleOther 0x10#8) ∧ s.NeRests ∧ Completes (step s)) ∧
    (let s := receiving.given { push 7#8 with hold := true };
      decode s.cfg (.bfPort (BitVec.ofBool s.nextIn.bfPush ++
        BitVec.ofBool (if s.wiring = .separate then s.nextIn.bfPop else !s.nextIn.hold)) s.nextIn.bfPushData) =
          .ok (.bfPush 7#8) ∧
      s.NoByteArrives ∧ s.NeRests ∧ Completes (step s)) :=
  ⟨⟨by decide, by decide, by decide, by decide, .inl ⟨rfl, rfl⟩, completes_of_holds (p := fun _ => true) (by decide)⟩,
    ⟨by decide, by decide, .inl ⟨rfl, rfl⟩, completes_of_holds (p := fun _ => true) (by decide)⟩⟩

theorem witness_PlacedInstructionIsPerformed :
    (Instr.norPp 0x0000FF#24 [0x01#8]).wf testConfig = true ∧ (Instr.neRead 0xFFFFFF#24 65535).wf testConfig = true ∧
    (Instr.fdBadState 5#3 0#8).wf testConfig = true ∧ (Instr.bfPushPop 1#8).wf testConfig = true := by decide

/-- A page program of `n` equal bytes. -/
theorem wf_program (c : Config) (a : Addr) (n : Nat) (b : Byte) (h : PageFits a n) :
    (Instr.norPp a (List.replicate n b)).wf c = true := by simp [Instr.wf, h]

/-- An operation of each encoding, the page program at both ends of its length. -/
theorem witness_DecodeInvertsEncode :
    testConfig.CommandsDistinct ∧ (Instr.norPp 0x0000FF#24 [0x01#8]).wf testConfig = true ∧
    (Instr.norPp 0x000100#24 (List.replicate 256 0x01#8)).wf testConfig = true ∧
    (Instr.neWrite 0#24 1 [0x01#8]).wf testConfig = true ∧ (Instr.fdBadState 7#3 0xFF#8).wf testConfig = true ∧
    (Instr.bfPush 0#8).wf testConfig = true := 
  ⟨by decide, by decide, wf_program _ _ 256 _ (by decide), by decide, by decide, by decide⟩

theorem witness_DecodedWordsReencode :
    decode testConfig (.norTx ⟨[0xC7#8], 0⟩) = .ok .norCe ∧
    decode testConfig (.fdKey 0x300#11 ⟨false, true, false⟩) = .ok (.fdPayloadLast 0#8) := by decide

/-- A legal set of parameters, at the smallest sizes, and an illegal one. -/
theorem witness_IllegalConfigurationIsRefused :
    (∃ c, Config.ofRaw ⟨1, 1, 11, 1, 1, 0, 0, 0, 0#8, 0#8, 0#8, 0#8, 0#8, 0#8, 0#8, 0#8, 7⟩ = some c) ∧
    Config.ofRaw ⟨1, 1, 11, 1, 2, 0, 0, 0, 0#8, 0#8, 0#8, 0#8, 0#8, 0#8, 0#8, 0#8, 7⟩ = none := ⟨⟨_, rfl⟩, rfl⟩

theorem witness_RegistersFitTheirWidths : underway.Inv := underway_inv

/-- The last free place, and none. -/
theorem witness_PushStoresOrDropsNewest :
    (underway.bf.tail < underway.cfg.fifoDepth ∧ underway.bf.count < underway.cfg.fifoDepth ∧
      underway.bf.count + 1 = underway.cfg.fifoDepth) ∧
    (fullFifo.bf.tail < fullFifo.cfg.fifoDepth ∧ ¬ fullFifo.bf.count < fullFifo.cfg.fifoDepth) := by decide

/-- One byte, all four, none. -/
theorem witness_PopRemovesTheOldestByte :
    ((fifoOf [(0, 9#8)]).bf.head < (fifoOf [(0, 9#8)]).cfg.fifoDepth ∧ (fifoOf [(0, 9#8)]).bf.count = 1) ∧
    (fullFifo.bf.head < fullFifo.cfg.fifoDepth ∧ 0 < fullFifo.bf.count ∧
      fullFifo.bf.count ≤ fullFifo.cfg.fifoDepth) ∧
    (start.bf.head < start.cfg.fifoDepth ∧ start.bf.count = 0) := by decide

/-- Empty, full, and in between at both ends. -/
theorem witness_PushPopJudgesBothOnThePreState :
    (start.bf.head < start.cfg.fifoDepth ∧ start.bf.tail < start.cfg.fifoDepth ∧ start.bf.count = 0) ∧
    (fullFifo.bf.head < fullFifo.cfg.fifoDepth ∧ fullFifo.bf.tail < fullFifo.cfg.fifoDepth ∧
      fullFifo.bf.count = fullFifo.cfg.fifoDepth) ∧
    (underway.bf.head < underway.cfg.fifoDepth ∧ underway.bf.tail < underway.cfg.fifoDepth ∧
      0 < underway.bf.count ∧ underway.bf.count + 1 = underway.cfg.fifoDepth) ∧
    ((fifoOf [(0, 9#8)]).bf.head < 4 ∧ (fifoOf [(0, 9#8)]).bf.tail < 4 ∧ (fifoOf [(0, 9#8)]).bf.count = 1) := by decide

theorem witness_FifoOutputsOfACycle :
    let s := fullFifo.given (pushpop 1#8)
    (s.bf.count ≤ s.cfg.fifoDepth ∧ s.wiring = .separate ∧ s.nextIn.rst = false) ∧ Completes (step s) :=
  ⟨by decide, completes_of_holds (p := fun _ => true) (by decide)⟩

/-- A refused push at the counter's last value, a push with room, a reset. -/
theorem witness_OverflowsAreCounted :
    let s := (fullFifo.setBf { fullFifo.bf with ovfCnt := 2 ^ 32 - 1 }).given (push 1#8)
    (s.bf.count = s.cfg.fifoDepth ∧ s.nextIn.bfPush = true ∧ s.nextIn.rst = false ∧
      s.bf.ovfCnt = 2 ^ s.cfg.cntW - 1 ∧ Completes (step s)) ∧
    (underway.bf.count ≤ underway.cfg.fifoDepth ∧ underway.nextIn.rst = false ∧
      ¬ (underway.nextIn.bfPush = true ∧ underway.bf.count = underway.cfg.fifoDepth) ∧ Completes (step underway)) ∧
    ((underway.given resetIn).nextIn.rst = true ∧ Completes (step (underway.given resetIn))) :=
  ⟨⟨rfl, rfl, rfl, rfl, completes_of_holds (p := fun _ => true) (by decide)⟩,
    ⟨by decide, by decide, by decide, completes_of_holds (p := fun _ => true) (by decide)⟩,
    ⟨rfl, completes_of_holds (p := fun _ => true) (by decide)⟩⟩

/-- All four operations, with a byte stored, none stored, and full. -/
theorem witness_FifoFrames :
    [Instr.bfNop, .bfPush 1#8, .bfPop, .bfPushPop 1#8].all (fun i =>
      unitOf i == .bf && holds (exec i underway) (fun _ => true) && holds (exec i start) (fun _ => true) &&
        holds (exec i fullFifo) (fun _ => true)) = true := by decide

theorem witness_FifoRefinesABoundedQueue : BfInv start ∧ BfInv underway ∧ BfInv fullFifo :=
  ⟨start_inv.bf, underway_inv.bf, fullFifo_inv⟩

/-- As many bytes as there is room for: four into an empty FIFO, one into one that holds three. -/
theorem witness_PopsReturnBytesInOrder :
    (BfInv start ∧ start.wiring = .separate ∧ start.bf.count = 0 ∧
      start.bf.count + [1#8, 2#8, 3#8, (4#8 : Byte)].length = start.cfg.fifoDepth) ∧
    (BfInv underway ∧ underway.wiring = .separate ∧
      underway.bf.count + [(1#8 : Byte)].length = underway.cfg.fifoDepth) ∧
    ∀ (s : State) (l : List CycleIn), ({ s with inputs := l } : State).inputs = l :=
  ⟨⟨start_inv.bf, rfl, rfl, rfl⟩, ⟨underway_inv.bf, rfl, rfl⟩, fun _ _ => rfl⟩

/-- One byte too many. -/
theorem witness_OverfullPushesDropTheNewest :
    ∃ (s : State) (l : List Byte) (rest : List CycleIn), BfInv s ∧ s.wiring = .separate ∧ s.bf.count = 0 ∧
      s.cfg.fifoDepth < l.length ∧ s.inputs = l.map push ++ List.replicate s.cfg.fifoDepth pop ++ rest :=
  ⟨{ start with inputs := [1#8, 2#8, 3#8, 4#8, 5#8].map push ++ List.replicate 4 pop ++ [idleIn] },
    [1#8, 2#8, 3#8, 4#8, 5#8], [idleIn], ⟨by decide, by decide, by decide, by decide, by decide, by decide, by decide⟩,
    rfl, rfl, by decide, rfl⟩

/-- The last index of `Buf`. -/
theorem witness_LengthAndPayloadRowsEffects : (fdAt 3#3 1029#11 1028#11 0#8 []).fd.idx.toNat < 1029 := by decide

/-- A cycle that answers a next state for each of the ten clauses, with the units apart and with the byte the only one of a
receive path one entry deep: the payload at the last index, at the one before it and at the shortest length, the state
code just above the legal ones. And the oldest of four bytes on the receive path. -/
theorem witness_FrameDecoderTransitions :
    ([(fdAt 0#3 0#11 0#11 0#8 [], 0xAA#8), (fdAt 0#3 0#11 0#11 0#8 [], 0x55#8), (fdAt 1#3 0#11 0#11 0#8 [], 0x55#8),
      (fdAt 1#3 0#11 0#11 0#8 [], 0xAA#8), (fdAt 2#3 0#11 0#11 0#8 [], 0x00#8), (fdAt 2#3 0#11 0#11 0#8 [], 0xFF#8),
      (fdAt 3#3 1029#11 1027#11 0#8 [], 1#8), (fdAt 3#3 1029#11 1028#11 0#8 [], 1#8), (fdAt 3#3 1#11 0#11 0#8 [], 1#8),
      (fdAt 4#3 1#11 1#11 1#8 [], 1#8), (fdAt 4#3 1#11 1#11 1#8 [], 2#8), (fdAt 5#3 0#11 0#11 0#8 [], 0xAA#8)].all
    fun x =>
      let apart := x.1.given (feed x.2)
      let path : State := { x.1 with
        cfg := { testConfig with fifoDepth := 1, legal := by decide }, wiring := .receivePath
        bf := { BfState.reset with fifoMem := [(0, x.2)], count := 1 }, inputs := [push 7#8] }
      [apart, path].all fun s => !s.nextIn.rst && decide (s.ByteArrives x.2) && holds (step s) fun _ => true) = true ∧
    (receiving.given (push 7#8)).ByteArrives 0x10#8 ∧ Completes (step (receiving.given (push 7#8))) :=
  ⟨by decide, by decide, completes_of_holds (p := fun _ => true) (by decide)⟩

/-- No byte at the port; on the receive path, held, and with an empty FIFO. -/
theorem witness_NoByteNoChange :
    Completes (step (underway.given pop)) ∧ (underway.given pop).nextIn.fdInValid = false ∧
    (let s : State := { underway with wiring := .receivePath, inputs := [{ idleIn with hold := true }] };
      Completes (step s) ∧ s.nextIn.rst = false ∧ s.nextIn.hold = true) ∧
    (let s : State := { start with wiring := .receivePath, inputs := [idleIn] };
      Completes (step s) ∧ s.nextIn.rst = false ∧ s.bf.count = 0) :=
  ⟨completes_of_holds (p := fun _ => true) (by decide), rfl,
    ⟨completes_of_holds (p := fun _ => true) (by decide), rfl, rfl⟩,
    ⟨completes_of_holds (p := fun _ => true) (by decide), rfl, rfl⟩⟩

theorem witness_AtMostOneFrameEvent :
    Completes (step underway) ∧ Completes (step (underway.given pop)) ∧ underway.wiring = .separate ∧
      (underway.given pop).nextIn.fdInValid = false :=
  ⟨completes_of_holds (p := fun _ => true) (by decide), completes_of_holds (p := fun _ => true) (by decide), rfl, rfl⟩

/-- The last index of `Buf` and the first beyond it. -/
theorem witness_PayloadReadPort :
    let s := fun a : BitVec 11 => (underway.given { idleIn with fdRdAddr := a } : State)
    (Completes (step (s 1028#11)) ∧ (s 1028#11).nextIn.rst = false) ∧
    (Completes (step (s 1029#11)) ∧ (s 1029#11).inputs = [{ idleIn with fdRdAddr := 1029#11 }]) :=
  ⟨⟨completes_of_holds (p := fun _ => true) (by decide), rfl⟩,
    ⟨completes_of_holds (p := fun _ => true) (by decide), rfl⟩⟩

/-- Any payload and checksum byte can be the inputs of a state that meets the premises. -/
theorem frame_premises (p : List Byte) (c : Byte) : ∃ (s : State) (rest : List CycleIn), s.wiring = .separate ∧
    s.fd.st = stIdle ∧ s.inputs = stream (frameBytesWith p c) ++ rest :=
  ⟨{ start with inputs := stream (frameBytesWith p c) ++ [idleIn] }, [idleIn], rfl, rfl, rfl⟩

/-- The payload lengths at their bounds, and a right and a wrong checksum. -/
theorem witness_WellFormedFrameIsAccepted :
    (EncodableLength [(7#8 : Byte)].length ∧ 7#8 = sum8 [7#8] ∧ 8#8 ≠ sum8 [7#8]) ∧
    (∀ n, n = 255 ∨ n = 1029 → EncodableLength (List.replicate n (1#8 : Byte)).length) ∧
    ∀ (p : List Byte) (c : Byte), ∃ (s : State) (rest : List CycleIn), s.wiring = .separate ∧ s.fd.st = stIdle ∧
      s.inputs = stream (frameBytesWith p c) ++ rest := by
  refine ⟨by decide, fun n hn => ?_, frame_premises⟩
  rw [List.length_replicate]
  obtain rfl | rfl := hn <;> decide

/-- L1-1's stream, one byte a cycle, and the first bytes of it with a gap while BF is pushed to. -/
theorem witness_NoFrameWithoutSyncPair :
    (∃ (s : State) (l : List Byte) (rest : List CycleIn), s.wiring = .separate ∧ s.fd.st = stIdle ∧ NoSyncPair l ∧
      s.inputs = stream l ++ rest) ∧
    (let s : State := { start with inputs := [feed 0x55#8, push 0x55#8, feed 0xAA#8] };
      (∀ c ∈ s.inputs.take 3, c.rst = false) ∧ NoSyncPair (fedBytes (s.inputs.take 3)) ∧ Completes (run 3 s)) :=
  ⟨⟨{ start with inputs := stream [0x00#8, 0x55#8, 0xAA#8, 0x00#8, 0x55#8, 0xAA#8, 0xAA#8, 0x12#8] ++ [idleIn] },
    [0x00#8, 0x55#8, 0xAA#8, 0x00#8, 0x55#8, 0xAA#8, 0xAA#8, 0x12#8], [idleIn], rfl, rfl,
    by simp [NoSyncPair, sync1, sync2], rfl⟩,
    ⟨by decide, (by simp [NoSyncPair, sync1] : NoSyncPair [0x55#8, 0xAA#8]), completes_of_holds (p := fun _ => true) (by decide)⟩⟩

/-- The shortest frame and the longest. -/
theorem witness_NoResyncInsideAFrame :
    ∀ b : Byte, b = 1#8 ∨ b = 0#8 → ∃ (s : State) (l : List Byte) (rest : List CycleIn), s.wiring = .separate ∧
      s.fd.st = stReadLen ∧ l.length = (decodedLength b).toNat + 1 ∧ s.inputs = stream (b :: l) ++ rest := fun b _ =>
  ⟨{ fdAt stReadLen 0#11 0#11 0#8 [] with
      inputs := stream (b :: List.replicate ((decodedLength b).toNat + 1) 0xAA#8) ++ [] },
    List.replicate ((decodedLength b).toNat + 1) 0xAA#8, [], rfl, rfl, List.length_replicate .., rfl⟩

/-- FD's invariant does not depend on the inputs. -/
theorem start_fdInv (l : List CycleIn) : FdInv { start with inputs := l } :=
  have h := start_inv.fd
  ⟨h.st_le, h.len_legal, h.idx_le, h.payload, h.checksum, h.sum_eq, h.stored, h.buf_wf, h.buf_within, h.frame_lt, h.chk_lt,
    h.sync_lt⟩

/-- FD in IDLE takes any number of bytes 0x00, one a cycle. -/
theorem run_zeros (n : Nat) (s : State) (hw : s.wiring = .separate) (hs : s.fd.st = stIdle)
    (hi : s.inputs = List.replicate n (feed 0#8)) : Completes (run n s) := by
  induction n generalizing s with
  | zero => exact ⟨s, rfl⟩
  | succ n ih =>
    obtain ⟨t, h1, h2, -, -, h3, h4, -⟩ := step_feed hw hi fun h => absurd (hs.symm.trans h) (by decide)
    rw [run_succ n h1]
    exact ih t h3 (by rw [h2]; simp [fdAfter, hs, sync1]) h4

/-- 1032 bytes, one a cycle. -/
theorem witness_DecoderHealsItself :
    ∃ (s : State) (l : List Byte) (rest : List CycleIn), FdInv s ∧ s.wiring = .separate ∧ l.length = 1032 ∧
      s.inputs = stream l ++ rest ∧ (∀ c ∈ s.inputs.take 1032, c.rst = false) ∧
      1032 ≤ (fedBytes (s.inputs.take 1032)).length ∧ Completes (run 1032 s) := by
  generalize hn : (1032 : Nat) = n
  have hi : stream (List.replicate n 0#8) ++ [] = List.replicate n (feed 0#8) := by simp [stream]
  refine ⟨{ start with inputs := stream (List.replicate n 0#8) ++ [] }, List.replicate n 0#8, [], start_fdInv _,
    rfl, List.length_replicate .., rfl, ?_, ?_, run_zeros n _ rfl rfl hi⟩
  · intro c hc
    have hc : c ∈ List.replicate n (feed 0#8) := hi ▸ List.mem_of_mem_take hc
    rw [List.eq_of_mem_replicate hc]
    rfl
  · simp [hi, fedBytes, feed, List.take_replicate]

/-- Both windows at their last cycle: two cycles for `len`, three for `Buf[0]`. -/
theorem witness_FrameReadWindow :
    let s : State := { start with inputs := [feed 0xAA#8, feed 0x55#8, feed 0x01#8] }
    s.fd.st = stIdle ∧ (∀ c ∈ s.inputs, c.rst = false) ∧ Completes (run 2 s) ∧ Completes (run 3 s) :=
  ⟨rfl, by decide, completes_of_holds (p := fun _ => true) (by decide),
    completes_of_holds (p := fun _ => true) (by decide)⟩

/-- Every FD operation. -/
theorem witness_FrameDecoderFrames :
    [Instr.fdIdleSync1, .fdIdleOther 0#8, .fdSawSync1Sync2, .fdSawSync1Other 0#8, .fdLenZero, .fdLenNonzero 1#8,
      .fdPayloadMore 1#8, .fdPayloadLast 1#8, .fdChkMatch 1#8, .fdChkMismatch 1#8, .fdBadState 5#3 1#8].all
    (fun i => unitOf i == .fd && holds (exec i underway) (fun _ => true)) = true := by decide

/-- The smallest depth, with a byte stored on which FD goes on, with one that ends a sync pair wrongly, and with none. -/
theorem witness_ReceivePathDrainsTheFifo :
    let c : Config := { testConfig with fifoDepth := 2, legal := by decide }
    let s : State := { fifoOf [(0, 0xAA#8)] with cfg := c, wiring := .receivePath, inputs := [push 0x55#8] }
    let f : State := { s with fd := { s.fd with st := 1#3 } }
    let e : State := { start with cfg := c, wiring := .receivePath, inputs := [idleIn] }
    (BfInv s ∧ 2 ≤ s.cfg.fifoDepth ∧ s.bf.count = 1 ∧ s.nextIn.rst = false ∧ s.nextIn.hold = false ∧
      s.nextIn.bfPush = true ∧ s.fifoBytes = [0xAA#8] ∧ Completes (step s)) ∧
    (f.fifoBytes = [0xAA#8] ∧ holds (step f) (fun t => t.out.fdSyncErr) = true) ∧
    (BfInv e ∧ e.bf.count = 0 ∧ e.nextIn.rst = false ∧ e.nextIn.hold = false ∧ Completes (step e)) :=
  ⟨⟨⟨by decide, by decide, by decide, by decide, by decide, by decide, by decide⟩, by decide, rfl, rfl, rfl, rfl, rfl,
      completes_of_holds (p := fun _ => true) (by decide)⟩, ⟨rfl, by decide⟩,
    ⟨⟨by decide, by decide, by decide, by decide, by decide, by decide, by decide⟩, rfl, rfl, rfl,
      completes_of_holds (p := fun _ => true) (by decide)⟩⟩

/-- No byte and the longest length a 16-bit port carries. -/
theorem witness_RequestsAreAccepted :
    start.ne.phase = .idle ∧ (0 : Nat) < 2 ^ start.cfg.lenW ∧ ([] : List Byte).length = 0 ∧
    65535 < 2 ^ start.cfg.lenW ∧ (List.replicate 65535 0x01#8).length = 65535 :=
  ⟨rfl, by decide, rfl, by decide, List.length_replicate ..⟩

theorem witness_BusyEngineIgnoresRequests :
    underway.ne.phase = .run .wrPoll 1 ∧ underway.inputs = [underway.nextIn] := ⟨rfl, rfl⟩

/-- Data of another length, and of that length. -/
theorem witness_MalformedWriteIsRefused :
    let s := start.given (present ⟨4#3, 0#24, 2, [0xAB#8]⟩)
    s.ne.phase = .idle ∧ 2 < 2 ^ s.cfg.lenW ∧ [(0xAB#8 : Byte)].length ≠ 2 ∧ s.wiring = .separate ∧
      s.inputs = present ⟨4#3, 0#24, 2, [0xAB#8]⟩ :: [] ∧ [(0xAB#8 : Byte), 0xCD#8].length = 2 := by decide

/-- A request and the inputs after it can be the inputs of a state with NE idle and the units apart. -/
theorem sequence_premises (r : NeReq) (l : List CycleIn) : ∃ s : State, s.ne.phase = .idle ∧ s.wiring = .separate ∧
    65535 < 2 ^ s.cfg.lenW ∧ s.inputs = present r :: l :=
  ⟨{ start with inputs := present r :: l }, rfl, rfl, (by decide : 65535 < 2 ^ 16), rfl⟩

/-- Both answers ok, the first failing, the second failing, each at once and after a wait. -/
theorem witness_ResetSequence :
    ∀ l, l = answerAfter 0 (.ok []) ++ (answerAfter 9 (.ok []) ++ []) ∨ l = answerAfter 9 .err ++ [] ∨
      l = answerAfter 9 (.ok []) ++ (answerAfter 0 .err ++ []) →
      ∃ s : State, s.ne.phase = .idle ∧ s.wiring = .separate ∧ 65535 < 2 ^ s.cfg.lenW ∧
        s.inputs = present ⟨0#3, 0#24, 65535, []⟩ :: l := fun l _ => sequence_premises _ l

/-- With a budget of 0 too (V-NE-15). -/
theorem witness_WriteEnableSequence :
    (∃ c : Config, c.tWe = 0 ∧ busy c 0x01#8 = true ∧ 0 < 2 ^ c.lenW) ∧ busy testConfig 0x00#8 = false ∧
    ∀ l : List CycleIn, ∃ s : State, s.ne.phase = .idle ∧ s.wiring = .separate ∧
      s.inputs = present ⟨2#3, 0#24, 0, []⟩ :: l :=
  ⟨⟨{ testConfig with tWe := 0, legal := by decide }, rfl, by decide, by decide⟩, by decide,
    fun l => ⟨{ start with inputs := present ⟨2#3, 0#24, 0, []⟩ :: l }, rfl, rfl, rfl⟩⟩

/-- GET_STATUS, READ of three bytes and READ of none, each answered and failing. -/
theorem witness_StatusAndReadSequences :
    ([0xDE#8, 0xAD#8, (0xBE#8 : Byte)].length = 3 ∧ ([] : List Byte).length = 0) ∧
    ∀ (r : NeReq) (i : Nat) (a : BusAnswer), ∃ s : State, s.ne.phase = .idle ∧ s.wiring = .separate ∧
      65535 < 2 ^ s.cfg.lenW ∧ s.inputs = present r :: (answerAfter i a ++ []) :=
  ⟨⟨rfl, rfl⟩, fun _ _ _ => sequence_premises _ _⟩

theorem witness_EraseSequences :
    busy testConfig 0xFE#8 = false ∧ ∀ (op : BitVec 3) (l : List CycleIn), ∃ s : State, s.ne.phase = .idle ∧
      s.wiring = .separate ∧ 65535 < 2 ^ s.cfg.lenW ∧ s.inputs = present ⟨op, 0x001234#24, 0, []⟩ :: (l ++ []) :=
  ⟨by decide, fun _ _ => sequence_premises _ _⟩

theorem witness_ReservedCodeFinishesIllegal : ∃ s : State, s.ne.phase = .idle ∧ s.wiring = .separate ∧
    65535 < 2 ^ s.cfg.lenW ∧ s.inputs = present ⟨7#3, 0#24, 65535, []⟩ :: (answerAfter 9 .err ++ [idleIn]) :=
  sequence_premises _ _

/-- Two bytes around a page boundary (V-NE-5), and none (V-NE-6). -/
theorem witness_WriteSendsTheChunksInOrder :
    busy testConfig 0x00#8 = false ∧
    (∃ (s : State) (a : Addr) (d : List Byte) (rest : List CycleIn), s.ne.phase = .idle ∧ s.wiring = .separate ∧
      d.length < 2 ^ s.cfg.lenW ∧ d ≠ [] ∧ (chunkLaw d.length a d.length).length = 2 ∧
      s.inputs = present ⟨4#3, a, d.length, d⟩ ::
        (((chunkLaw d.length a d.length).flatMap fun _ => chunkAnswers 0x00#8) ++ rest)) ∧
    (∃ (s : State) (a : Addr) (rest : List CycleIn), s.ne.phase = .idle ∧ s.wiring = .separate ∧
      s.inputs = present ⟨4#3, a, 0, []⟩ :: ([answer .err] ++ rest)) :=
  ⟨by decide,
    ⟨{ start with inputs := present ⟨4#3, 0x0000FF#24, 2, [0xAB#8, 0xCD#8]⟩ ::
        (((chunkLaw 2 0x0000FF#24 2).flatMap fun _ => chunkAnswers 0x00#8) ++ []) },
      0x0000FF#24, [0xAB#8, 0xCD#8], [], rfl, rfl, by decide, by decide, by decide, rfl⟩,
    ⟨{ start with inputs := present ⟨4#3, 0x123456#24, 0, []⟩ :: ([answer .err] ++ []) }, 0x123456#24, [], rfl, rfl,
      rfl⟩⟩

/-- The smallest write, and V-NE-3's. -/
theorem witness_ChunkLawShape :
    1 ≤ 1 ∧ chunkLaw 1 0xFFFFFF#24 1 = [(0xFFFFFF#24, 1)] ∧ 1 ≤ 300 ∧
    (chunkLaw 300 0x000032#24 300).take 3 = [(0x000032#24, 206), (0x000100#24, 94)] := by decide

/-- Every position of a sending row, a chunk with one byte left, READ of the answered number of bytes. -/
theorem witness_SendingRowsEffects :
    [NePos.resetEnable, .resetMemory, .weWren, .seWren, .ceWren, .seErase, .ceErase].all (fun pos =>
      (neAt pos 0 0#24 0 []).ne.phase == .run pos 0) = true ∧
    (neAt .wrLoop 0 0#24 1 [7#8]).ne.off < (neAt .wrLoop 0 0#24 1 [7#8]).ne.rlen ∧
    (neAt .wrProgram 0 0#24 1 [7#8]).ne.phase = .run .wrProgram 0 ∧
    [(1#8 : Byte)].length = (neAt .read 0 0#24 1 []).ne.rlen ∧
    ({ neAt .resetEnable 0 0#24 0 [] with bus := some (.ok []) } : State).bus = some (.ok []) := by decide

/-- The status read, answered and failing; a first and a later poll, the later at the largest advance of the tick; a busy
status at the budget's end and just below it; a chunk that leaves bytes and one that leaves none. -/
theorem witness_StatusReadEffects :
    let late : State := { neAt .wrPoll 5 0x0000FF#24 2 [1#8, 2#8] with tickSince := 2 ^ 32 - 1, now := 5 }
    ((neAt .status 0 0#24 0 []).ne.phase = .run .status 0 ∧
      [BusAnswer.err, .ok [0x01#8]].all (fun a =>
        holds (exec .norRdsr { neAt .status 0 0#24 0 [] with bus := some a }) fun _ => true) = true) ∧
    (late.ne.phase = .run .wrPoll 5 ∧ pollBudget testConfig .wrPoll = some 5 ∧ late.tickSince < 2 ^ late.cfg.tickW ∧
      5 ≤ elapsed testConfig late.now late.ne.t0) ∧
    (let s : State := neAt .wrPoll 0 0#24 2 [1#8, 2#8];
      s.ne.phase = .run .wrPoll 0 ∧ elapsed testConfig s.now s.now < 5) ∧
    elapsed testConfig 4 late.ne.t0 < 5 ∧
    ((0x01#8 : Byte).getLsbD testConfig.busyBit = true ∧ (0xFE#8 : Byte).getLsbD testConfig.busyBit = false) ∧
    late.ne.off + min (256 - late.ne.curAddr.toNat % 256) (late.ne.rlen - late.ne.off) < late.ne.rlen ∧
    (let s : State := neAt .wrPoll 0 0#24 2 [1#8, 2#8];
      ¬ s.ne.off + min (256 - s.ne.curAddr.toNat % 256) (s.ne.rlen - s.ne.off) < s.ne.rlen) ∧
    (pollBudget testConfig .wePoll).isSome ∧ (pollBudget testConfig .wrWePoll).isSome ∧
    (pollBudget testConfig .seWePoll).isSome ∧ (pollBudget testConfig .ceWePoll).isSome ∧
    (pollBudget testConfig .sePoll).isSome ∧ (pollBudget testConfig .cePoll).isSome := by decide

theorem witness_FirstErrorEndsTheOperation :
    let s : State := { neAt .read 0 0x012345#24 3 [] with bus := some .err }
    s.ne.phase = .run .read 0 ∧ nePending s.ne .read = some (.norRead 0x012345#24 3) ∧ s.bus = some .err := by decide

/-- A program of one byte, up to the page's end. -/
theorem witness_ProgramsStayInsideAPage :
    let s : State := (neAt .wrProgram 0 0x0000FF#24 2 [0xAB#8, 0xCD#8])
    NeInv s ∧ s.ne.phase = .run .wrProgram 0 ∧ nePending s.ne .wrProgram = some (.norPp 0x0000FF#24 [0xAB#8]) :=
  ⟨⟨by rintro _ _ ⟨⟩; rfl, by decide, by decide, by decide, by decide, by rintro _ _ ⟨⟩ _; decide, by decide, by decide,
    by decide, by decide, by decide, by decide, by decide⟩, rfl, by decide⟩

/-- A first poll with a budget above 0, and a later one a millisecond before its budget's end. -/
theorem witness_StuckDevicePollsForever :
    let first : State := { neAt .sePoll 0 0#24 0 [] with inputs := List.replicate 9 (answer (.ok [0x01#8])) ++ [] }
    let later : State := { neAt .sePoll 3 0#24 0 [] with now := 399, inputs := List.replicate 9 (answer (.ok [0x01#8])) }
    (pollBudget testConfig .sePoll = some 400 ∧ busy testConfig 0x01#8 = true) ∧
    (first.wiring = .separate ∧ first.ne.phase = .run .sePoll 0 ∧ first.now < 2 ^ first.cfg.tickW ∧
      first.ne.t0 < 2 ^ first.cfg.tickW ∧ 0 < 400) ∧
    (later.ne.phase = .run .sePoll 3 ∧ elapsed later.cfg later.now later.ne.t0 < 400 ∧
      later.tickSince < 2 ^ later.cfg.tickW) := by decide

/-- The largest advance that is measured right, and the smallest that is refused. -/
theorem witness_TickArithmetic :
    ((2 ^ 32 - 1 : Nat) < 2 ^ testConfig.tickW) ∧
    (let s : State := { neAt .wePoll 1 0#24 0 [] with tickSince := 2 ^ 32, bus := some (.ok [0x01#8]) };
      s.ne.phase = .run .wePoll 1 ∧ pollBudget s.cfg .wePoll = some 10 ∧ (1 : Nat) ≠ 0 ∧
      2 ^ s.cfg.tickW ≤ s.tickSince ∧ s.bus = some (.ok [0x01#8]) ∧ busy s.cfg 0x01#8 = true) := by decide

/-- A step that finishes an operation and the one after it; a step that ends none and the one after it; a step while idle
without a request and with one. -/
theorem witness_DoneIsOneCycleAndResultsHold :
    let s := (neAt .resetMemory 0 0#24 0 []).given (answer (.ok []))
    let r := (neAt .resetEnable 0 0#24 0 []).given (answer (.ok []))
    (s.nextIn.rst = false ∧ s.ne.phase ≠ .idle ∧
      holds (step s) (fun t => t.ne.phase == .idle && !t.nextIn.rst && holds (step t) fun u => u.out.neDone) = true) ∧
    (r.nextIn.rst = false ∧
      holds (step r) (fun t => t.ne.phase != .idle && !t.nextIn.rst && holds (step t) fun u => !u.out.neDone) = true) ∧
    (start.nextIn.rst = false ∧ start.ne.phase = .idle ∧ start.nextIn.neReq = none ∧
      holds (step start) (fun _ => true) = true) ∧
    holds (step (start.given (present ⟨3#3, 0#24, 1, []⟩))) (fun _ => true) = true := by decide

/-- A finishing step for each of the five results. -/
theorem witness_ResultCodesHaveTheirOrigins :
    [((neAt .status 0 0#24 0 []).given (answer (.ok [0x00#8])), 0#3),
      ((neAt .status 0 0#24 0 []).given (answer (.ok [0x01#8])), 1#3),
      (({ neAt .wrPoll 1 0#24 1 [1#8] with now := 5 } : State).given (answer (.ok [0x01#8])), 2#3),
      ((neAt .read 0 0#24 1 []).given (answer .err), 3#3), ((neAt .illegal 0 0#24 0 []).given (answer .err), 7#3)].all
    (fun x => !x.1.nextIn.rst && holds (step x.1) (fun t => t.ne.done && t.ne.result == x.2)) = true := by decide

/-- A request row, a NOR row that goes on, one that finishes. -/
theorem witness_EngineFrames :
    (unitOf (.neGetStatus 0#24 0) = .ne ∧ norTx testConfig (.neGetStatus 0#24 0) = none ∧
      holds (exec (.neGetStatus 0#24 0) start) (fun t => t.ne.phase != .idle) = true) ∧
    (unitOf .norWren = .ne ∧ norTx testConfig .norWren ≠ none ∧
      holds (exec .norWren { neAt .weWren 0 0#24 0 [] with bus := some (.ok []) }) (fun t => t.ne.phase != .idle) = true) ∧
    (holds (exec .norRst { neAt .resetMemory 0 0#24 0 [] with bus := some .err }) (fun t => t.ne.phase == .idle) = true) := by
  decide

/-- A cycle with an event and one with none. -/
theorem witness_FrameEventsAreCounted :
    underway.nextIn.rst = false ∧ holds (step underway) (fun t => !t.out.fdFrameValid) = true ∧
    holds (step ((fdAt 4#3 1#11 1#11 1#8 []).given (feed 1#8))) (fun t => t.out.fdFrameValid) = true := by decide

end Sys2Proof.Tests
end

