-- ==== Sys2Proof/Proofs/Scope.lean ====
section
/-! PROOFS. Proofs/Scope.lean: the configuration's constraints (R7, R165) and the widths of the registers (R8). -/

namespace Sys2Proof

theorem Config.ofRaw_eq_none_iff (r : RawConfig) : Config.ofRaw r = none ↔ ¬ r.Legal := by
  unfold Config.ofRaw
  split
  · next legal => exact ⟨nofun, fun illegal => absurd legal illegal⟩
  · next illegal => exact ⟨fun _ => illegal, fun _ => rfl⟩

/-- The accepted configuration has the given parameters. -/
theorem Config.toRawConfig_of_ofRaw {r : RawConfig} {c : Config} (h : Config.ofRaw r = some c) :
    c.toRawConfig = r := by
  unfold Config.ofRaw at h
  split at h
  · cases h
    rfl
  · cases h

/-- A FIFO index fits `PTR_W` bits (R8). -/
theorem Config.lt_two_pow_ptrW {c : Config} {i : Nat} (h : i < c.fifoDepth) : i < 2 ^ c.ptrW :=
  calc i < c.fifoDepth := h
    _ ≤ 2 ^ Nat.clog 2 c.fifoDepth := Nat.le_pow_clog Nat.one_lt_two _
    _ ≤ 2 ^ c.ptrW := Nat.pow_le_pow_right Nat.two_pos (Nat.le_max_right _ _)

/-- A number of stored bytes, `FIFO_DEPTH` included, fits the count register (R8). -/
theorem Config.lt_two_pow_countW {c : Config} {n : Nat} (h : n ≤ c.fifoDepth) : n < 2 ^ c.countW :=
  calc n < c.fifoDepth + 1 := Nat.lt_succ_of_le h
    _ ≤ 2 ^ c.countW := Nat.le_pow_clog Nat.one_lt_two _

namespace Machine

theorem BfInv.tail_lt {s : State} (h : BfInv s) : s.bf.tail < s.cfg.fifoDepth := by
  rw [h.tail_eq]
  exact Nat.mod_lt _ (Nat.zero_lt_of_lt h.head_lt)

theorem FdInv.len_le_maxFrame {s : State} (h : FdInv s) : s.fd.len.toNat ≤ maxFrame := by
  unfold maxFrame
  rcases h.len_legal with hzero | hshort | hmax
  · omega
  · omega
  · exact hmax.le

/-- R40 ties `bytes_done` to the loop offset in a WRITE and to the latched length in a READ; elsewhere it is 0. -/
theorem NeInv.bytesDone_le_rlen {s : State} (h : NeInv s) : s.ne.bytesDone ≤ s.ne.rlen := by
  by_cases hwrite : s.ne.op = 4#3
  · exact (h.write_done hwrite).trans_le h.off_le
  by_cases hread : s.ne.op = 3#3
  · rcases h.read_done hread with hzero | hall
    · exact hzero.trans_le (Nat.zero_le _)
    · exact hall.le
  · exact (h.other_done hread hwrite).trans_le (Nat.zero_le _)

end Machine

open Machine

/-- Settles O15: `Config.ofRaw` tests exactly `RawConfig.Legal` and copies the parameters. -/
theorem illegalConfigurationIsRefused : Obligations.IllegalConfigurationIsRefused :=
  fun r => ⟨Config.ofRaw_eq_none_iff r, fun _ => Config.toRawConfig_of_ofRaw⟩

/-- Settles O16: the pointers and the count are bounded by `FIFO_DEPTH`, NE's offset and `bytes_done` by the latched
length, FD's index by its length; the other bounds are clauses of the invariant. -/
theorem registersFitTheirWidths : Obligations.RegistersFitTheirWidths := by
  intro s hs
  obtain ⟨hbf, hfd, hne, hnow⟩ := hs
  refine ⟨⟨?head, ?tail, ?count⟩, ⟨hbf.ovf_lt, hfd.frame_lt, hfd.chk_lt, hfd.sync_lt⟩,
    ⟨hne.rlen_lt, ?off, ?bytesDone⟩, ⟨hne.t0_lt, hnow⟩, ⟨hfd.len_le_maxFrame, ?idx⟩⟩
  case head => exact Config.lt_two_pow_ptrW hbf.head_lt
  case tail => exact Config.lt_two_pow_ptrW hbf.tail_lt
  case count => exact Config.lt_two_pow_countW hbf.count_le
  case off => exact hne.off_le.trans_lt hne.rlen_lt
  case bytesDone => exact hne.bytesDone_le_rlen.trans_lt hne.rlen_lt
  case idx => exact hfd.idx_le.trans hfd.len_le_maxFrame

end Sys2Proof
end

section
/-! PROOFS. BF's and FD's invariants over a cycle, and the queue that BF's ring refines. -/

namespace Sys2Proof.Machine

/-! ### BF -/

/-- One cycle of the ring from BF's invariant answers a next state. -/
theorem bfCycle_of_bfInv {s : State} (h : BfInv s) (p : Option Byte) (q : Bool) :
    bfCycle p q s = .next ((s.setBf (bfAfter s p q)).setOut (bfOutputs s p q)) :=
  bfCycle_eq_next.2 ⟨fifoIndexBad_eq_false.2 ⟨fun _ => h.head_lt, fun _ => h.tail_lt⟩, rfl⟩

/-- One cycle of the ring keeps BF's invariant. -/
theorem BfInv.cycle {s t : State} (h : BfInv s) {p : Option Byte} {q : Bool} (hb : t.bf = bfAfter s p q)
    (hc : t.cfg = s.cfg) (he : t.epoch = s.epoch) : BfInv t :=
  (bfInv_bfAfter h p q hb hc he).1

theorem length_fifoBytes (s : State) : s.fifoBytes.length = s.bf.count := by
  simp [State.fifoBytes]

theorem popValid_true_iff (s : State) : s.popValid true = true ↔ s.fifoBytes ≠ [] := by
  simp [← List.length_pos_iff, length_fifoBytes]

/-- The byte a pop returns is the queue's first. -/
theorem popData_true {s : State} (h : BfInv s) : s.popData true = s.fifoBytes.headD 0#8 := by
  unfold State.popData State.fifoBytes
  cases hc : s.bf.count with
  | zero => simp [hc]
  | succ n => simp [hc, List.range_succ_eq_map, Nat.mod_eq_of_lt h.head_lt]

/-- Popping removes the queue's first byte; where there is none, the queue is empty and stays so. -/
theorem popped_fifoBytes (s : State) :
    (if s.popValid true then s.fifoBytes.tail else s.fifoBytes) = s.fifoBytes.tail := by
  split
  · rfl
  · next h =>
    rw [popValid_true_iff, not_not] at h
    rw [h, List.tail_nil]

/-- Pushing adds the byte at the end where the queue was shorter than `FIFO_DEPTH`. -/
theorem append_pushed (s : State) (b : Byte) (l : List Byte) :
    l ++ (if s.pushAccepted (some b) then [b] else []) =
      if s.fifoBytes.length < s.cfg.fifoDepth then l ++ [b] else l := by
  by_cases h : s.bf.count < s.cfg.fifoDepth <;> simp [length_fifoBytes, h]

/-- BF's ring after one cycle: the invariant, the stored bytes, and the pop's outputs. -/
theorem bfCycle_refines {s : State} (h : BfInv s) (p : Option Byte) (q : Bool) :
    ∃ t, bfCycle p q s = .next t ∧ BfInv t ∧
      t.fifoBytes = (if s.popValid q then s.fifoBytes.tail else s.fifoBytes) ++
        (if s.pushAccepted p then [p.getD 0#8] else []) ∧
      t.out.bfPopValid = s.popValid q ∧ t.out.bfPopData = s.popData q := by
  obtain ⟨hinv, hbytes⟩ := bfInv_bfAfter (t := (s.setBf (bfAfter s p q)).setOut (bfOutputs s p q)) h p q rfl rfl rfl
  exact ⟨_, bfCycle_of_bfInv h p q, hinv, hbytes, rfl, rfl⟩

/-! ### FD's registers after a byte, state by state (R122 to R131) -/

theorem fdAfter_idle {fd : FdState} (h : fd.st = stIdle) (c : Config) (b : Byte) :
    fdAfter c fd b = if b = sync1 then { fd with st := stSawSync1 } else fd := by
  simp [fdAfter, h]

theorem fdAfter_sawSync1 {fd : FdState} (h : fd.st = stSawSync1) (c : Config) (b : Byte) :
    fdAfter c fd b =
      if b = sync2 then { fd with st := stReadLen }
      else { fd with st := stIdle, syncErrCnt := bump c.cntW fd.syncErrCnt } := by
  simp [fdAfter, h, show stSawSync1 ≠ stIdle by decide]

theorem fdAfter_readLen {fd : FdState} (h : fd.st = stReadLen) (c : Config) (b : Byte) :
    fdAfter c fd b = { fd with len := decodedLength b, idx := 0#11, sum := 0#8, st := stReadPayload } := by
  simp [fdAfter, h, show stReadLen ≠ stIdle by decide, show stReadLen ≠ stSawSync1 by decide]

theorem fdAfter_payload {fd : FdState} (h : fd.st = stReadPayload) (c : Config) (b : Byte) :
    fdAfter c fd b = { fd with
      buf := Memory.write fd.buf fd.idx.toNat b, idx := fd.idx + 1#11, sum := fd.sum + b
      st := if fd.idx.toNat + 1 < fd.len.toNat then stReadPayload else stReadChecksum } := by
  simp [fdAfter, h, show stReadPayload ≠ stIdle by decide, show stReadPayload ≠ stSawSync1 by decide,
    show stReadPayload ≠ stReadLen by decide]

theorem fdAfter_checksum {fd : FdState} (h : fd.st = stReadChecksum) (c : Config) (b : Byte) :
    fdAfter c fd b =
      if b = fd.sum then { fd with st := stIdle, frameCnt := bump c.cntW fd.frameCnt }
      else { fd with st := stIdle, chkErrCnt := bump c.cntW fd.chkErrCnt } := by
  simp [fdAfter, h, show stReadChecksum ≠ stIdle by decide, show stReadChecksum ≠ stSawSync1 by decide,
    show stReadChecksum ≠ stReadLen by decide, show stReadChecksum ≠ stReadPayload by decide]

/-- A code up to 4 is one of the five that R29 names. -/
theorem fdState_cases {st : BitVec 3} (h : st.toNat ≤ 4) :
    st = stIdle ∨ st = stSawSync1 ∨ st = stReadLen ∨ st = stReadPayload ∨ st = stReadChecksum := by
  revert st; decide

/-- A code up to 2 is none of a frame's. -/
theorem not_inFrame {st : BitVec 3} (h : st.toNat ≤ 2) : ¬ InFrame st := by
  revert st; decide

theorem bump_lt (w n : Nat) : bump w n < 2 ^ w := Nat.mod_lt _ (Nat.two_pow_pos w)

/-- Every LENGTH byte stands for a legal payload length (R71). -/
theorem decodedLength_encodable (b : Byte) : EncodableLength (decodedLength b).toNat := by
  unfold decodedLength
  split
  · exact .inr (by decide)
  · next h =>
    have hpos : b.toNat ≠ 0 := fun h0 => h (BitVec.eq_of_toNat_eq h0)
    rw [BitVec.toNat_setWidth]
    exact .inl (by omega)

/-! ### The payload in `Buf` -/

theorem State.bufBytes_succ (s : State) (n : Nat) : s.bufBytes (n + 1) = s.bufBytes n ++ [s.bufByte n] := by
  simp [State.bufBytes, List.range_succ]

/-- A byte stored at index `i` follows the `i` bytes below it. -/
theorem bufBytes_write {s t : State} {i : Nat} {b : Byte} (hbuf : t.fd.buf = Memory.write s.fd.buf i b)
    (he : t.epoch = s.epoch) : t.bufBytes (i + 1) = s.bufBytes i ++ [b] := by
  have hnew : t.bufByte i = b := by simp [State.bufByte, hbuf, read_write_self]
  have hold : ∀ k ∈ List.range i, t.bufByte k = s.bufByte k := fun k hk => by
    rw [State.bufByte, hbuf, he, read_write_ne _ _ (List.mem_range.1 hk).ne, State.bufByte]
  rw [State.bufBytes_succ, hnew, State.bufBytes, List.map_congr_left hold, State.bufBytes]

/-! ### FD's invariant -/

/-- FD's invariant speaks of its registers, `CNT_W` and the reset count alone. -/
theorem FdInv.of_fd {s t : State} (h : FdInv s) (hfd : t.fd = s.fd) (hc : t.cfg = s.cfg) (he : t.epoch = s.epoch) :
    FdInv t := by
  have hbytes : t.bufBytes = s.bufBytes := by
    funext n; unfold State.bufBytes State.bufByte; rw [hfd, he]
  constructor <;> simp only [hfd, hc, hbytes]
  exacts [h.st_le, h.len_legal, h.idx_le, h.payload, h.checksum, h.sum_eq, h.stored, h.buf_wf, h.buf_within, h.frame_lt,
    h.chk_lt, h.sync_lt]

/-- Outside a frame the invariant asks only for the code, the length, the index, the array and the counters. -/
theorem FdInv.outside_frame {s t : State} (h : FdInv s) {code : BitVec 3} {f e y : Nat}
    (hfd : t.fd = { s.fd with st := code, frameCnt := f, chkErrCnt := e, syncErrCnt := y }) (hc : t.cfg = s.cfg)
    (hcode : code.toNat ≤ 2) (hf : f < 2 ^ s.cfg.cntW) (he : e < 2 ^ s.cfg.cntW) (hy : y < 2 ^ s.cfg.cntW) :
    FdInv t := by
  have hout := not_inFrame hcode
  constructor <;> simp only [hfd, hc]
  case st_le => omega
  case len_legal => exact h.len_legal
  case idx_le => exact h.idx_le
  case payload => exact fun hst => absurd (.inl hst) hout
  case checksum => exact fun hst => absurd (.inr hst) hout
  case sum_eq => exact fun hst => absurd hst hout
  case stored => exact fun hst => absurd hst hout
  case buf_wf => exact h.buf_wf
  case buf_within => exact h.buf_within
  case frame_lt => exact hf
  case chk_lt => exact he
  case sync_lt => exact hy

/-- The LENGTH byte starts a frame with no payload byte yet. -/
theorem FdInv.start_payload {s t : State} (h : FdInv s) {n : BitVec 11}
    (hfd : t.fd = { s.fd with len := n, idx := 0#11, sum := 0#8, st := stReadPayload }) (hc : t.cfg = s.cfg)
    (hn : EncodableLength n.toNat) : FdInv t := by
  have hpos : 0 < n.toNat := by unfold EncodableLength maxFrame at hn; omega
  constructor <;> simp only [hfd, hc]
  case st_le => decide
  case len_legal => exact .inr hn
  case idx_le => exact Nat.zero_le _
  case payload => exact fun _ => hpos
  case checksum => exact fun hst => absurd hst (by decide)
  case sum_eq => exact fun _ => rfl
  case stored => exact fun _ k hk => absurd hk (Nat.not_lt_zero k)
  case buf_wf => exact h.buf_wf
  case buf_within => exact h.buf_within
  case frame_lt => exact h.frame_lt
  case chk_lt => exact h.chk_lt
  case sync_lt => exact h.sync_lt

/-- A payload byte is stored at `idx` and summed; the frame goes on to the next one or to its checksum byte. -/
theorem FdInv.take_payload {s t : State} (h : FdInv s) (hst : s.fd.st = stReadPayload) {b : Byte}
    (hfd : t.fd = fdAfter s.cfg s.fd b) (hc : t.cfg = s.cfg) (he : t.epoch = s.epoch) : FdInv t := by
  rw [fdAfter_payload hst] at hfd
  have hlt := h.payload hst
  have hmax : s.fd.idx.toNat < maxFrame := hlt.trans_le h.len_le_maxFrame
  have hidx : (s.fd.idx + 1#11).toNat = s.fd.idx.toNat + 1 := by
    unfold maxFrame at hmax
    rw [BitVec.toNat_add]
    exact Nat.mod_eq_of_lt (by simp; omega)
  have hbytes := bufBytes_write (congrArg FdState.buf hfd) he
  constructor <;> simp only [hfd, hc, hidx]
  case st_le => split <;> decide
  case len_legal => exact h.len_legal
  case idx_le => omega
  case payload =>
    split
    · next hmore => exact fun _ => hmore
    · exact fun hcode => absurd hcode (by decide)
  case checksum =>
    split
    · exact fun hcode => absurd hcode (by decide)
    · exact fun _ => ⟨BitVec.eq_of_toNat_eq (by omega), by omega⟩
  case sum_eq => rw [hbytes, sum8_append, ← h.sum_eq (.inl hst)]; exact fun _ => rfl
  case stored =>
    intro _ k hk
    rw [read_write]
    split
    · rfl
    · exact h.stored (.inl hst) k (by omega)
  case buf_wf => exact write_wf h.buf_wf _ _
  case buf_within => exact write_within h.buf_within hmax b
  case frame_lt => exact h.frame_lt
  case chk_lt => exact h.chk_lt
  case sync_lt => exact h.sync_lt

/-- A byte keeps FD's invariant, whichever row it selects. -/
theorem FdInv.take_byte {s t : State} (h : FdInv s) {b : Byte} (hfd : t.fd = fdAfter s.cfg s.fd b)
    (hc : t.cfg = s.cfg) (he : t.epoch = s.epoch) : FdInv t := by
  rcases fdState_cases h.st_le with hst | hst | hst | hst | hst
  · rw [fdAfter_idle hst] at hfd
    split at hfd
    · exact h.outside_frame hfd hc (by decide) h.frame_lt h.chk_lt h.sync_lt
    · exact h.of_fd hfd hc he
  · rw [fdAfter_sawSync1 hst] at hfd
    split at hfd
    · exact h.outside_frame hfd hc (by decide) h.frame_lt h.chk_lt h.sync_lt
    · exact h.outside_frame hfd hc (by decide) h.frame_lt h.chk_lt (bump_lt _ _)
  · exact h.start_payload (hfd.trans (fdAfter_readLen hst _ _)) hc (decodedLength_encodable b)
  · exact h.take_payload hst hfd hc he
  · rw [fdAfter_checksum hst] at hfd
    split at hfd
    · exact h.outside_frame hfd hc (by decide) (bump_lt _ _) h.chk_lt h.sync_lt
    · exact h.outside_frame hfd hc (by decide) h.frame_lt (bump_lt _ _) h.sync_lt

/-- FD's part of a cycle keeps its invariant, with a byte or without. -/
theorem FdInv.cycle {s t : State} (h : FdInv s) {c : CycleIn} (hfd : t.fd = fdPart c s) (hc : t.cfg = s.cfg)
    (he : t.epoch = s.epoch) : FdInv t := by
  unfold fdPart at hfd
  split at hfd
  · exact h.of_fd hfd hc he
  · exact h.take_byte hfd hc he

/-- FD takes any byte without stopping: in READ_PAYLOAD the index is below the length. -/
theorem FdInv.fdReady {s : State} (h : FdInv s) : FdReady s.fd :=
  fun hst => ⟨h.payload hst, (h.payload hst).trans_le h.len_le_maxFrame⟩

end Sys2Proof.Machine

namespace Sys2Proof

open Machine

/-- Settles O24: each operation is one cycle of the ring (`bfCycle_refines`), whose bytes are read as the queue's. -/
theorem fifoRefinesABoundedQueue : Obligations.FifoRefinesABoundedQueue := by
  intro s b h
  dsimp only
  refine ⟨length_fifoBytes s, ?nop, ?push, ?pop, ?pushPop⟩
  case nop =>
    obtain ⟨t, hstep, hinv, hbytes, -, -⟩ := bfCycle_refines h none false
    exact ⟨t, hstep, hinv, by simpa using hbytes⟩
  case push =>
    obtain ⟨t, hstep, hinv, hbytes, -, -⟩ := bfCycle_refines h (some b) false
    exact ⟨t, hstep, hinv, hbytes.trans (append_pushed s b _)⟩
  case pop =>
    obtain ⟨t, hstep, hinv, hbytes, hvalid, hdata⟩ := bfCycle_refines h none true
    rw [popped_fifoBytes] at hbytes
    exact ⟨t, hstep, hinv, by simpa using hbytes, by rw [hvalid, popValid_true_iff], hdata.trans (popData_true h)⟩
  case pushPop =>
    obtain ⟨t, hstep, hinv, hbytes, hvalid, hdata⟩ := bfCycle_refines h (some b) true
    rw [popped_fifoBytes] at hbytes
    exact ⟨t, hstep, hinv, hbytes.trans (append_pushed s b _), by rw [hvalid, popValid_true_iff],
      hdata.trans (popData_true h)⟩

end Sys2Proof
end

section
/-! PROOFS. NE's invariant over a cycle (R36 to R42). -/

namespace Sys2Proof.Machine

/-- NE's invariant without what it says of the phase and of `done`: the latch, the progress and the results. -/
structure NeRegs (c : Config) (ne : NeState) : Prop where
  wdata_len : ne.op = 4#3 → ne.wdata.length = ne.rlen
  wdata_nil : ne.op ≠ 4#3 → ne.wdata = []
  rlen_lt : c.LenFits ne.rlen
  off_le : ne.off ≤ ne.rlen
  cur_addr : ne.curAddr = ne.addr + BitVec.ofNat 24 ne.off
  write_done : ne.op = 4#3 → ne.bytesDone = ne.off
  read_done : ne.op = 3#3 → ne.bytesDone = 0 ∨ ne.bytesDone = ne.rlen
  other_done : ne.op ≠ 3#3 → ne.op ≠ 4#3 → ne.bytesDone = 0
  result_legal : LegalResult ne.result
  t0_lt : ne.t0 < 2 ^ c.tickW

/-- What the invariant says of NE running at a position: it is one of the latched operation's, and a chunk under way has
bytes left. -/
abbrev AtPos (ne : NeState) (pos : NePos) : Prop := ne.op = pos.opCode ∧ (InChunk pos → ne.off < ne.rlen)

/-- NE may go on to another position of the same operation; into a WRITE's chunk, with bytes left. -/
theorem AtPos.next {ne : NeState} {pos pos' : NePos} (hat : AtPos ne pos)
    (hchunk : ¬ InChunk pos' ∨ ne.off < ne.rlen) (hop : pos'.opCode = pos.opCode := by rfl) : AtPos ne pos' :=
  ⟨hat.1.trans hop.symm, fun hin => hchunk.resolve_left (not_not_intro hin)⟩

theorem NeInv.regs {s : State} (h : NeInv s) : NeRegs s.cfg s.ne := { h with }

theorem NeInv.atPos {s : State} (h : NeInv s) {pos : NePos} {k : Nat} (hp : s.ne.phase = .run pos k) : AtPos s.ne pos :=
  ⟨h.op_eq pos k hp, h.in_chunk pos k hp⟩

/-- NE idle meets its invariant when its registers do. -/
theorem NeRegs.inv_idle {s : State} (h : NeRegs s.cfg s.ne) (hp : s.ne.phase = .idle) : NeInv s :=
  have hrun : ∀ pos k, s.ne.phase ≠ .run pos k := fun _ _ hk => NePhase.noConfusion (hp.symm.trans hk)
  { h with
    op_eq := fun pos k hk => absurd hk (hrun pos k)
    in_chunk := fun pos k hk => absurd hk (hrun pos k)
    done_idle := fun _ => hp }

/-- NE running meets its invariant when its registers do, they are at its position, and `done` is low. -/
theorem NeRegs.inv_run {s : State} (h : NeRegs s.cfg s.ne) {pos : NePos} {k : Nat} (hp : s.ne.phase = .run pos k)
    (hat : AtPos s.ne pos) (hd : s.ne.done = false) : NeInv s :=
  have hpos : ∀ pos' k', s.ne.phase = .run pos' k' → pos' = pos := fun _ _ hk => by cases hp.symm.trans hk; rfl
  { h with
    op_eq := fun pos' k' hk => hpos pos' k' hk ▸ hat.1
    in_chunk := fun pos' k' hk => hpos pos' k' hk ▸ hat.2
    done_idle := fun hdone => absurd (hd.symm.trans hdone) Bool.false_ne_true }

/-- NE's invariant speaks of its registers and the configuration alone. -/
theorem NeInv.of_ne {s t : State} (h : NeInv s) (hne : t.ne = s.ne) (hc : t.cfg = s.cfg) : NeInv t := by
  constructor <;> simp only [hne, hc]
  exacts [h.op_eq, h.wdata_len, h.wdata_nil, h.rlen_lt, h.off_le, h.in_chunk, h.cur_addr, h.write_done, h.read_done,
    h.other_done, h.result_legal, h.t0_lt, h.done_idle]

/-- Sampling lowers `done` and leaves the rest of NE alone. -/
theorem NeInv.sampled {s : State} (h : NeInv s) (c : CycleIn) : NeInv (sample c s) :=
  { h with done_idle := nofun }

/-! ### How a step ends -/

theorem neInv_neFinish {s : State} (h : NeRegs s.cfg s.ne) {r : BitVec 3} (hr : LegalResult r) : NeInv (neFinish r s) :=
  NeRegs.inv_idle { h with result_legal := hr } rfl

theorem neInv_neGoto {s : State} (h : NeRegs s.cfg s.ne) {pos : NePos} (hat : AtPos s.ne pos) (k : Nat) :
    NeInv (neGoto pos k s) :=
  NeRegs.inv_run { h with } rfl hat rfl

/-- The results that a `finish` of the model names are legal (R79). -/
theorem legalResult_ok : LegalResult resOk := by decide
theorem legalResult_timeout : LegalResult resTimeout := by decide
theorem legalResult_transferError : LegalResult resTransferError := by decide

theorem legalResult_finishResult (pos : NePos) : LegalResult (finishResult pos) := by
  cases pos <;> decide

/-! ### The registers a step writes before it ends -/

theorem chunkLen_le (ne : NeState) : chunkLen ne ≤ ne.rlen - ne.off := Nat.min_le_right _ _

/-- An accepted request latches its fields and clears the progress (R151). -/
theorem NeRegs.accepted {c : Config} {ne : NeState} (h : NeRegs c ne) {pos : NePos} {n : Nat} {w : List Byte}
    (hn : c.LenFits n) (hlen : pos.opCode = 4#3 → w.length = n) (hnil : pos.opCode ≠ 4#3 → w = []) (a : Addr) :
    NeRegs c (neAccepted pos a n w ne) where
  wdata_len := hlen
  wdata_nil := hnil
  rlen_lt := hn
  off_le := Nat.zero_le n
  cur_addr := (BitVec.add_zero a).symm
  write_done := fun _ => rfl
  read_done := fun _ => .inl rfl
  other_done := fun _ _ => rfl
  result_legal := h.result_legal
  t0_lt := h.t0_lt

theorem NeRegs.sampleT0 {s : State} (h : NeRegs s.cfg s.ne) (hnow : s.now < 2 ^ s.cfg.tickW) (k : Nat) :
    NeRegs (sampleT0 k s).cfg (sampleT0 k s).ne := by
  rw [sampleT0_eq]
  refine { h with t0_lt := ?_ }
  show (if k = 0 then s.now else s.ne.t0) < _
  split
  · exact hnow
  · exact h.t0_lt

/-- `rdata` may hold anything, and a READ's `bytes_done` is the latched length once its bytes are there (R40, R158). -/
theorem NeRegs.readBytes {c : Config} {ne : NeState} (h : NeRegs c ne) (hop : ne.op = 3#3) (rx : List Byte) :
    NeRegs c { ne with rdata := rx, bytesDone := ne.rlen } :=
  { h with
    write_done := fun h4 => absurd (hop.symm.trans h4) (by decide)
    read_done := fun _ => .inr rfl
    other_done := fun h3 => absurd hop h3 }

/-- A programmed chunk moves `off`, `bytes_done` and `cur_addr` on by its length (R159). -/
theorem NeRegs.chunk {c : Config} {ne : NeState} (h : NeRegs c ne) (hop : ne.op = 4#3) :
    NeRegs c { ne with
      off := ne.off + chunkLen ne, bytesDone := ne.off + chunkLen ne
      curAddr := ne.curAddr + BitVec.ofNat 24 (chunkLen ne) } :=
  { h with
    off_le := by
      have hlen := chunkLen_le ne
      have hoff := h.off_le
      show ne.off + chunkLen ne ≤ ne.rlen
      omega
    cur_addr := by
      show ne.curAddr + _ = ne.addr + _
      rw [h.cur_addr, BitVec.add_assoc, BitVec.ofNat_add]
    write_done := fun _ => rfl
    read_done := fun h3 => absurd (hop.symm.trans h3) (by decide)
    other_done := fun _ h4 => absurd hop h4 }

/-! ### How NE's sequence goes on -/

theorem neInv_chunkDone {s : State} (h : NeRegs s.cfg s.ne) (hop : s.ne.op = 4#3) : NeInv (chunkDone s) := by
  unfold chunkDone
  dsimp only
  split
  · exact neInv_neGoto (h.chunk hop) ⟨hop, fun hin => absurd hin (by decide)⟩ 0
  · exact neInv_neFinish (h.chunk hop) legalResult_ok

theorem neInv_pollPassed {s : State} (h : NeRegs s.cfg s.ne) {pos : NePos} (hat : AtPos s.ne pos) :
    NeInv (pollPassed pos s) := by
  cases pos <;> simp only [pollPassed]
  case wrWePoll => exact neInv_neGoto h (hat.next (.inr (hat.2 (by decide)))) 0
  case seWePoll | ceWePoll => exact neInv_neGoto h (hat.next (.inl (by decide))) 0
  case wrPoll => exact neInv_chunkDone h hat.1
  all_goals exact neInv_neFinish h legalResult_ok

theorem neInv_pollStep {s t : State} (h : NeRegs s.cfg s.ne) {pos : NePos} (hat : AtPos s.ne pos)
    (hnow : s.now < 2 ^ s.cfg.tickW) {b k : Nat} {ans : BusAnswer} (hs : pollStep b pos k ans s = .next t) :
    NeInv t := by
  have hregs := h.sampleT0 hnow k
  have hat' : AtPos (sampleT0 k s).ne pos := by rw [sampleT0_eq]; exact hat
  unfold pollStep at hs
  cases ans with
  | err => cases hs; exact neInv_neFinish hregs legalResult_transferError
  | ok rx =>
    dsimp only at hs
    split_ifs at hs
    · cases hs; exact neInv_neFinish hregs legalResult_timeout
    · cases hs; exact (neInv_neGoto hregs hat' (k + 1)).of_ne rfl rfl
    · cases hs; exact neInv_pollPassed hregs hat'

theorem neInv_sendThen {s t : State} (h : NeRegs s.cfg s.ne) {ans : BusAnswer} {next : State → State}
    (hs : sendThen ans next s = .next t) (hnext : NeInv (next s)) : NeInv t := by
  cases ans with
  | err => cases hs; exact neInv_neFinish h legalResult_transferError
  | ok rx => cases hs; exact hnext

theorem neInv_statusDone {s : State} (h : NeRegs s.cfg s.ne) (ans : BusAnswer) : NeInv (statusDone ans s) := by
  cases ans with
  | err => exact neInv_neFinish h legalResult_transferError
  | ok rx =>
    refine neInv_neFinish h ?_
    split <;> decide

theorem neInv_readDone {s : State} (h : NeRegs s.cfg s.ne) (hop : s.ne.op = 3#3) (ans : BusAnswer) :
    NeInv (readDone ans s) := by
  cases ans with
  | err => exact neInv_neFinish (s := s.setNe { s.ne with rdata := [] }) { h with } legalResult_transferError
  | ok rx =>
    exact neInv_neFinish (s := s.setNe { s.ne with rdata := rx, bytesDone := s.ne.rlen }) (h.readBytes hop rx)
      legalResult_ok

/-- Whatever NE's sequence is at and however its transaction was answered, going on keeps NE's invariant. -/
theorem neInv_advance {s t : State} (h : NeRegs s.cfg s.ne) {pos : NePos} (hat : AtPos s.ne pos)
    (hoff : pos = .wrLoop → s.ne.off < s.ne.rlen) (hnow : s.now < 2 ^ s.cfg.tickW) {k : Nat} {ans : BusAnswer}
    (hs : advance pos k ans s = .next t) : NeInv t := by
  cases pos <;> simp only [advance] at hs
  case wePoll | wrWePoll | wrPoll | seWePoll | sePoll | ceWePoll | cePoll => exact neInv_pollStep h hat hnow hs
  case resetMemory => exact neInv_sendThen h hs (neInv_neFinish h legalResult_ok)
  case wrLoop => exact neInv_sendThen h hs (neInv_neGoto h (hat.next (.inr (hoff rfl))) 0)
  case wrProgram => exact neInv_sendThen h hs (neInv_neGoto h (hat.next (.inr (hat.2 (by decide)))) 0)
  case resetEnable | weWren | seWren | seErase | ceWren | ceErase =>
    exact neInv_sendThen h hs (neInv_neGoto h (hat.next (.inl (by decide))) 0)
  case status => cases hs; exact neInv_statusDone h ans
  case read => cases hs; exact neInv_readDone h hat.1 ans
  case illegal => cases hs

/-- NE's step keeps its invariant. -/
theorem NeInv.cycle {c : CycleIn} {s v : State} (h : NeInv s) (hs : neStep c s (sample c s) = .next v) : NeInv v := by
  have hsample := h.sampled c
  rcases neStep_cases hs with ⟨-, -, rfl⟩ | ⟨-, r, pos, w, -, hop, hwr, hw, hout, hfits, hlen, rfl⟩ |
    ⟨pos, k, hp, ⟨-, rfl⟩ | ⟨-, -, -, rfl⟩ | ⟨a, i, -, hi, -, ha⟩⟩
  case inl => exact hsample
  case inr.inl =>
    refine NeRegs.inv_run (pos := pos) (k := 0) (hsample.regs.accepted hfits ?_ ?_ _) rfl
      ⟨rfl, fun hin => absurd hin hout⟩ rfl
    · exact fun h4 => hlen (hwr.2 (hop ▸ h4))
    · exact fun h4 => by rw [hw, if_neg (hop ▸ h4)]
  case inr.inr.inl => exact hsample
  case inr.inr.inr.inl => exact neInv_neFinish hsample.regs (legalResult_finishResult pos)
  case inr.inr.inr.inr =>
    refine neInv_advance (s := issued i (sample c s)) hsample.regs (hsample.atPos hp) ?_
      (Nat.mod_lt _ (Nat.two_pow_pos _)) ha
    rintro rfl
    by_contra hoff
    simp [nePending, show ¬ s.ne.off < s.ne.rlen from hoff] at hi

/-- NE's step never faults: it only issues what its position has pending. -/
theorem neStep_ne_fault (c : CycleIn) (s : State) (f : Fault) : neStep c s (sample c s) ≠ .fault f := by
  cases hp : s.ne.phase with
  | idle =>
    cases hc : c.neReq with
    | none => rw [neStep_idle hp hc]; exact nofun
    | some r =>
      obtain ⟨pos, w, -, -, -, -, he⟩ := exec_decodeNe r (sample c s)
      rw [neStep_request hp hc, he]
      exact neRequest_ne_fault _ _ _ _ _ _
  | run pos k =>
    cases hc : c.bus with
    | none => rw [neStep_held hp hc]; exact nofun
    | some a =>
      cases hi : nePending s.ne pos with
      | none => rw [neStep_finish hp hc hi]; exact nofun
      | some i =>
        cases hf : answerFits (rxCount s.cfg i) a with
        | false => rw [neStep_misfit hp hc hi hf]; exact nofun
        | true => rw [neStep_answer hp hc hi hf]; exact advance_ne_fault hi _ _ _ _

/-! ### The whole block -/

/-- From the invariant BF and FD do not stop. -/
theorem State.Inv.bytesReady {s : State} (h : s.Inv) (c : CycleIn) : BytesReady c s :=
  ⟨fifoIndexBad_eq_false.2 ⟨fun _ => h.bf.head_lt, fun _ => h.bf.tail_lt⟩, fun _ _ => h.fd.fdReady⟩

/-- The registers of R221 meet the units' invariants, whatever the configuration. -/
theorem resetBlock_inv (s : State) (hnow : s.now < 2 ^ s.cfg.tickW) : (resetBlock s).Inv where
  bf := {
    head_lt := s.cfg.legal.1
    count_le := Nat.zero_le _
    tail_eq := (Nat.zero_mod _).symm
    ovf_lt := Nat.two_pow_pos _
    mem_wf := nil_wf
    mem_within := nofun
    stored := nofun }
  fd := {
    st_le := show stIdle.toNat ≤ 4 by decide
    len_legal := .inl rfl
    idx_le := Nat.le_refl _
    payload := fun hst => absurd hst (show stIdle ≠ stReadPayload by decide)
    checksum := fun hst => absurd hst (show stIdle ≠ stReadChecksum by decide)
    sum_eq := fun hst => absurd hst (show ¬ InFrame stIdle by decide)
    stored := fun hst => absurd hst (show ¬ InFrame stIdle by decide)
    buf_wf := nil_wf
    buf_within := nofun
    frame_lt := Nat.two_pow_pos _
    chk_lt := Nat.two_pow_pos _
    sync_lt := Nat.two_pow_pos _ }
  ne := NeRegs.inv_idle {
    wdata_len := fun _ => rfl
    wdata_nil := fun _ => rfl
    rlen_lt := Nat.two_pow_pos _
    off_le := Nat.le_refl _
    cur_addr := rfl
    write_done := fun _ => rfl
    read_done := fun _ => .inl rfl
    other_done := fun _ _ => rfl
    result_legal := legalResult_ok
    t0_lt := Nat.two_pow_pos _ } rfl
  now_lt := hnow

/-- Outside reset each unit keeps its part of the invariant, and the tick input is taken modulo `2^TICK_W`. -/
theorem State.Inv.of_step {s t : State} (h : s.Inv) (hr : s.nextIn.rst = false) (hs : step s = .next t) : t.Inv := by
  obtain ⟨-, ne, ts, x, hne, rfl⟩ := step_next_eq hr hs
  exact ⟨h.bf.cycle rfl rfl rfl, h.fd.cycle rfl rfl rfl, (h.ne.cycle hne).of_ne rfl rfl,
    Nat.mod_lt _ (Nat.two_pow_pos _)⟩

end Sys2Proof.Machine

namespace Sys2Proof

open Machine

/-- Settles O2: a reset cycle writes registers that meet the invariant, and outside reset each unit keeps its part. -/
theorem everyStepKeepsInvariant : Obligations.EveryStepKeepsInvariant := by
  intro s t h hs
  cases hr : s.nextIn.rst with
  | true =>
    rw [step, cycle_reset _ _ hr] at hs
    cases hs
    exact ⟨resetBlock_inv _ (Nat.mod_lt _ (Nat.two_pow_pos _)), rfl, rfl, rfl⟩
  | false =>
    refine ⟨h.of_step hr hs, ?_⟩
    obtain ⟨-, ne, ts, x, -, rfl⟩ := step_next_eq hr hs
    exact ⟨rfl, rfl, rfl⟩

/-- Settles O3: BF and FD do not stop under the invariant, and NE's step has no fault of its own. -/
theorem invariantStatesNeverFault : Obligations.InvariantStatesNeverFault := by
  intro s f h hs
  cases hr : s.nextIn.rst with
  | true =>
    rw [step, cycle_reset _ _ hr] at hs
    cases hs
  | false =>
    rw [step_eq hr (h.bytesReady _), mapNext, andThen_eq_fault] at hs
    rcases hs with hne | ⟨v, -, hv⟩
    · exact neStep_ne_fault _ _ _ hne
    · cases hv

end Sys2Proof
end

section
/-! PROOFS. What an NE step writes, and how it ends (R42, R152). -/

namespace Sys2Proof.Machine

/-- An NE step ends by going on to a position, or by a `finish`; only a `finish` writes `result` and raises `done`. -/
inductive StepEnd (ne : NeState) : NeState → Prop where
  | goto (pos : NePos) (k : Nat) : StepEnd ne { ne with phase := .run pos k, done := false }
  | finish (r : BitVec 3) : StepEnd ne { ne with result := r, done := true, phase := .idle }

/-- The registers a NOR row may write before its step ends: the latch and `result` stand, and each other register is
written by its own rows alone. -/
structure RowWrites (i : Instr) (ne ne' : NeState) : Prop where
  op : ne'.op = ne.op
  addr : ne'.addr = ne.addr
  rlen : ne'.rlen = ne.rlen
  wdata : ne'.wdata = ne.wdata
  result : ne'.result = ne.result
  t0 : i ≠ .norRdsr → ne'.t0 = ne.t0
  curAddr : i ≠ .norRdsr → ne'.curAddr = ne.curAddr
  off : i ≠ .norRdsr → ne'.off = ne.off
  rdata : (∀ a n, i ≠ .norRead a n) → ne'.rdata = ne.rdata
  bytesDone : i ≠ .norRdsr → (∀ a n, i ≠ .norRead a n) → ne'.bytesDone = ne.bytesDone

/-- NE's registers after a row's step: the row's own writes, then the step's end. -/
def RowEnds (i : Instr) (ne ne' : NeState) : Prop := ∃ mid, RowWrites i ne mid ∧ StepEnd mid ne'

theorem RowWrites.refl (i : Instr) (ne : NeState) : RowWrites i ne ne := by
  constructor <;> intros <;> rfl

/-- A poll may write `t0` and, when it completes a chunk, the progress (R153, R159). -/
theorem rowWrites_poll (ne : NeState) (t0 off done : Nat) (a : Addr) :
    RowWrites .norRdsr ne { ne with t0 := t0, off := off, bytesDone := done, curAddr := a } :=
  { RowWrites.refl .norRdsr ne with
    t0 := fun h => absurd rfl h
    curAddr := fun h => absurd rfl h
    off := fun h => absurd rfl h
    bytesDone := fun h => absurd rfl h }

/-- A READ's transaction may write `rdata` and `bytes_done` (R158). -/
theorem rowWrites_read (a : Addr) (n : Nat) (ne : NeState) (rx : List Byte) (done : Nat) :
    RowWrites (.norRead a n) ne { ne with rdata := rx, bytesDone := done } :=
  { RowWrites.refl (.norRead a n) ne with
    rdata := fun h => absurd rfl (h a n)
    bytesDone := fun _ h => absurd rfl (h a n) }

theorem StepEnd.done_iff {ne ne' : NeState} (h : StepEnd ne ne') : ne'.done = true ↔ ne'.phase = .idle := by
  cases h <;> simp

/-- A step's end writes the phase, `done` and, where it finishes the operation, `result`. -/
theorem StepEnd.eq {ne ne' : NeState} (h : StepEnd ne ne') :
    ∃ p r d, ne' = { ne with phase := p, result := r, done := d } ∧ (p ≠ .idle → r = ne.result) := by
  cases h with
  | goto pos k => exact ⟨.run pos k, ne.result, false, rfl, fun _ => rfl⟩
  | finish r => exact ⟨.idle, r, true, rfl, fun h => absurd rfl h⟩

theorem rowEnds_neFinish (i : Instr) (r : BitVec 3) (s : State) : RowEnds i s.ne (neFinish r s).ne :=
  ⟨s.ne, .refl i s.ne, .finish r⟩

theorem rowEnds_neGoto (i : Instr) (pos : NePos) (k : Nat) (s : State) : RowEnds i s.ne (neGoto pos k s).ne :=
  ⟨s.ne, .refl i s.ne, .goto pos k⟩

theorem rowEnds_sendThen {i : Instr} {s t : State} {ans : BusAnswer} {next : State → State}
    (hs : sendThen ans next s = .next t) (hnext : RowEnds i s.ne (next s).ne) : RowEnds i s.ne t.ne := by
  cases ans with
  | err => cases hs; exact rowEnds_neFinish i _ s
  | ok rx => cases hs; exact hnext

/-- A poll may do no more than sample `t0` before its step ends. -/
theorem rowEnds_sampled {ne ne' : NeState} {t0 : Nat} (h : StepEnd { ne with t0 := t0 } ne') :
    RowEnds .norRdsr ne ne' :=
  ⟨_, rowWrites_poll ne t0 ne.off ne.bytesDone ne.curAddr, h⟩

/-- Passing a poll whose `t0` was sampled as `t0`. -/
theorem rowEnds_pollPassed (pos : NePos) (s : State) (t0 : Nat) :
    RowEnds .norRdsr s.ne (pollPassed pos (s.setNe { s.ne with t0 := t0 })).ne := by
  cases pos
  case wrWePoll | seWePoll | ceWePoll => exact rowEnds_sampled (.goto _ 0)
  case wrPoll =>
    refine ⟨_, rowWrites_poll s.ne t0 (s.ne.off + chunkLen s.ne) (s.ne.off + chunkLen s.ne)
      (s.ne.curAddr + BitVec.ofNat 24 (chunkLen s.ne)), ?_⟩
    simp only [pollPassed, chunkDone]
    split
    · exact .goto .wrLoop 0
    · exact .finish resOk
  all_goals exact rowEnds_sampled (.finish resOk)

theorem rowEnds_pollStep {s t : State} {b : Nat} {pos : NePos} {k : Nat} {ans : BusAnswer}
    (hs : pollStep b pos k ans s = .next t) : RowEnds .norRdsr s.ne t.ne := by
  unfold pollStep at hs
  rw [sampleT0_eq] at hs
  generalize (if k = 0 then s.now else s.ne.t0) = t0 at hs
  cases ans with
  | err => cases hs; exact rowEnds_sampled (.finish _)
  | ok rx =>
    dsimp only at hs
    split_ifs at hs
    · cases hs; exact rowEnds_sampled (.finish _)
    · cases hs; exact rowEnds_sampled (.goto pos (k + 1))
    · cases hs; exact rowEnds_pollPassed pos s t0

theorem rowEnds_readDone (a : Addr) (n : Nat) (ans : BusAnswer) (s : State) :
    RowEnds (.norRead a n) s.ne (readDone ans s).ne := by
  cases ans with
  | err => exact ⟨_, rowWrites_read a n s.ne [] s.ne.bytesDone, .finish _⟩
  | ok rx => exact ⟨_, rowWrites_read a n s.ne rx s.ne.rlen, .finish _⟩

/-- However NE's sequence goes on, it makes the writes of the row it issued, and the step ends. -/
theorem rowEnds_advance {s t : State} {pos : NePos} {k : Nat} {i : Instr} {ans : BusAnswer}
    (hi : nePending s.ne pos = some i) (hs : advance pos k ans s = .next t) : RowEnds i s.ne t.ne := by
  cases pos <;> simp only [advance] at hs
  case wePoll | wrWePoll | wrPoll | seWePoll | sePoll | ceWePoll | cePoll => cases hi; exact rowEnds_pollStep hs
  case resetMemory => exact rowEnds_sendThen hs (rowEnds_neFinish _ _ _)
  case resetEnable | weWren | wrLoop | wrProgram | seWren | seErase | ceWren | ceErase =>
    exact rowEnds_sendThen hs (rowEnds_neGoto _ _ _ _)
  case status =>
    cases hs
    cases ans <;> exact rowEnds_neFinish _ _ s
  case read => cases hi; cases hs; exact rowEnds_readDone _ _ ans s
  case illegal => cases hs

end Sys2Proof.Machine
end

section
/-! PROOFS. The frames of the units' operations, and what a step shows and counts. -/

namespace Sys2Proof.Machine

/-! ### NE's part of a step -/

/-- NE's registers after a step outside reset are those its own step answers. -/
theorem step_ne {s t : State} (hr : s.nextIn.rst = false) (hs : step s = .next t) :
    ∃ v, neStep s.nextIn s (sample s.nextIn s) = .next v ∧ t.ne = v.ne := by
  obtain ⟨-, ne, ts, x, hne, rfl⟩ := step_next_eq hr hs
  exact ⟨_, hne, rfl⟩

/-- Outside reset a step leaves `done` high exactly when it finishes an operation (R42). -/
theorem step_done_iff {s t : State} (hr : s.nextIn.rst = false) (hs : step s = .next t) :
    t.ne.done = true ↔ s.ne.phase ≠ .idle ∧ t.ne.phase = .idle := by
  obtain ⟨v, hv, ht⟩ := step_ne hr hs
  rw [ht]
  rcases neStep_cases hv with ⟨hp, -, rfl⟩ | ⟨hp, r, pos, w, -, -, -, -, -, -, -, rfl⟩ |
    ⟨pos, k, hp, ⟨-, rfl⟩ | ⟨-, -, -, rfl⟩ | ⟨a, i, -, hi, -, ha⟩⟩
  case inl => simp [hp]
  case inr.inl => simp [hp, neAccepted]
  case inr.inr.inl => simp [hp]
  case inr.inr.inr.inl => simp [hp]
  case inr.inr.inr.inr =>
    obtain ⟨mid, -, hend⟩ := rowEnds_advance (s := issued i (sample s.nextIn s)) hi ha
    simp [hp, hend.done_iff]

/-- While NE is idle a step outside reset keeps `result` and `rdata`; without a request, `bytes_done` and the phase
too. -/
theorem step_idle_holds {s t : State} (hr : s.nextIn.rst = false) (hs : step s = .next t) (hp : s.ne.phase = .idle) :
    t.ne.result = s.ne.result ∧ t.ne.rdata = s.ne.rdata ∧
      (s.nextIn.neReq = none → t.ne.bytesDone = s.ne.bytesDone ∧ t.ne.phase = .idle) := by
  obtain ⟨v, hv, ht⟩ := step_ne hr hs
  rw [ht]
  cases hq : s.nextIn.neReq with
  | none =>
    rw [neStep_idle hp hq] at hv
    cases hv
    exact ⟨rfl, rfl, fun _ => ⟨rfl, hp⟩⟩
  | some r =>
    obtain ⟨pos, w, -, -, -, -, he⟩ := exec_decodeNe r (sample s.nextIn s)
    rw [neStep_request hp hq, he, neRequest_eq_next] at hv
    rcases hv with ⟨-, rfl⟩ | ⟨-, -, -, rfl⟩ <;> exact ⟨rfl, rfl, nofun⟩

/-! ### FD's counters -/

/-- A byte adds 1 to each counter whose event it raises and leaves the others alone (R34, R190). -/
theorem fdAfter_counters (c : Config) (fd : FdState) (b : Byte) :
    (fdAfter c fd b).frameCnt = (if fdFrame fd b then bump c.cntW fd.frameCnt else fd.frameCnt) ∧
    (fdAfter c fd b).chkErrCnt = (if fdChkBad fd b then bump c.cntW fd.chkErrCnt else fd.chkErrCnt) ∧
    (fdAfter c fd b).syncErrCnt = (if fdSyncBad fd b then bump c.cntW fd.syncErrCnt else fd.syncErrCnt) := by
  unfold fdFrame fdChkBad fdSyncBad
  by_cases hsync : fd.st = stSawSync1
  · rw [fdAfter_sawSync1 hsync]
    have hne : stSawSync1 ≠ stReadChecksum := by decide
    by_cases hb : b = sync2 <;> simp [hsync, hne, hb]
  by_cases hchk : fd.st = stReadChecksum
  · rw [fdAfter_checksum hchk]
    have hne : stReadChecksum ≠ stSawSync1 := by decide
    by_cases hb : b = fd.sum <;> simp [hchk, hne, hb]
  · have hkeep : (fdAfter c fd b).frameCnt = fd.frameCnt ∧ (fdAfter c fd b).chkErrCnt = fd.chkErrCnt ∧
        (fdAfter c fd b).syncErrCnt = fd.syncErrCnt := by
      unfold fdAfter
      rw [if_neg hsync, if_neg hchk]
      split_ifs <;> exact ⟨rfl, rfl, rfl⟩
    simpa [hsync, hchk] using hkeep

end Sys2Proof.Machine

namespace Sys2Proof

open Machine

/-- Settles O6: `levelOutputs` reads the pre-state, and no unit's part of a cycle, nor reset, writes a level output. -/
theorem levelOutputsShowThePreState : Obligations.LevelOutputsShowThePreState := by
  intro s t hs
  cases hr : s.nextIn.rst with
  | true =>
    rw [step, cycle_reset _ _ hr] at hs
    cases hs
    exact ⟨⟨rfl, rfl, rfl, rfl⟩, ⟨rfl, rfl, rfl, rfl, rfl, rfl, rfl⟩, rfl, rfl, rfl, rfl⟩
  | false =>
    obtain ⟨-, ne, ts, x, -, rfl⟩ := step_next_eq hr hs
    exact ⟨⟨rfl, rfl, rfl, rfl⟩, ⟨rfl, rfl, rfl, rfl, rfl, rfl, rfl⟩, rfl, rfl, rfl, rfl⟩

/-- Settles O7: by the unit of the operation, whose rows write that unit's registers and outputs alone. -/
theorem eachUnitIsWrittenByItsOwnOperation : Obligations.EachUnitIsWrittenByItsOwnOperation := by
  intro i s t hs
  cases hu : unitOf i with
  | bf =>
    obtain ⟨p, q, hcycle⟩ := exec_bf hu
    rw [hcycle, bfCycle_eq_next] at hs
    obtain ⟨-, rfl⟩ := hs
    exact ⟨fun h => absurd rfl h, fun _ => rfl, fun _ => ⟨rfl, rfl⟩, rfl, rfl, rfl, rfl, rfl, rfl⟩
  | fd =>
    obtain ⟨fd, v, e, y, rfl⟩ := exec_fd_only hu hs
    exact ⟨fun _ => rfl, fun h => absurd rfl h, fun _ => ⟨rfl, rfl⟩, rfl, rfl, rfl, rfl, rfl, rfl⟩
  | ne =>
    obtain ⟨ne, ts, x, rfl⟩ := exec_ne_only hu hs
    exact ⟨fun _ => rfl, fun _ => rfl, fun h => absurd rfl h, rfl, rfl, rfl, rfl, rfl, rfl⟩

/-- Settles O57: a step lowers `done` when it samples its inputs, and only a `finish` raises it again. -/
theorem doneIsOneCycleAndResultsHold : Obligations.DoneIsOneCycleAndResultsHold := by
  refine ⟨rfl, fun s t hr hs => ⟨step_done_iff hr hs, ?shown, fun u hr' hu => ?after, step_idle_holds hr hs⟩⟩
  case shown =>
    obtain ⟨-, ne, ts, x, -, rfl⟩ := step_next_eq hr hs
    rfl
  case after =>
    obtain ⟨hdone, hready⟩ : u.out.neDone = t.ne.done ∧ u.out.neReady = t.neReady := by
      obtain ⟨-, ne, ts, x, -, rfl⟩ := step_next_eq hr' hu
      exact ⟨rfl, rfl⟩
    refine ⟨by rw [hdone, step_done_iff hr hs], fun _ hidle => ⟨?_, ?_⟩⟩
    · rw [hready, State.neReady, hidle]; rfl
    · rw [Bool.eq_false_iff, ne_eq, step_done_iff hr' hu]
      exact fun hrun => hrun.1 hidle

/-- Settles O60: a cycle's event outputs are those of the byte FD takes, and so are its counters (`fdAfter_counters`). -/
theorem frameEventsAreCounted : Obligations.FrameEventsAreCounted := by
  intro s t hr hs
  obtain ⟨-, ne, ts, x, -, rfl⟩ := step_next_eq hr hs
  cases hb : fdByteIn s.nextIn s with
  | none => simp [fdPart, outPart, hb]
  | some b => simpa [fdPart, outPart, hb, bump] using fdAfter_counters s.cfg s.fd b

/-- Settles O59: a request is ignored or latched; a NOR row makes its own writes (`RowWrites`) and ends the step. -/
theorem engineFrames : Obligations.EngineFrames := by
  intro i s t hu hs
  obtain ⟨hbf, hfd, hout⟩ : t.bf = s.bf ∧ t.fd = s.fd ∧ { t.out with busTx := s.out.busTx } = s.out := by
    obtain ⟨ne, ts, x, rfl⟩ := exec_ne_only hu hs
    exact ⟨rfl, rfl, rfl⟩
  refine ⟨hbf, hfd, hout, fun hreq => ?request, fun hnor => ?nor⟩
  case request =>
    obtain ⟨pos, a, n, w, he⟩ : ∃ pos a n w, exec i s = neRequest pos a n w s := by
      cases i <;> simp only [norTx, encode, unitOf, reduceCtorEq] at hreq hu <;> exact ⟨_, _, _, _, rfl⟩
    rw [he, neRequest_eq_next] at hs
    rcases hs with ⟨-, rfl⟩ | ⟨-, -, -, rfl⟩ <;> exact ⟨rfl, rfl, rfl, rfl⟩
  case nor =>
    obtain ⟨pos, k, -, hi, ⟨-, rfl⟩ | ⟨a, -, -, ha⟩⟩ := exec_nor_next hnor hs
    · exact ⟨⟨rfl, rfl, rfl, rfl⟩, fun _ => ⟨rfl, rfl, rfl⟩, fun _ => rfl, fun _ _ => rfl, fun _ => rfl⟩
    · obtain ⟨mid, hw, hend⟩ := rowEnds_advance (s := issued i s) hi ha
      obtain ⟨p, r, d, hne, hresult⟩ := hend.eq
      rw [hne]
      exact ⟨⟨hw.op, hw.addr, hw.rlen, hw.wdata⟩, fun h => ⟨hw.t0 h, hw.curAddr h, hw.off h⟩, hw.rdata,
        hw.bytesDone, fun hrun => (hresult hrun).trans hw.result⟩

end Sys2Proof
end

section
/-! PROOFS. An operation placed in a state is what the next step performs. -/

namespace Sys2Proof.Machine

/-- A last part that changes nothing may be left out. -/
theorem andThen_next_right {k : State → Result} (h : ∀ s, k s = .next s) (r : Result) : andThen r k = r := by
  cases r <;> simp [h]

/-- A cycle outside reset with BF's ports at rest is FD's step and then NE's, on the sampled block. -/
theorem step_bfRest {s : State} (hr : s.nextIn.rst = false) (hpush : s.nextIn.bfPush = false)
    (hpop : bfPopIn s.nextIn s = false) :
    step s = andThen (fdStep s.nextIn s (sample s.nextIn s)) (neStep s.nextIn s) := by
  have hrow : bfRow s.nextIn s = .bfNop := by
    unfold bfRow
    rw [decodeBf_ports, hpush, hpop]
    rfl
  rw [step, cycle, hr, hrow, exec_bfNop_sample]
  rfl

/-- Placed at BF's port alone, BF's row is the whole step. -/
theorem step_queue_bf {c : CycleIn} {i : Instr} (s : State) (hr : c.rst = false) (hfd : c.fdInValid = false)
    (hreq : c.neReq = none) (hbus : c.bus = none) (hi : bfRow c (queue c s) = i) :
    step (queue c s) = exec i (sample c (queue c s)) := by
  have hbyte : fdByteIn c (queue c s) = none := by
    rw [fdByteIn_separate rfl, hfd]
    rfl
  show cycle c (queue c s) = _
  rw [cycle, hr, hi, if_neg Bool.false_ne_true, andThen_next_right]
  intro t
  rw [fdStep_none hbyte, andThen_next, neStep_quiet _ hreq hbus]

/-- Placed at FD, the row that the byte selects there is the whole step. -/
theorem step_placeFd {code : BitVec 3} {b : Byte} {s : State} {i : Instr} (hi : fdRow (placeFd code b s) b = .ok i) :
    step (placeFd code b s) = exec i (sample (feed b) (placeFd code b s)) := by
  have hbyte : fdByteIn (feed b) (placeFd code b s) = some b := fdByteIn_separate rfl
  rw [step_bfRest rfl rfl rfl, andThen_next_right fun t => neStep_quiet _ rfl rfl t]
  exact fdStep_some hbyte hi _

/-- A cycle outside reset with BF's and FD's ports at rest is NE's step on the sampled block. -/
theorem step_neAlone {s : State} (hr : s.nextIn.rst = false) (hpush : s.nextIn.bfPush = false)
    (hpop : bfPopIn s.nextIn s = false) (hbyte : fdByteIn s.nextIn s = none) :
    step s = neStep s.nextIn s (sample s.nextIn s) := by
  rw [step_bfRest hr hpush hpop, fdStep_none hbyte, andThen_next]

/-- Placed at NE's port, a request's row is the whole step. -/
theorem step_placeNe (r : NeReq) (s : State) :
    step (placeNe r s) = exec (decodeNe r) (sample (present r) (placeNe r s)) :=
  (step_neAlone rfl rfl rfl rfl).trans (neStep_request rfl rfl _)

/-- Placed where NE's sequence has it pending, a transaction's row is the whole step. -/
theorem step_placeNor {pos : NePos} {n : Nat} {s : State} {i : Instr}
    (hi : nePending (placeNor pos n s).ne pos = some i) :
    step (placeNor pos n s) = exec i (sample (placeNor pos n s).nextIn (placeNor pos n s)) :=
  (step_neAlone rfl rfl rfl rfl).trans
    (neStep_performs (s := placeNor pos n s) (.inr ⟨pos, 0, rfl, Option.some_ne_none _, hi⟩) _)

/-! ### The row that a placed byte selects -/

section
variable {s : State} (b : Byte)

theorem fdRow_idle (h : s.fd.st = stIdle) :
    fdRow s b = .ok (if b = sync1 then .fdIdleSync1 else .fdIdleOther b) := by
  simp [fdRow_eq, h]

theorem fdRow_sawSync1 (h : s.fd.st = stSawSync1) :
    fdRow s b = .ok (if b = sync2 then .fdSawSync1Sync2 else .fdSawSync1Other b) := by
  simp [fdRow_eq, h, show stSawSync1 ≠ stIdle by decide]

theorem fdRow_readLen (h : s.fd.st = stReadLen) :
    fdRow s b = .ok (if b = 0#8 then .fdLenZero else .fdLenNonzero b) := by
  simp [fdRow_eq, h, show stReadLen ≠ stIdle by decide, show stReadLen ≠ stSawSync1 by decide]

theorem fdRow_payloadMore (h : s.fd.st = stReadPayload) (hidx : s.fd.idx.toNat + 1 < s.fd.len.toNat) :
    fdRow s b = .ok (.fdPayloadMore b) := by
  simp [fdRow_eq, h, hidx, show stReadPayload ≠ stIdle by decide, show stReadPayload ≠ stSawSync1 by decide,
    show stReadPayload ≠ stReadLen by decide]

theorem fdRow_payloadLast (h : s.fd.st = stReadPayload) (hidx : s.fd.idx.toNat + 1 = s.fd.len.toNat) :
    fdRow s b = .ok (.fdPayloadLast b) := by
  simp [fdRow_eq, h, hidx, show stReadPayload ≠ stIdle by decide, show stReadPayload ≠ stSawSync1 by decide,
    show stReadPayload ≠ stReadLen by decide]

theorem fdRow_checksum (h : s.fd.st = stReadChecksum) :
    fdRow s b = .ok (if b = s.fd.sum then .fdChkMatch b else .fdChkMismatch b) := by
  simp [fdRow_eq, h, show stReadChecksum ≠ stIdle by decide, show stReadChecksum ≠ stSawSync1 by decide,
    show stReadChecksum ≠ stReadLen by decide, show stReadChecksum ≠ stReadPayload by decide]

theorem fdRow_badState (h : 5 ≤ s.fd.st.toNat) : fdRow s b = .ok (.fdBadState s.fd.st b) := by
  have hne : s.fd.st ≠ stIdle ∧ s.fd.st ≠ stSawSync1 ∧ s.fd.st ≠ stReadLen ∧ s.fd.st ≠ stReadPayload ∧
      s.fd.st ≠ stReadChecksum := by
    revert h; generalize s.fd.st = st; revert st; decide
  simp [fdRow_eq, hne]

end

theorem ne_add_one (b : Byte) : b ≠ b + 1#8 := by
  bv_omega

/-- A page program placed with its own address and data is the one pending. -/
theorem chunkData_placed {ne : NeState} (hoff : ne.off = 0) (hlen : ne.rlen = ne.wdata.length)
    (hfit : PageFits ne.curAddr ne.wdata.length) : chunkData ne = ne.wdata := by
  have hchunk : chunkLen ne = ne.wdata.length := by
    unfold chunkLen
    rw [hoff, hlen]
    have := hfit.2
    omega
  rw [chunkData, hchunk, hoff, List.drop_zero, List.take_length]

end Sys2Proof.Machine

namespace Sys2Proof

open Machine

/-- Settles O10: an operation is placed at its own unit's port or position, where the decoder selects its row, and the
two other units rest. -/
theorem placedInstructionIsPerformed : Obligations.PlacedInstructionIsPerformed := by
  intro i s hwf
  cases i
  case bfNop | bfPush | bfPop | bfPushPop => exact step_queue_bf s rfl rfl rfl rfl (decodeBf_ports _ _ _)
  case neReset | neGetStatus | neWriteEnable | neRead | neWrite | neEraseSector | neEraseChip | neReserved7 =>
    exact step_placeNe _ s
  case norRsten | norRst | norRdsr | norWren | norRead | norSe | norCe => exact step_placeNor rfl
  case norPp a d =>
    have hfit : PageFits a d.length := by simpa [Instr.wf] using hwf
    refine step_placeNor (congrArg (fun l => some (Instr.norPp a l)) ?_)
    exact chunkData_placed rfl rfl hfit
  case fdIdleSync1 => exact step_placeFd (fdRow_idle sync1 rfl)
  case fdIdleOther b =>
    have hb : b ≠ sync1 := by simpa [Instr.wf] using hwf
    exact step_placeFd ((fdRow_idle b rfl).trans (congrArg Except.ok (if_neg hb)))
  case fdSawSync1Sync2 => exact step_placeFd (fdRow_sawSync1 sync2 rfl)
  case fdSawSync1Other b =>
    have hb : b ≠ sync2 := by simpa [Instr.wf] using hwf
    exact step_placeFd ((fdRow_sawSync1 b rfl).trans (congrArg Except.ok (if_neg hb)))
  case fdLenZero => exact step_placeFd (fdRow_readLen 0#8 rfl)
  case fdLenNonzero b =>
    have hb : b ≠ 0#8 := by simpa [Instr.wf] using hwf
    exact step_placeFd ((fdRow_readLen b rfl).trans (congrArg Except.ok (if_neg hb)))
  case fdPayloadMore b => exact step_placeFd (fdRow_payloadMore b rfl (show 0 + 1 < 2 by decide))
  case fdPayloadLast b => exact step_placeFd (fdRow_payloadLast b rfl (show 0 + 1 = 1 from rfl))
  case fdChkMatch b => exact step_placeFd ((fdRow_checksum b rfl).trans (congrArg Except.ok (if_pos rfl)))
  case fdChkMismatch b =>
    exact step_placeFd ((fdRow_checksum b rfl).trans (congrArg Except.ok (if_neg (ne_add_one b))))
  case fdBadState st b =>
    have hst : 5 ≤ st.toNat := by simpa [Instr.wf] using hwf
    exact step_placeFd (fdRow_badState (s := placeFd st b s) b hst)

end Sys2Proof
end

section
/-! PROOFS. Under legal inputs NE's step answers a next state (R57, R75, R229, R232). -/

namespace Sys2Proof.Machine

/-- A poll stops only at the tick duty, so it answers wherever the platform keeps that duty (R229). -/
theorem exists_pollStep_next {s : State} {k : Nat} (hd : k = 0 ∨ s.tickSince < 2 ^ s.cfg.tickW) (b : Nat) (pos : NePos)
    (ans : BusAnswer) : ∃ t, pollStep b pos k ans s = .next t := by
  cases ans with
  | err => exact ⟨_, pollStep_err b pos k s⟩
  | ok rx =>
    cases hbusy : busy s.cfg (statusByte rx) with
    | false => exact ⟨_, pollStep_free hbusy b pos k⟩
    | true =>
      rcases Nat.lt_or_ge (elapsed s.cfg s.now (pollT0 k s)) b with hwithin | hover
      · exact ⟨_, pollStep_again hbusy hd hwithin pos⟩
      · exact ⟨_, pollStep_timeout hbusy hd hover pos⟩

/-- From a position that issues a transaction NE's sequence goes on, whatever the answer, where the tick duty is kept. -/
theorem exists_advance_next {ne : NeState} {pos : NePos} {i : Instr} (hi : nePending ne pos = some i) {s : State}
    {k : Nat} (hd : k = 0 ∨ s.tickSince < 2 ^ s.cfg.tickW) (ans : BusAnswer) : ∃ t, advance pos k ans s = .next t := by
  cases pos
  case wePoll | wrWePoll | wrPoll | seWePoll | sePoll | ceWePoll | cePoll => exact exists_pollStep_next hd _ _ ans
  case status | read => exact ⟨_, rfl⟩
  case illegal => cases hi
  all_goals exact ⟨_, sendThen_eq ans _ s⟩

/-- NE idle accepts a legal request (R75, R151, R232). -/
theorem exists_exec_decodeNe_next {s : State} {r : NeReq} (hp : s.ne.phase = .idle) (hr : LegalRequest s.cfg r) :
    ∃ t, exec (decodeNe r) s = .next t := by
  obtain ⟨hfits, hdata⟩ := hr
  obtain ⟨pos, w, -, hwrite, hw, -, he⟩ := exec_decodeNe r s
  have hlen : pos = .wrLoop → w.length = r.len := fun hpos => by
    have hop := hwrite.1 hpos
    rw [hw, if_pos hop, hdata hop]
  exact ⟨_, he.trans (neRequest_accepted hp hfits hlen r.addr)⟩

/-- Under legal inputs NE's step answers a next state, idle or running, from every state. -/
theorem State.InputsLegal.exists_neStep_next {s : State} (h : s.InputsLegal) :
    ∃ v, neStep s.nextIn s (sample s.nextIn s) = .next v := by
  obtain ⟨hrequest, hanswer, hduty⟩ := h
  cases hp : s.ne.phase with
  | idle =>
    cases hq : s.nextIn.neReq with
    | none => exact ⟨_, neStep_idle hp hq _⟩
    | some r =>
      rw [neStep_request hp hq]
      exact exists_exec_decodeNe_next hp (hrequest r hq hp)
  | run pos k =>
    cases hb : s.nextIn.bus with
    | none => exact ⟨_, neStep_held hp hb _⟩
    | some a =>
      cases hi : nePending s.ne pos with
      | none => exact ⟨_, neStep_finish hp hb hi _⟩
      | some i =>
        rw [neStep_answer hp hb hi (hanswer a hb pos k i hp hi)]
        exact exists_advance_next hi (or_iff_not_imp_left.2 (hduty pos k hp)) a

end Sys2Proof.Machine

namespace Sys2Proof

open Machine

/-- Settles O4: a reset cycle always completes; outside reset the invariant keeps BF and FD from stopping, and legal inputs
keep NE's step from being refused. -/
theorem stepCompletesOnLegalInputs : Obligations.StepCompletesOnLegalInputs := by
  intro s hinv hlegal
  cases hr : s.nextIn.rst with
  | true => exact ⟨_, cycle_reset _ _ hr⟩
  | false =>
    obtain ⟨v, hv⟩ := hlegal.exists_neStep_next
    exact ⟨_, step_of_neStep hr (hinv.bytesReady _) hv⟩

end Sys2Proof
end

section
/-! PROOFS. The page programs of a WRITE (R159, R160, R173). -/

namespace Sys2Proof.Machine

/-- A page program is pending only before a chunk's `NOR_PP`, and it is that chunk at `cur_addr`. -/
theorem nePending_eq_norPp {ne : NeState} {pos : NePos} {a : Addr} {d : List Byte}
    (h : nePending ne pos = some (.norPp a d)) : pos = .wrProgram ∧ a = ne.curAddr ∧ d = chunkData ne := by
  cases pos
  case wrProgram => cases h; exact ⟨rfl, rfl, rfl⟩
  case wrLoop =>
    rw [nePending] at h
    split at h <;> cases h
  all_goals cases h

/-- While bytes are left, the chunk is not empty and ends inside its page. -/
theorem pageFits_chunkLen {ne : NeState} (h : ne.off < ne.rlen) : PageFits ne.curAddr (chunkLen ne) := by
  unfold PageFits chunkLen pageSize
  omega

/-- The write data reaches as far as the chunk. -/
theorem length_chunkData {ne : NeState} (h : ne.wdata.length = ne.rlen) : (chunkData ne).length = chunkLen ne := by
  rw [chunkData, List.length_take, List.length_drop, h]
  exact min_eq_left (chunkLen_le ne)

/-- The chunk is the part of the write data between what stands before `off` and what follows the chunk. -/
theorem take_append_chunkData_append_drop (ne : NeState) :
    ne.wdata.take ne.off ++ chunkData ne ++ ne.wdata.drop (ne.off + chunkLen ne) = ne.wdata := by
  rw [chunkData, ← List.drop_drop, List.append_assoc, List.take_append_drop, List.take_append_drop]

end Sys2Proof.Machine

namespace Sys2Proof

open Machine

/-- Settles O54: a page program is a WRITE's current chunk, which `chunkLen` cuts at the page's end and the invariant keeps
from being empty. -/
theorem programsStayInsideAPage : Obligations.ProgramsStayInsideAPage := by
  intro s pos k a d hinv hp hi
  obtain ⟨rfl, rfl, rfl⟩ := nePending_eq_norPp hi
  have hlen : (chunkData s.ne).length = chunkLen s.ne := length_chunkData (hinv.wdata_len (hinv.op_eq _ k hp))
  have hleft : s.ne.off < s.ne.rlen := hinv.in_chunk _ k hp (by decide)
  obtain ⟨hpos, hpage⟩ := pageFits_chunkLen hleft
  rw [hlen]
  exact ⟨hpos, (Nat.le_add_left _ _).trans hpage, hpage, hinv.cur_addr, (take_append_chunkData_append_drop s.ne).symm⟩

end Sys2Proof
end

section
/-! PROOFS. The four encodings (R73 to R81): decoding and encoding are inverse, and how an address goes out. -/

namespace Sys2Proof

/-! ### FD's key, state by state (R73) -/

section
variable (b : Byte) (g : FdGuards)

theorem decodeFd_idle :
    decodeFd (fdKey stIdle b) g = .ok (if b = sync1 then .fdIdleSync1 else .fdIdleOther b) := by
  rw [decodeFd_fdKey, if_pos rfl]

theorem decodeFd_sawSync1 :
    decodeFd (fdKey stSawSync1 b) g = .ok (if b = sync2 then .fdSawSync1Sync2 else .fdSawSync1Other b) := by
  rw [decodeFd_fdKey, if_neg (by decide), if_pos rfl]

theorem decodeFd_readLen :
    decodeFd (fdKey stReadLen b) g = .ok (if b = 0#8 then .fdLenZero else .fdLenNonzero b) := by
  rw [decodeFd_fdKey, if_neg (by decide), if_neg (by decide), if_pos rfl]

theorem decodeFd_readPayload :
    decodeFd (fdKey stReadPayload b) g =
      if g.more then .ok (.fdPayloadMore b) else if g.last then .ok (.fdPayloadLast b) else .error .noFrameRow := by
  rw [decodeFd_fdKey, if_neg (by decide), if_neg (by decide), if_neg (by decide), if_pos rfl]

theorem decodeFd_readChecksum :
    decodeFd (fdKey stReadChecksum b) g = .ok (if g.chkEq then .fdChkMatch b else .fdChkMismatch b) := by
  rw [decodeFd_fdKey, if_neg (by decide), if_neg (by decide), if_neg (by decide), if_neg (by decide), if_pos rfl]

theorem decodeFd_badState {st : BitVec 3} (h : 5 ≤ st.toNat) : decodeFd (fdKey st b) g = .ok (.fdBadState st b) := by
  have hcodes : st ≠ stIdle ∧ st ≠ stSawSync1 ∧ st ≠ stReadLen ∧ st ≠ stReadPayload ∧ st ≠ stReadChecksum := by
    revert h st; decide
  obtain ⟨h0, h1, h2, h3, h4⟩ := hcodes
  rw [decodeFd_fdKey, if_neg h0, if_neg h1, if_neg h2, if_neg h3, if_neg h4]

end

/-! ### A transaction's shape (R80) -/

/-- A command that goes out alone is what its operation encodes to. -/
theorem encode_of_decodeBare {c : Config} {i j : Instr} {n rx : Nat} {cmd code : Byte} {rest : List Byte}
    (hi : encode c i = .norTx ⟨[code], n⟩) (hcmd : cmd = code) (h : decodeBare i n rest rx = .ok j) :
    encode c j = .norTx ⟨cmd :: rest, rx⟩ := by
  unfold decodeBare at h
  split at h
  · next hshape =>
    obtain ⟨rfl, rfl⟩ := hshape
    cases h
    rw [hi, hcmd]
  · cases h

/-- Where the command bytes differ, a well-formed NOR operation is the one its transaction decodes to. -/
theorem decodeNor_of_norTx {c : Config} (hd : c.CommandsDistinct) {i : Instr} {t : BusTx} (hwf : i.wf c = true)
    (ht : norTx c i = some t) : decodeNor c t = .ok i := by
  have hd' := List.nodup_reverse.2 hd
  simp only [List.reverse_cons, List.reverse_nil, List.nil_append, List.cons_append, List.nodup_cons, List.mem_cons,
    List.not_mem_nil, or_false, not_or] at hd hd'
  cases i <;> cases ht
  case norRsten | norRst | norRdsr | norWren | norCe => simp [decodeNor, decodeBare, hd']
  case norRead | norSe => simp [decodeNor, addrBytes, addrOfBytes_addrBytes, hd, hd']
  case norPp a d =>
    have hfit : PageFits a d.length := by simpa [Instr.wf] using hwf
    simp [decodeNor, addrBytes, addrOfBytes_addrBytes, hd, hd', hfit]

/-- A transaction that decodes is the one its operation puts on the bus, whatever the command bytes. -/
theorem encode_of_decodeNor {c : Config} {t : BusTx} {i : Instr} (h : decodeNor c t = .ok i) :
    encode c i = .norTx t := by
  obtain ⟨tx, rx⟩ := t
  cases tx with
  | nil => cases h
  | cons cmd rest =>
    unfold decodeNor at h
    dsimp only at h
    iterate 5
      split at h
      · next hcmd => exact encode_of_decodeBare rfl hcmd h
    split at h
    · next hread =>
      split at h <;> cases h
      rw [encode, addrBytes_addrOfBytes, hread]
    split at h
    · next hse =>
      split at h
      · split at h <;> cases h
        next hrx => rw [encode, addrBytes_addrOfBytes, hse, hrx]
      · cases h
    split at h
    · next hpp =>
      split at h
      · split at h <;> cases h
        next hrx => rw [encode, addrBytes_addrOfBytes, hpp, hrx.1]; rfl
      · cases h
    · cases h

/-! ### The other words -/

/-- A key that decodes is its operation's key; only the guards it was tried under may differ. -/
theorem encode_of_decodeFd {k : BitVec 11} {g : FdGuards} {i : Instr} (h : decodeFd k g = .ok i) (c : Config) :
    ∃ g', encode c i = .fdKey k g' := by
  rw [← fdKey_fields k, decodeFd_fdKey] at h
  rw [← fdKey_fields k]
  split_ifs at h <;> cases h <;> simp [encode, *]

theorem encode_decodeBf (c : Config) (w : BitVec 2) (b : Byte) :
    encode c (decodeBf w b) = .bfPort w (if w.getLsbD 1 then b else 0#8) := by
  have hw : w = 0b00#2 ∨ w = 0b01#2 ∨ w = 0b10#2 ∨ w = 0b11#2 := by revert w; decide
  rcases hw with rfl | rfl | rfl | rfl <;> rfl

theorem encode_decodeNe (c : Config) (r : NeReq) :
    encode c (decodeNe r) = .neReq { r with wdata := if r.op = 4#3 then r.wdata else [] } := by
  obtain ⟨op, a, n, d⟩ := r
  have hop : op = 0#3 ∨ op = 1#3 ∨ op = 2#3 ∨ op = 3#3 ∨ op = 4#3 ∨ op = 5#3 ∨ op = 6#3 ∨ op = 7#3 := by
    revert op; decide
  rcases hop with rfl | rfl | rfl | rfl | rfl | rfl | rfl | rfl <;> rfl

/-! ### An address on the bus (R81) -/

/-- The address bytes, most significant first, as the address divided. -/
theorem addrBytes_toNat (a : Addr) :
    (a.extractLsb' 16 8).toNat = a.toNat / 65536 ∧ (a.extractLsb' 8 8).toNat = a.toNat / 256 % 256 ∧
      (a.extractLsb' 0 8).toNat = a.toNat % 256 := by
  have ha : a.toNat < 16777216 := a.isLt
  refine ⟨?_, ?_, ?_⟩ <;> rw [BitVec.extractLsb'_toNat, Nat.shiftRight_eq_div_pow] <;> omega

/-- Settles O11: FD's keys are read state by state, NOR's transactions by their command bytes, and the ports of BF and NE
name their operation by the word itself. -/
theorem decodeInvertsEncode : Obligations.DecodeInvertsEncode := by
  intro c i hd hwf
  cases i
  case norRsten | norRst | norRdsr | norWren | norRead | norPp | norSe | norCe =>
    exact decodeNor_of_norTx hd hwf rfl
  case bfNop | bfPush | bfPop | bfPushPop => rfl
  case neReset | neGetStatus | neWriteEnable | neRead | neWrite | neEraseSector | neEraseChip | neReserved7 => rfl
  case fdIdleSync1 => exact decodeFd_idle sync1 noGuards
  case fdSawSync1Sync2 => exact decodeFd_sawSync1 sync2 noGuards
  case fdLenZero => exact decodeFd_readLen 0#8 noGuards
  case fdPayloadMore b => exact decodeFd_readPayload _ _
  case fdPayloadLast b => exact decodeFd_readPayload _ _
  case fdChkMatch b => exact decodeFd_readChecksum _ _
  case fdChkMismatch b => exact decodeFd_readChecksum _ _
  case fdIdleOther b =>
    have hb : b ≠ sync1 := by simpa [Instr.wf] using hwf
    exact (decodeFd_idle b _).trans (congrArg Except.ok (if_neg hb))
  case fdSawSync1Other b =>
    have hb : b ≠ sync2 := by simpa [Instr.wf] using hwf
    exact (decodeFd_sawSync1 b _).trans (congrArg Except.ok (if_neg hb))
  case fdLenNonzero b =>
    have hb : b ≠ 0#8 := by simpa [Instr.wf] using hwf
    exact (decodeFd_readLen b _).trans (congrArg Except.ok (if_neg hb))
  case fdBadState st b =>
    have hst : 5 ≤ st.toNat := by simpa [Instr.wf] using hwf
    exact decodeFd_badState b _ hst

/-- Settles O12: each decoder's row is named by the fields that the encoder puts back. -/
theorem decodedWordsReencode : Obligations.DecodedWordsReencode := by
  intro c
  exact ⟨fun _ _ => encode_of_decodeNor, fun _ _ _ h => encode_of_decodeFd h c,
    fun w b => ⟨_, rfl, encode_decodeBf c w b⟩, fun r => ⟨_, rfl, encode_decodeNe c r⟩⟩

/-- Settles O13: each word is decoded as it stands. -/
theorem specWordsDecode : Obligations.SpecWordsDecode := by
  unfold Obligations.SpecWordsDecode
  decide

/-- Settles O14: the three address bytes are those of `addr`, and of `cur_addr` for a page program. -/
theorem addressGoesOutMostSignificantFirst : Obligations.AddressGoesOutMostSignificantFirst := by
  intro c ne
  exact ⟨_, _, _, _, _, _, addrBytes_toNat ne.addr, addrBytes_toNat ne.curAddr, rfl, rfl, rfl⟩

end Sys2Proof
end

section
/-! PROOFS. A step is exec of the operations its ports decode to; how op 7 runs, and where each result code comes from
(R77, R79, R163). -/

namespace Sys2Proof.Machine

/-! ### The operations of a step -/

/-- BF's port word names its row on either wiring (R74, R141). -/
theorem bfRow_of_decode {c : Config} {s : State} {i : Instr}
    (h : decode c (.bfPort
      (BitVec.ofBool s.nextIn.bfPush ++
        BitVec.ofBool (if s.wiring = .separate then s.nextIn.bfPop else !s.nextIn.hold)) s.nextIn.bfPushData) = .ok i) :
    bfRow s.nextIn s = i := by
  have hpop : bfPopIn s.nextIn s = if s.wiring = .separate then s.nextIn.bfPop else !s.nextIn.hold := by
    unfold bfPopIn
    cases s.wiring <;> rfl
  rw [bfRow, hpop]
  exact Except.ok.inj h

/-- A step outside reset in which no byte arrives is BF's row and then NE's step. -/
theorem step_noByte {s : State} (hr : s.nextIn.rst = false) (h : s.NoByteArrives) :
    step s = andThen (exec (bfRow s.nextIn s) (sample s.nextIn s)) (neStep s.nextIn s) := by
  have hfd : fdStep s.nextIn s = .next := funext (fdStep_none (fdByteIn_noByte h))
  rw [step, cycle, hr, if_neg Bool.false_ne_true, hfd]
  rfl

/-- A step outside reset in which a byte arrives is BF's row, FD's row for the byte, and then NE's step. -/
theorem step_byte {s : State} {b : Byte} {j : Instr} (hr : s.nextIn.rst = false) (h : s.ByteArrives b)
    (hj : fdRow s b = .ok j) :
    step s = andThen (exec (bfRow s.nextIn s) (sample s.nextIn s)) fun t =>
      andThen (exec j t) (neStep s.nextIn s) := by
  have hfd : fdStep s.nextIn s = exec j := funext (fdStep_some (fdByteIn_arrives h) hj)
  rw [step, cycle, hr, if_neg Bool.false_ne_true, hfd]

/-- A first part that changes nothing may be left out. -/
theorem andThen_bfNop (c : CycleIn) (s : State) (k : State → Result) :
    andThen (exec .bfNop (sample c s)) k = k (sample c s) := by
  rw [exec_bfNop_sample, andThen_next]

/-! ### Op 7 -/

/-- At op 7 the run step, of `i + 1` cycles, finishes ILLEGAL without a transaction, whatever answer ends it (R163). -/
theorem run_illegal (i : Nat) {s : State} {x : BusAnswer} {rest : List CycleIn} {k : Nat} (hw : s.wiring = .separate)
    (hi : s.inputs = answerAfter i x ++ rest) (hd : s.ne.done = false) (hp : s.ne.phase = .run .illegal k) :
    ∃ t, run (i + 1) s = .next t ∧ t.ne = { s.ne with result := resIllegal, done := true, phase := .idle } ∧
      t.inputs = rest ∧ transcript (i + 1) s = [] := by
  obtain ⟨u, hrun, hne, -, hwu, hiu, htr⟩ :=
    run_idle i (rest := answer x :: rest) hw (by simpa [answerAfter] using hi) hd
  obtain ⟨t, hstep, hnt, -, htx, -, -, -, hit⟩ :=
    step_nePorts hwu hiu rfl rfl rfl rfl (neStep_finish (by rw [hne]; exact hp) rfl rfl _)
  refine ⟨t, ?_, ?_, hit, ?_⟩
  · rw [(run_add i 1 hrun).1, run_succ 0 hstep]
    rfl
  · rw [hnt, ← hne]
    rfl
  · rw [transcript_add i 1 hrun, htr, transcript_succ 0 hstep, htx]
    rfl

/-! ### Where a result comes from -/

/-- The results that NE's sequence finishes with at a position whose transaction was answered with `a` (R79). -/
inductive ResultOrigin (c : Config) (pos : NePos) (a : BusAnswer) : BitVec 3 → Prop where
  | ok : ResultOrigin c pos a resOk
  | busy (hpos : pos = .status) : ResultOrigin c pos a resBusy
  | timeout (hpoll : (pollBudget c pos).isSome) : ResultOrigin c pos a resTimeout
  | transferError (herr : a = .err) : ResultOrigin c pos a resTransferError

section
variable {c : Config} {pos : NePos} {k : Nat} {a : BusAnswer} {s t : State}

theorem resultOrigin_sendThen {next : State → State} (h : sendThen a next s = .next t) (hd : t.ne.done = true)
    (hnext : (next s).ne.done = true → (next s).ne.result = resOk) : ResultOrigin c pos a t.ne.result := by
  cases a with
  | err => cases h; exact .transferError rfl
  | ok rx => cases h; rw [hnext hd]; exact .ok

theorem pollPassed_result (h : (pollPassed pos s).ne.done = true) : (pollPassed pos s).ne.result = resOk := by
  cases pos
  case wrWePoll | seWePoll | ceWePoll => cases h
  case wrPoll =>
    simp only [pollPassed, chunkDone] at h ⊢
    split at h
    · cases h
    · next hlast => rw [if_neg hlast]; rfl
  all_goals rfl

theorem resultOrigin_pollStep {b : Nat} (hpoll : (pollBudget c pos).isSome) (h : pollStep b pos k a s = .next t)
    (hd : t.ne.done = true) : ResultOrigin c pos a t.ne.result := by
  unfold pollStep at h
  cases a with
  | err => cases h; exact .transferError rfl
  | ok rx =>
    dsimp only at h
    split_ifs at h
    · cases h; exact .timeout hpoll
    · cases h; cases hd
    · cases h; rw [pollPassed_result hd]; exact .ok

/-- Whatever NE's sequence is at: a step that finishes the operation has its result from R79's column. -/
theorem resultOrigin_advance (h : advance pos k a s = .next t) (hd : t.ne.done = true) :
    ResultOrigin c pos a t.ne.result := by
  cases pos <;> simp only [advance] at h
  case wePoll | wrWePoll | wrPoll | seWePoll | sePoll | ceWePoll | cePoll => exact resultOrigin_pollStep rfl h hd
  case status =>
    cases h
    cases a with
    | err => exact .transferError rfl
    | ok rx =>
      simp only [statusDone, neFinish_ne_result]
      split
      · exact .busy rfl
      · exact .ok
  case read =>
    cases h
    cases a with
    | err => exact .transferError rfl
    | ok rx => exact .ok
  case illegal => cases h
  case resetMemory => exact resultOrigin_sendThen h hd fun _ => rfl
  all_goals exact resultOrigin_sendThen h hd nofun

end

/-- The polls are those of WRITE_ENABLE, WRITE, ERASE_SECTOR and ERASE_CHIP. -/
theorem opCode_of_pollBudget {c : Config} {pos : NePos} (h : (pollBudget c pos).isSome) :
    pos.opCode = 2#3 ∨ pos.opCode = 4#3 ∨ pos.opCode = 5#3 ∨ pos.opCode = 6#3 := by
  cases pos
  case wePoll | wrWePoll | wrPoll | seWePoll | sePoll | ceWePoll | cePoll => decide
  all_goals cases h

/-- R79's column of origins, read code by code. -/
theorem ResultOrigin.of_code {c : Config} {pos : NePos} {a : BusAnswer} {r : BitVec 3} (h : ResultOrigin c pos a r) :
    LegalResult r ∧ (r = 1#3 → pos = .status) ∧
      (r = 2#3 → (pollBudget c pos).isSome ∧
        (pos.opCode = 2#3 ∨ pos.opCode = 4#3 ∨ pos.opCode = 5#3 ∨ pos.opCode = 6#3)) ∧
      (r = 3#3 → a = .err) ∧ r ≠ 7#3 := by
  cases h with
  | ok => exact ⟨by decide, nofun, nofun, nofun, by decide⟩
  | busy hpos => exact ⟨by decide, fun _ => hpos, nofun, nofun, by decide⟩
  | timeout hpoll => exact ⟨by decide, nofun, fun _ => ⟨hpoll, opCode_of_pollBudget hpoll⟩, nofun, by decide⟩
  | transferError herr => exact ⟨by decide, nofun, nofun, fun _ => herr, by decide⟩

theorem finishResult_of_ne_illegal {pos : NePos} (h : pos ≠ .illegal) : finishResult pos = resOk := by
  cases pos
  case illegal => exact absurd rfl h
  all_goals rfl

end Sys2Proof.Machine

namespace Sys2Proof

open Machine

/-- Settles O9: each unit's part of a cycle is exec of the row its ports or its position select, and a unit at rest leaves
the block as the parts before it did. -/
theorem stepRunsDecodedInstructions : Obligations.StepRunsDecodedInstructions := by
  intro s i hr hi
  obtain rfl := bfRow_of_decode hi
  refine ⟨fun hbyte => ?noByte, fun b j hbyte hj => ?byte⟩
  case noByte =>
    rw [step_noByte hr hbyte]
    refine ⟨fun hne => andThen_next_right (neStep_rests hne) _, fun k hne => ?_, fun pos hne => ?_⟩
    · rw [show neStep s.nextIn s = exec k from funext (neStep_performs hne)]
      exact ⟨rfl, fun hnop => by rw [hnop, andThen_bfNop]⟩
    · rw [show neStep s.nextIn s = _ from funext (neStep_finishes hne)]
  case byte =>
    rw [step_byte hr hbyte hj]
    refine ⟨fun hne => ?_, fun k hne => ?_, fun pos hne => ?_⟩
    · rw [show (fun t => andThen (exec j t) (neStep s.nextIn s)) = exec j from
        funext fun t => andThen_next_right (neStep_rests hne) _]
      exact ⟨rfl, fun hnop => by rw [hnop, andThen_bfNop]⟩
    · rw [show neStep s.nextIn s = exec k from funext (neStep_performs hne)]
    · rw [show neStep s.nextIn s = _ from funext (neStep_finishes hne)]

/-- Settles O48: the request is accepted at the position that has no transaction (`run_illegal`). -/
theorem reservedCodeFinishesIllegal : Obligations.ReservedCodeFinishesIllegal := by
  intro s a n i d x rest hp hw hn hi
  obtain ⟨u, hstep, hne, htx, -, -, hwu, hiu⟩ :=
    step_present (pos := .illegal) (w := []) hw hi hp (fun _ => rfl) hn nofun
  obtain ⟨t, hrun, hnt, hit, htr⟩ := run_illegal i (k := 0) hwu hiu (by rw [hne]; rfl) (by rw [hne]; rfl)
  rw [hne] at hnt
  refine ⟨t, (run_succ _ hstep).trans hrun, ?_, ?_, ?_, ?_, hit, ?_⟩
  · rw [hnt]
  · rw [hnt]
  · rw [hnt]; rfl
  · rw [hnt]; rfl
  · rw [transcript_succ _ hstep, htx, htr]; rfl

/-- Settles O58: an operation finishes with a position's own result, or with one that its answered transaction gives
(`ResultOrigin`). -/
theorem resultCodesHaveTheirOrigins : Obligations.ResultCodesHaveTheirOrigins := by
  intro s t hr hs hd
  obtain ⟨v, hv, ht⟩ := step_ne hr hs
  rw [ht] at hd ⊢
  rcases neStep_cases hv with ⟨-, -, rfl⟩ | ⟨-, r, pos, w, -, -, -, -, -, -, -, rfl⟩ |
    ⟨pos, k, hp, ⟨-, rfl⟩ | ⟨a, hb, hi, rfl⟩ | ⟨a, i, hb, hi, -, ha⟩⟩
  case inl => cases hd
  case inr.inl => cases hd
  case inr.inr.inl => cases hd
  case inr.inr.inr.inl =>
    rw [neFinish_ne_result]
    by_cases hpos : pos = .illegal
    · subst hpos
      exact ⟨.illegal, k, hp, by decide, nofun, nofun, nofun, iff_of_true rfl rfl⟩
    · rw [finishResult_of_ne_illegal hpos]
      obtain ⟨hlegal, hbusy, htimeout, -, hne⟩ := (ResultOrigin.ok : ResultOrigin s.cfg pos a resOk).of_code
      exact ⟨pos, k, hp, hlegal, hbusy, htimeout, nofun, iff_of_false hne hpos⟩
  case inr.inr.inr.inr =>
    have hpos : pos ≠ .illegal := by rintro rfl; cases hi
    obtain ⟨hlegal, hbusy, htimeout, herr, hne⟩ := (resultOrigin_advance (c := s.cfg) ha hd).of_code
    exact ⟨pos, k, hp, hlegal, hbusy, htimeout,
      fun h3 => ⟨hb.trans (congrArg some (herr h3)), by rw [hi]; rfl⟩, iff_of_false hne hpos⟩

end Sys2Proof
end

section
/-! PROOFS. A frame fed to FD from IDLE (R70 to R72, R86, R130, R131). -/

namespace Sys2Proof.Machine

/-! ### Runs that feed FD one byte a cycle -/

/-- `n` cycles from `s` lead to `t` with `rest` still to come, the units apart; the cycles show `valid` at
`fd_frame_valid`. -/
structure FeedRun (n : Nat) (valid : List Bool) (rest : List CycleIn) (s t : State) : Prop where
  run : run n s = .next t
  valid : (trace n s).map (fun o => o.fdFrameValid) = valid
  cfg : t.cfg = s.cfg
  epoch : t.epoch = s.epoch
  wiring : t.wiring = .separate
  inputs : t.inputs = rest

theorem FeedRun.refl {s : State} {rest : List CycleIn} (hw : s.wiring = .separate) (hi : s.inputs = rest) :
    FeedRun 0 [] rest s s :=
  ⟨rfl, rfl, rfl, rfl, hw, hi⟩

theorem FeedRun.trans {m n : Nat} {v w : List Bool} {r r' : List CycleIn} {s t u : State} (h : FeedRun m v r s t)
    (h' : FeedRun n w r' t u) : FeedRun (m + n) (v ++ w) r' s u := by
  obtain ⟨hrun, htrace, -⟩ := run_add m n h.run
  refine ⟨hrun.trans h'.run, ?_, h'.cfg.trans h.cfg, h'.epoch.trans h.epoch, h'.wiring, h'.inputs⟩
  rw [htrace, List.map_append, h.valid, h'.valid]

/-- One byte fed to FD. -/
theorem feedRun_byte {s : State} {b : Byte} {rest : List CycleIn} (hw : s.wiring = .separate)
    (hi : s.inputs = feed b :: rest) (hf : FdReady s.fd) :
    ∃ t, FeedRun 1 [fdFrame s.fd b] rest s t ∧ t.fd = fdAfter s.cfg s.fd b := by
  obtain ⟨t, hstep, hfd, hc, he, hwt, hit, hvalid, -, -⟩ := step_feed hw hi hf
  refine ⟨t, ⟨run_succ 0 hstep, ?_, hc, he, hwt, hit⟩, hfd⟩
  rw [trace_succ 0 hstep, ← hvalid]
  rfl

/-- Outside READ_PAYLOAD FD takes any byte. -/
theorem fdReady_of_ne {fd : FdState} (h : fd.st ≠ stReadPayload) : FdReady fd := fun hst => absurd hst h

/-- Only the checksum byte can complete a frame. -/
theorem fdFrame_of_ne {fd : FdState} (h : fd.st ≠ stReadChecksum) (b : Byte) : fdFrame fd b = false :=
  decide_eq_false fun hst => h hst.1

/-- One byte outside the payload and the checksum: no frame is accepted in its cycle. -/
theorem feedRun_header {s : State} {b : Byte} {rest : List CycleIn} (hw : s.wiring = .separate)
    (hi : s.inputs = feed b :: rest) (hst : ¬ InFrame s.fd.st) :
    ∃ t, FeedRun 1 [false] rest s t ∧ t.fd = fdAfter s.cfg s.fd b := by
  obtain ⟨hpayload, hchecksum⟩ := not_or.1 hst
  obtain ⟨t, hrun, hfd⟩ := feedRun_byte hw hi (fdReady_of_ne hpayload)
  exact ⟨t, fdFrame_of_ne hchecksum b ▸ hrun, hfd⟩

/-! ### The parts of a frame -/

/-- The sync pair and the LENGTH byte start a payload of the decoded length (R122, R124, R126, R127). -/
theorem feedRun_start {s : State} {b : Byte} {rest : List CycleIn} (hw : s.wiring = .separate) (hst : s.fd.st = stIdle)
    (hi : s.inputs = feed sync1 :: feed sync2 :: feed b :: rest) :
    ∃ t, FeedRun 3 (List.replicate 3 false) rest s t ∧
      t.fd = { s.fd with len := decodedLength b, idx := 0#11, sum := 0#8, st := stReadPayload } := by
  obtain ⟨t₁, h₁, hfd₁⟩ := feedRun_header hw hi (by rw [hst]; decide)
  rw [fdAfter_idle hst, if_pos rfl] at hfd₁
  obtain ⟨t₂, h₂, hfd₂⟩ := feedRun_header h₁.wiring h₁.inputs (by rw [hfd₁]; show ¬ InFrame stSawSync1; decide)
  rw [fdAfter_sawSync1 (by rw [hfd₁]), if_pos rfl, hfd₁] at hfd₂
  obtain ⟨t₃, h₃, hfd₃⟩ := feedRun_header h₂.wiring h₂.inputs (by rw [hfd₂]; show ¬ InFrame stReadLen; decide)
  rw [fdAfter_readLen (by rw [hfd₂]), hfd₂] at hfd₃
  exact ⟨t₃, (h₁.trans h₂).trans h₃, hfd₃⟩

/-- FD's state when `p` is what the payload still lacks. -/
def payloadState (p : List Byte) : BitVec 3 := if p = [] then stReadChecksum else stReadPayload

/-- A payload byte with the bytes `p` still to come after it (R128, R129). -/
theorem fdAfter_payload_before {fd : FdState} {b : Byte} {p : List Byte} (hst : fd.st = payloadState (b :: p))
    (hlen : fd.idx.toNat + (b :: p).length = fd.len.toNat) (c : Config) :
    fdAfter c fd b = { fd with
      buf := Memory.write fd.buf fd.idx.toNat b, idx := fd.idx + 1#11, sum := fd.sum + b, st := payloadState p } := by
  have hmore : fd.idx.toNat + 1 < fd.len.toNat ↔ p ≠ [] := by
    rw [List.length_cons] at hlen
    rw [← List.length_pos_iff]
    omega
  rw [fdAfter_payload hst, payloadState, ite_congr (propext hmore) (fun _ => rfl) (fun _ => rfl), ite_not]

/-- FD takes a payload byte at an index below the length. -/
theorem fdReady_of_idx_lt {fd : FdState} (hlt : fd.idx.toNat < fd.len.toNat) (hmax : fd.len.toNat ≤ maxFrame) :
    FdReady fd :=
  fun _ => ⟨hlt, hlt.trans_le hmax⟩

theorem idx_add_one_toNat {fd : FdState} (hlt : fd.idx.toNat < fd.len.toNat) :
    (fd.idx + 1#11).toNat = fd.idx.toNat + 1 := by
  have hlen : fd.len.toNat < 2048 := fd.len.isLt
  rw [BitVec.toNat_add]
  exact Nat.mod_eq_of_lt (show fd.idx.toNat + 1 < 2048 by omega)

/-- The rest of a payload is stored behind the bytes before it and summed, and the checksum byte comes next. -/
theorem feedRun_payload (p : List Byte) {s : State} {rest : List CycleIn} (hw : s.wiring = .separate)
    (hi : s.inputs = stream p ++ rest) (hst : s.fd.st = payloadState p)
    (hlen : s.fd.idx.toNat + p.length = s.fd.len.toNat) (hmax : s.fd.len.toNat ≤ maxFrame) :
    ∃ t, FeedRun p.length (List.replicate p.length false) rest s t ∧
      t.fd = { s.fd with st := stReadChecksum, idx := s.fd.len, sum := s.fd.sum + sum8 p, buf := t.fd.buf } ∧
      t.bufBytes s.fd.len.toNat = s.bufBytes s.fd.idx.toNat ++ p := by
  induction p generalizing s with
  | nil =>
    have hidx : s.fd.idx = s.fd.len := BitVec.eq_of_toNat_eq hlen
    refine ⟨s, .refl hw hi, ?_, by rw [hidx, List.append_nil]⟩
    rw [sum8, BitVec.add_zero, ← hidx]
    show s.fd = { s.fd with st := payloadState [] }
    rw [← hst]
  | cons b p ih =>
    have hlt : s.fd.idx.toNat < s.fd.len.toNat := by rw [List.length_cons] at hlen; omega
    have hidx := idx_add_one_toNat hlt
    obtain ⟨u, hu, hfd⟩ := feedRun_byte hw hi (fdReady_of_idx_lt hlt hmax)
    rw [fdFrame_of_ne (by rw [hst]; exact (by decide : stReadPayload ≠ stReadChecksum))] at hu
    rw [fdAfter_payload_before hst hlen] at hfd
    have hstored : u.bufBytes (s.fd.idx.toNat + 1) = s.bufBytes s.fd.idx.toNat ++ [b] :=
      bufBytes_write (by rw [hfd]) hu.epoch
    obtain ⟨t, ht, htfd, hbytes⟩ := ih hu.wiring hu.inputs (by rw [hfd])
      (by rw [hfd]; simp only [hidx]; rw [← hlen, List.length_cons]; omega) (by rw [hfd]; exact hmax)
    rw [hfd] at htfd hbytes
    refine ⟨t, ?_, ?_, ?_⟩
    · rw [List.length_cons, Nat.add_comm, List.replicate_add]
      exact hu.trans ht
    · rw [htfd, sum8, ← BitVec.add_assoc]
    · rw [hbytes, hidx, hstored, List.append_assoc, List.singleton_append]

/-- The checksum byte: FD counts a frame or an error, and asserts `fd_frame_valid` for a frame alone (R130, R131). -/
theorem feedRun_checksum {s : State} {c : Byte} {rest : List CycleIn} (hw : s.wiring = .separate)
    (hi : s.inputs = feed c :: rest) (hst : s.fd.st = stReadChecksum) :
    ∃ t, FeedRun 1 [decide (c = s.fd.sum)] rest s t ∧
      t.fd = if c = s.fd.sum then { s.fd with st := stIdle, frameCnt := bump s.cfg.cntW s.fd.frameCnt }
        else { s.fd with st := stIdle, chkErrCnt := bump s.cfg.cntW s.fd.chkErrCnt } := by
  obtain ⟨t, hrun, hfd⟩ := feedRun_byte hw hi (fdReady_of_ne (by rw [hst]; decide))
  refine ⟨t, ?_, hfd.trans (fdAfter_checksum hst _ _)⟩
  simpa [fdFrame, hst] using hrun

/-- The LENGTH byte of an encodable length decodes to it (R71, R86). -/
theorem decodedLength_lengthByte {n : Nat} (h : EncodableLength n) : (decodedLength (lengthByte n)).toNat = n := by
  rcases h with ⟨hpos, hle⟩ | rfl
  · have hne : n ≠ maxFrame := by unfold maxFrame; omega
    have hb : (BitVec.ofNat 8 n).toNat = n := Nat.mod_eq_of_lt (show n < 256 by omega)
    have hb0 : BitVec.ofNat 8 n ≠ 0#8 := fun h0 => by rw [h0] at hb; exact absurd hb (by simp; omega)
    rw [lengthByte, if_neg hne, decodedLength, if_neg hb0, BitVec.toNat_setWidth, hb]
    exact Nat.mod_eq_of_lt (show n < 2048 by omega)
  · decide

theorem EncodableLength.le_maxFrame {n : Nat} (h : EncodableLength n) : n ≤ maxFrame := by
  unfold EncodableLength maxFrame at *
  omega

theorem EncodableLength.pos {n : Nat} (h : EncodableLength n) : 0 < n := by
  unfold EncodableLength maxFrame at h
  omega

/-- The sync pair, the LENGTH byte and the payload of a frame, from IDLE: the payload is in `Buf` and summed, and the
checksum byte comes next. -/
theorem feedRun_body {s : State} {p : List Byte} {rest : List CycleIn} (hw : s.wiring = .separate)
    (hst : s.fd.st = stIdle) (hp : EncodableLength p.length)
    (hi : s.inputs = feed sync1 :: feed sync2 :: feed (lengthByte p.length) :: (stream p ++ rest)) :
    ∃ t, FeedRun (3 + p.length) (List.replicate (3 + p.length) false) rest s t ∧
      (∃ len idx buf, t.fd = { s.fd with st := stReadChecksum, len := len, idx := idx, sum := sum8 p, buf := buf }) ∧
      t.fd.len.toNat = p.length ∧ t.bufBytes p.length = p := by
  obtain ⟨u, hu, hfd⟩ := feedRun_start hw hst hi
  have hlen : u.fd.len.toNat = p.length := by rw [hfd]; exact decodedLength_lengthByte hp
  have hidx : u.fd.idx.toNat = 0 := by rw [hfd]; rfl
  have hstu : u.fd.st = payloadState p := by
    rw [hfd, payloadState, if_neg (List.length_pos_iff.1 hp.pos)]
  obtain ⟨t, ht, htfd, hbytes⟩ := feedRun_payload p hu.wiring hu.inputs hstu (by rw [hlen, hidx, Nat.zero_add])
    (hlen.trans_le hp.le_maxFrame)
  rw [hlen, hidx] at hbytes
  refine ⟨t, ?_, ?_, ?_, hbytes⟩
  · rw [List.replicate_add]
    exact hu.trans ht
  · rw [hfd] at htfd
    exact ⟨_, _, _, htfd.trans (by rw [BitVec.zero_add])⟩
  · rw [htfd]
    exact hlen

/-- `Buf` reads the same where its cells and the reset count are the same. -/
theorem bufBytes_congr {s t : State} (hbuf : t.fd.buf = s.fd.buf) (he : t.epoch = s.epoch) (n : Nat) :
    t.bufBytes n = s.bufBytes n := by
  unfold State.bufBytes State.bufByte
  rw [hbuf, he]

end Sys2Proof.Machine

namespace Sys2Proof

open Machine

/-- Settles O34: the frame's body leads to READ_CHECKSUM with the payload stored and summed (`feedRun_body`), and its last
byte is compared with that sum (`feedRun_checksum`). -/
theorem wellFormedFrameIsAccepted : Obligations.WellFormedFrameIsAccepted := by
  intro s p c rest hw hst hp hi
  obtain ⟨u, hu, ⟨len, idx, buf, hfd⟩, hlen, hbytes⟩ :=
    feedRun_body (rest := feed c :: rest) hw hst hp (by simpa [stream, frameBytesWith] using hi)
  obtain ⟨t, ht, htfd⟩ := feedRun_checksum hu.wiring hu.inputs (by rw [hfd])
  have hrun := hu.trans ht
  rw [Nat.add_right_comm, Nat.add_comm (3 + 1)] at hrun
  rw [hu.cfg] at htfd
  have hkept : t.fd.st = stIdle ∧ t.fd.len = u.fd.len ∧ t.fd.buf = u.fd.buf ∧ t.fd.sum = u.fd.sum ∧
      t.fd.syncErrCnt = u.fd.syncErrCnt := by
    rw [htfd]
    split <;> exact ⟨rfl, rfl, rfl, rfl, rfl⟩
  obtain ⟨hidle, hlent, hbuf, hsum, hsync⟩ := hkept
  have hsumu : u.fd.sum = sum8 p := by rw [hfd]
  rw [hsumu] at htfd
  refine ⟨t, hrun.run, hrun.inputs, hidle, (congrArg BitVec.toNat hlent).trans hlen,
    (bufBytes_congr hbuf ht.epoch _).trans hbytes, hsum.trans hsumu, hsync.trans (by rw [hfd]), fun hc => ?accepted,
    fun hc => ?rejected⟩
  case accepted =>
    refine ⟨?_, ?_, ?_⟩
    · rw [hrun.valid, hsumu, decide_eq_true hc, Nat.add_comm]
    · rw [htfd, if_pos hc, hfd]; rfl
    · rw [htfd, if_pos hc, hfd]
  case rejected =>
    refine ⟨?_, ?_, ?_⟩
    · rw [hrun.valid, hsumu, decide_eq_false hc, Nat.add_comm 3]
      exact List.replicate_succ'.symm
    · rw [htfd, if_neg hc, hfd]
    · rw [htfd, if_neg hc, hfd]; rfl

end Sys2Proof
end

section
/-! PROOFS. BF's four operations row by row (R102 to R105), what they leave unchanged, and what a cycle shows and counts
(R101, R106). -/

namespace Sys2Proof.Machine

/-! ### One cycle of the ring, write by write -/

/-- Where the push is refused or there is none, `FifoMem` and `tail` stand. -/
theorem bfAfter_not_accepted {s : State} {p : Option Byte} (h : s.pushAccepted p = false) (q : Bool) :
    (bfAfter s p q).fifoMem = s.bf.fifoMem ∧ (bfAfter s p q).tail = s.bf.tail := by
  simp [bfAfter, h]

/-- The ring writes `FifoMem` at `tail` alone. -/
theorem read_bfAfter_ne (s : State) (p : Option Byte) (q : Bool) {a : Nat} (ha : a ≠ s.bf.tail) :
    Memory.read (bfAfter s p q).fifoMem a = Memory.read s.bf.fifoMem a := by
  cases h : s.pushAccepted p with
  | false => rw [(bfAfter_not_accepted h q).1]
  | true => simp [bfAfter, h, read_write_ne _ _ ha]

/-- Where no byte is returned, `head` stands. -/
theorem bfAfter_head_not_valid {s : State} {q : Bool} (h : s.popValid q = false) (p : Option Byte) :
    (bfAfter s p q).head = s.bf.head := by
  simp [bfAfter, h]

theorem bfAfter_ovfCnt (s : State) (p : Option Byte) (q : Bool) :
    (bfAfter s p q).ovfCnt = if s.pushRefused p then bump s.cfg.cntW s.bf.ovfCnt else s.bf.ovfCnt := rfl

/-- The state after a cycle of the ring, by what becomes of its push and of its pop (R101 to R106). -/
theorem bfCycle_next_by_outcome {s : State} {p : Option Byte} {q accepted returned refused : Bool}
    (ha : s.pushAccepted p = accepted) (hv : s.popValid q = returned) (hr : s.pushRefused p = refused) :
    (s.setBf (bfAfter s p q)).setOut (bfOutputs s p q) = { s with
      bf := {
        fifoMem := if accepted then Memory.write s.bf.fifoMem s.bf.tail (p.getD 0#8) else s.bf.fifoMem
        head := if returned then (s.bf.head + 1) % s.cfg.fifoDepth else s.bf.head
        tail := if accepted then (s.bf.tail + 1) % s.cfg.fifoDepth else s.bf.tail
        count := s.bf.count + (if accepted then 1 else 0) - (if returned then 1 else 0)
        ovfCnt := if refused then bump s.cfg.cntW s.bf.ovfCnt else s.bf.ovfCnt }
      out := { s.out with
        bfPushOk := accepted, bfPopValid := returned
        bfPopData := if returned then s.fifoByte s.bf.head else 0#8, bfOvf := refused } } := by
  subst ha hv hr
  rfl

theorem pushAccepted_eq_false {s : State} {p : Option Byte} (h : p = none ∨ ¬ s.bf.count < s.cfg.fifoDepth) :
    s.pushAccepted p = false := by
  rcases h with rfl | h
  · rfl
  · simp [State.pushAccepted, h]

theorem pushRefused_eq_false {s : State} {p : Option Byte} (h : p = none ∨ s.bf.count < s.cfg.fifoDepth) :
    s.pushRefused p = false := by
  rcases h with rfl | h
  · rfl
  · simp [State.pushRefused, h]

theorem popValid_eq_false {s : State} {q : Bool} (h : q = false ∨ s.bf.count = 0) : s.popValid q = false := by
  rcases h with rfl | h
  · rfl
  · simp [State.popValid, h]

theorem pushAccepted_of_room {s : State} (h : s.bf.count < s.cfg.fifoDepth) (b : Byte) :
    s.pushAccepted (some b) = true :=
  decide_eq_true h

theorem pushRefused_of_full {s : State} (h : ¬ s.bf.count < s.cfg.fifoDepth) (b : Byte) :
    s.pushRefused (some b) = true := by
  rw [pushRefused_some, decide_eq_false h, Bool.not_false]

theorem popValid_of_pos {s : State} (h : 0 < s.bf.count) : s.popValid true = true := decide_eq_true h

/-- An operation of BF is one cycle of the ring, without a push in BF_NOP and BF_POP, without a pop in BF_NOP and
BF_PUSH (R74). -/
theorem exec_bf_ports {i : Instr} (hu : unitOf i = .bf) :
    ∃ p q, (∀ s, exec i s = bfCycle p q s) ∧ (i = .bfNop ∨ i = .bfPop → p = none) ∧
      (i = .bfNop ∨ (∃ b, i = .bfPush b) → q = false) := by
  cases i <;> simp only [unitOf, reduceCtorEq] at hu
  case bfNop => exact ⟨none, false, exec_bfNop, fun _ => rfl, fun _ => rfl⟩
  case bfPush b => exact ⟨some b, false, exec_bfPush b, by simp, fun _ => rfl⟩
  case bfPop => exact ⟨none, true, exec_bfPop, fun _ => rfl, by simp⟩
  case bfPushPop b => exact ⟨some b, true, exec_bfPushPop b, by simp, by simp⟩

/-! ### A cycle's push on the pre-state -/

/-- A cycle's push is accepted on `count` alone (R101). -/
theorem pushAccepted_pushIn (c : CycleIn) (s : State) :
    s.pushAccepted (pushIn c) = (c.bfPush && decide (s.bf.count < s.cfg.fifoDepth)) := by
  unfold pushIn
  cases c.bfPush <;> rfl

/-- A cycle's push overflows exactly in a full BF (R101, R102). -/
theorem pushRefused_pushIn (c : CycleIn) {s : State} (h : s.bf.count ≤ s.cfg.fifoDepth) :
    s.pushRefused (pushIn c) = (c.bfPush && decide (s.bf.count = s.cfg.fifoDepth)) := by
  have hfull : (!decide (s.bf.count < s.cfg.fifoDepth)) = decide (s.bf.count = s.cfg.fifoDepth) := by
    rw [← decide_not, decide_eq_decide, not_lt, h.ge_iff_eq]
  unfold pushIn
  cases c.bfPush
  · rfl
  · exact hfull

/-- `ovf_cnt` and `bf_ovf` after a step outside reset (R106). -/
theorem step_overflow {s t : State} (h : s.bf.count ≤ s.cfg.fifoDepth) (hr : s.nextIn.rst = false)
    (hs : step s = .next t) :
    t.bf.ovfCnt = (if s.nextIn.bfPush && decide (s.bf.count = s.cfg.fifoDepth) then bump s.cfg.cntW s.bf.ovfCnt
      else s.bf.ovfCnt) ∧
    t.out.bfOvf = (s.nextIn.bfPush && decide (s.bf.count = s.cfg.fifoDepth)) := by
  obtain ⟨-, ne, ts, x, -, rfl⟩ := step_next_eq hr hs
  rw [← pushRefused_pushIn _ h]
  exact ⟨rfl, rfl⟩

/-- A counter at its last value wraps to 0 (R27). -/
theorem bump_last (w : Nat) : bump w (2 ^ w - 1) = 0 := by
  rw [bump, Nat.sub_add_cancel Nat.one_le_two_pow, Nat.mod_self]

end Sys2Proof.Machine

namespace Sys2Proof

open Machine

/-- Settles O21: BF's outputs are `outPart`'s, with the ports' push and pop. -/
theorem fifoOutputsOfACycle : Obligations.FifoOutputsOfACycle := by
  intro s t hcount hw hr hs
  obtain ⟨-, hovf⟩ := step_overflow hcount hr hs
  obtain ⟨-, ne, ts, x, -, rfl⟩ := step_next_eq hr hs
  have hpop := bfPopIn_separate (c := s.nextIn) hw
  exact ⟨pushAccepted_pushIn _ _, congrArg s.popValid hpop, rfl, hovf⟩

/-- Settles O22: an overflow is a push into a full FIFO (`step_overflow`), and reset clears the count. -/
theorem overflowsAreCounted : Obligations.OverflowsAreCounted := by
  intro s t hcount hs
  refine ⟨fun hr hpush hfull => ?overflow, fun hr hnot => ?other, fun hr => ?reset⟩
  case overflow =>
    obtain ⟨hcnt, hovf⟩ := step_overflow hcount hr hs
    rw [hpush, decide_eq_true hfull] at hcnt hovf
    exact ⟨hcnt, hovf, fun hlast => hcnt.trans (by rw [hlast]; exact bump_last _)⟩
  case other =>
    obtain ⟨hcnt, hovf⟩ := step_overflow hcount hr hs
    have hnone : (s.nextIn.bfPush && decide (s.bf.count = s.cfg.fifoDepth)) = false := by simpa using hnot
    rw [hnone] at hcnt hovf
    exact ⟨hcnt, hovf⟩
  case reset =>
    rw [step, cycle_reset _ _ hr] at hs
    cases hs
    rfl

/-- Settles O23: by the push and the pop of the operation (`exec_bf_ports`), which decide what is written. -/
theorem fifoFrames : Obligations.FifoFrames := by
  intro i s t hu hs
  obtain ⟨p, q, hcycle, hpush, hpop⟩ := exec_bf_ports hu
  rw [hcycle, bfCycle_eq_next] at hs
  obtain ⟨-, rfl⟩ := hs
  refine ⟨fun a ha => read_bfAfter_ne s p q ha, fun h => ?memory, fun h => ?head, fun h => ?overflow, rfl, rfl, rfl⟩
  case memory =>
    obtain ⟨hmem, htail⟩ := bfAfter_not_accepted (pushAccepted_eq_false ((or_assoc.2 h).imp_left hpush)) q
    exact ⟨fun a => congrArg (Memory.read · a) hmem, htail⟩
  case head => exact bfAfter_head_not_valid (popValid_eq_false ((or_assoc.2 h).imp_left hpop)) p
  case overflow =>
    show (bfAfter s p q).ovfCnt = s.bf.ovfCnt
    rw [bfAfter_ovfCnt, pushRefused_eq_false ((or_assoc.2 h).imp_left hpush), if_neg Bool.false_ne_true]

/-- Settles O17: the push is accepted where there is room and refused elsewhere (`bfCycle_next_by_outcome`). -/
theorem pushStoresOrDropsNewest : Obligations.PushStoresOrDropsNewest := by
  intro s b ht
  refine ⟨_, bfCycle_eq_next.2 ⟨fifoIndexBad_eq_false.2 ⟨nofun, fun _ => ht⟩, rfl⟩, fun hroom => ?stored,
    fun hfull => ?dropped⟩
  case stored =>
    rw [bfCycle_next_by_outcome (pushAccepted_of_room hroom b) rfl
      (pushRefused_eq_false (.inr hroom))]
    refine ⟨rfl, ?_, rfl, fun hlast => decide_eq_true hlast⟩
    exact congrArg (Option.getD · _) (read_write_self s.bf.fifoMem s.bf.tail b)
  case dropped =>
    exact bfCycle_next_by_outcome (pushAccepted_eq_false (.inr hfull)) rfl
      (pushRefused_of_full hfull b)

/-- Settles O18: the pop returns a byte exactly where BF is not empty (`bfCycle_next_by_outcome`). -/
theorem popRemovesTheOldestByte : Obligations.PopRemovesTheOldestByte := by
  intro s hh
  refine ⟨_, bfCycle_eq_next.2 ⟨fifoIndexBad_eq_false.2 ⟨fun _ => hh, nofun⟩, rfl⟩, fun hsome => ?returned,
    fun hnone => ?empty⟩
  case returned =>
    rw [bfCycle_next_by_outcome rfl (popValid_of_pos hsome) rfl]
    refine ⟨rfl, fun hone => decide_eq_true ?_, fun hle => decide_eq_false ?_⟩
    · show s.bf.count - 1 = 0
      omega
    · show s.bf.count - 1 ≠ s.cfg.fifoDepth
      omega
  case empty =>
    exact bfCycle_next_by_outcome rfl (popValid_eq_false (.inr hnone)) rfl

/-- Settles O19: the three cases of `count` fix what becomes of the push and of the pop (`bfCycle_next_by_outcome`). -/
theorem pushPopJudgesBothOnThePreState : Obligations.PushPopJudgesBothOnThePreState := by
  intro s b hh ht
  refine ⟨_, bfCycle_eq_next.2 ⟨fifoIndexBad_eq_false.2 ⟨fun _ => hh, fun _ => ht⟩, rfl⟩, fun hempty => ?empty,
    fun hfull => ?full, fun hsome hroom => ?between⟩
  case empty =>
    have hroom : s.bf.count < s.cfg.fifoDepth := by omega
    rw [bfCycle_next_by_outcome (pushAccepted_of_room hroom b)
      (popValid_eq_false (.inr hempty)) (pushRefused_eq_false (.inr hroom)), hempty]
    rfl
  case full =>
    have hsome : 0 < s.bf.count := by omega
    rw [bfCycle_next_by_outcome
      (pushAccepted_eq_false (.inr hfull.not_lt)) (popValid_of_pos hsome) (pushRefused_of_full hfull.not_lt b), hfull]
    rfl
  case between =>
    exact bfCycle_next_by_outcome (pushAccepted_of_room hroom b)
      (popValid_of_pos hsome) (pushRefused_eq_false (.inr hroom))

/-- Settles O20: no push to accept or refuse, and no pop. -/
theorem nopChangesNoState : Obligations.NopChangesNoState := fun s =>
  ⟨_, (exec_bfNop s).trans (bfCycle_eq_next.2 ⟨rfl, rfl⟩), rfl, rfl, rfl, rfl⟩

end Sys2Proof
end

section
/-! PROOFS. BF's runs: pushes and then pops, one a cycle (R108, R109). -/

namespace Sys2Proof.Machine

/-! ### Runs that drive BF's ports alone -/

/-- `n` cycles from `s` lead to `t` with `rest` still to come, the units apart; the cycles show `shown` through `view`,
and BF's invariant holds at the end. -/
structure RingRun {α : Type} (view : Outputs → α) (n : Nat) (shown : List α) (rest : List CycleIn) (s t : State) :
    Prop where
  run : run n s = .next t
  shown : (trace n s).map view = shown
  inv : BfInv t
  cfg : t.cfg = s.cfg
  wiring : t.wiring = .separate
  inputs : t.inputs = rest

/-- What a pop shows: whether it returns a byte, and the byte (R101). -/
def poppedByte (o : Outputs) : Bool × Byte := (o.bfPopValid, o.bfPopData)

section
variable {α : Type} {view : Outputs → α}

theorem RingRun.refl {s : State} {rest : List CycleIn} (h : BfInv s) (hw : s.wiring = .separate)
    (hi : s.inputs = rest) : RingRun view 0 [] rest s s :=
  ⟨rfl, rfl, h, rfl, hw, hi⟩

theorem RingRun.cons {n : Nat} {x : α} {l : List α} {r r' : List CycleIn} {s t u : State}
    (h : RingRun view 1 [x] r s t) (h' : RingRun view n l r' t u) : RingRun view (n + 1) (x :: l) r' s u := by
  obtain ⟨hrun, htrace, -⟩ := run_add 1 n h.run
  rw [Nat.add_comm n 1]
  refine ⟨hrun.trans h'.run, ?_, h'.inv, h'.cfg.trans h.cfg, h'.wiring, h'.inputs⟩
  rw [htrace, List.map_append, h.shown, h'.shown]
  rfl

end

/-- One push: its byte joins the end of the stored ones where BF has room; where it has none, the overflow is counted
(R102). -/
theorem ringRun_push {s : State} {b : Byte} {rest : List CycleIn} (h : BfInv s) (hw : s.wiring = .separate)
    (hi : s.inputs = push b :: rest) :
    ∃ t, RingRun (·.bfPushOk) 1 [decide (s.bf.count < s.cfg.fifoDepth)] rest s t ∧
      t.fifoBytes = s.fifoBytes ++ (if s.bf.count < s.cfg.fifoDepth then [b] else []) ∧
      t.bf.ovfCnt = if s.bf.count < s.cfg.fifoDepth then s.bf.ovfCnt else bump s.cfg.cntW s.bf.ovfCnt := by
  obtain ⟨t, hstep, hbf, hc, he, hwt, hit, hok, -, -⟩ := step_bfPorts hw hi h.head_lt h.tail_lt rfl rfl rfl rfl
  obtain ⟨hinv, hbytes⟩ := bfInv_bfAfter h (some b) false hbf hc he
  refine ⟨t, ⟨run_succ 0 hstep, ?_, hinv, hc, hwt, hit⟩, by simpa using hbytes, ?_⟩
  · rw [trace_succ 0 hstep]
    exact congrArg (fun x => [x]) hok
  · rw [hbf]
    by_cases hroom : s.bf.count < s.cfg.fifoDepth <;> simp [bfAfter, pushIn, push, hroom]

/-- One pop of a BF that is not empty: it returns the oldest byte and removes it (R103). -/
theorem ringRun_pop {s : State} {b : Byte} {q : List Byte} {rest : List CycleIn} (h : BfInv s)
    (hw : s.wiring = .separate) (hi : s.inputs = pop :: rest) (hq : s.fifoBytes = b :: q) :
    ∃ t, RingRun poppedByte 1 [(true, b)] rest s t ∧ t.fifoBytes = q ∧ t.bf.ovfCnt = s.bf.ovfCnt := by
  obtain ⟨t, hstep, hbf, hc, he, hwt, hit, -, hvalid, hdata⟩ := step_bfPorts hw hi h.head_lt h.tail_lt rfl rfl rfl rfl
  obtain ⟨hinv, hbytes⟩ := bfInv_bfAfter h none true hbf hc he
  have hpop : s.popValid true = true := (popValid_true_iff s).2 (by rw [hq]; exact List.cons_ne_nil b q)
  refine ⟨t, ⟨run_succ 0 hstep, ?_, hinv, hc, hwt, hit⟩, by simpa [hpop, hq] using hbytes, by rw [hbf]; rfl⟩
  have hbyte : t.out.bfPopData = b := hdata.trans ((popData_true h).trans (by rw [hq]; rfl))
  rw [trace_succ 0 hstep]
  exact congrArg (fun x => [x]) (Prod.ext (hvalid.trans hpop) hbyte)

/-- Pushes into a BF with room for `room` bytes: the first `room` are stored behind the bytes already there, and the
others are refused and counted. -/
theorem ringRun_pushes (l : List Byte) {s : State} {room : Nat} {rest : List CycleIn} (h : BfInv s)
    (hw : s.wiring = .separate) (hi : s.inputs = l.map push ++ rest) (hroom : s.bf.count + room = s.cfg.fifoDepth) :
    ∃ t, RingRun (·.bfPushOk) l.length
        (List.replicate (min room l.length) true ++ List.replicate (l.length - room) false) rest s t ∧
      t.fifoBytes = s.fifoBytes ++ l.take room ∧
      t.bf.ovfCnt = (s.bf.ovfCnt + (l.length - room)) % 2 ^ s.cfg.cntW := by
  induction l generalizing s room with
  | nil => exact ⟨s, by simpa using RingRun.refl h hw hi, by simp, by simpa using (Nat.mod_eq_of_lt h.ovf_lt).symm⟩
  | cons b l ih =>
    obtain ⟨u, hu, hbytes, hovf⟩ := ringRun_push h hw hi
    have hcount : u.bf.count = s.bf.count + if s.bf.count < s.cfg.fifoDepth then 1 else 0 := by
      have hlength := congrArg List.length hbytes
      rw [List.length_append, length_fifoBytes, length_fifoBytes] at hlength
      rw [hlength]
      split <;> rfl
    cases room with
    | zero =>
      have hfull : ¬ s.bf.count < s.cfg.fifoDepth := by omega
      simp only [hfull, if_false, decide_false, List.append_nil, Nat.add_zero] at hu hbytes hovf hcount
      obtain ⟨t, ht, htbytes, htovf⟩ := ih (room := 0) hu.inv hu.wiring hu.inputs (by rw [hcount, hu.cfg]; exact hroom)
      refine ⟨t, by simpa [List.replicate_succ] using hu.cons ht, by simpa [hbytes] using htbytes, ?_⟩
      rw [htovf, hovf, hu.cfg, bump, Nat.mod_add_mod, List.length_cons]
      congr 1
      omega
    | succ room =>
      have hfree : s.bf.count < s.cfg.fifoDepth := by omega
      simp only [hfree, if_true, decide_true] at hu hbytes hovf hcount
      obtain ⟨t, ht, htbytes, htovf⟩ := ih (room := room) hu.inv hu.wiring hu.inputs (by rw [hcount, hu.cfg]; omega)
      refine ⟨t, ?_, by simpa [hbytes] using htbytes, ?_⟩
      · rw [List.length_cons, Nat.add_min_add_right, Nat.add_sub_add_right]
        exact hu.cons ht
      · rw [htovf, hovf, hu.cfg, List.length_cons, Nat.add_sub_add_right]

/-- As many pops as BF stores bytes: they return the stored bytes in order, and BF is empty. -/
theorem ringRun_pops {q : List Byte} {s : State} {rest : List CycleIn} (h : BfInv s) (hw : s.wiring = .separate)
    (hq : s.fifoBytes = q) (hi : s.inputs = List.replicate q.length pop ++ rest) :
    ∃ t, RingRun poppedByte q.length (q.map fun b => (true, b)) rest s t ∧ t.bf.count = 0 ∧
      t.bf.ovfCnt = s.bf.ovfCnt := by
  induction q generalizing s with
  | nil => exact ⟨s, .refl h hw hi, by rw [← length_fifoBytes, hq]; rfl, rfl⟩
  | cons b q ih =>
    obtain ⟨u, hu, hbytes, hovf⟩ := ringRun_pop h hw hi hq
    obtain ⟨t, ht, hempty, htovf⟩ := ih hu.inv hu.wiring hbytes hu.inputs
    exact ⟨t, hu.cons ht, hempty, htovf.trans hovf⟩

/-- Pushes, and then as many pops as BF stores bytes after them. -/
theorem ringRun_pushes_pops (l : List Byte) {s : State} {room : Nat} {rest : List CycleIn} (h : BfInv s)
    (hw : s.wiring = .separate) (hroom : s.bf.count + room = s.cfg.fifoDepth)
    (hi : s.inputs = l.map push ++ List.replicate (s.bf.count + min room l.length) pop ++ rest) :
    ∃ t, run (l.length + (s.bf.count + min room l.length)) s = .next t ∧ t.bf.count = 0 ∧
      t.bf.ovfCnt = (s.bf.ovfCnt + (l.length - room)) % 2 ^ s.cfg.cntW ∧
      ((trace (l.length + (s.bf.count + min room l.length)) s).take l.length).map (·.bfPushOk) =
        List.replicate (min room l.length) true ++ List.replicate (l.length - room) false ∧
      ((trace (l.length + (s.bf.count + min room l.length)) s).drop l.length).map poppedByte =
        (s.fifoBytes ++ l.take room).map fun b => (true, b) := by
  obtain ⟨u, hu, hbytes, hovf⟩ := ringRun_pushes l h hw (by rw [hi, List.append_assoc]) hroom
  have hlength : (s.fifoBytes ++ l.take room).length = s.bf.count + min room l.length := by
    rw [List.length_append, length_fifoBytes, List.length_take]
  obtain ⟨t, ht, hempty, htovf⟩ := ringRun_pops hu.inv hu.wiring hbytes (by rw [hlength]; exact hu.inputs)
  rw [hlength] at ht
  obtain ⟨hrun, htrace, htracelen⟩ := run_add l.length (s.bf.count + min room l.length) hu.run
  refine ⟨t, hrun.trans ht.run, hempty, htovf.trans hovf, ?_, ?_⟩
  · rw [htrace, List.take_left' htracelen, hu.shown]
  · rw [htrace, List.drop_left' htracelen, ht.shown]

end Sys2Proof.Machine

namespace Sys2Proof

open Machine

/-- Settles O25: with room for every pushed byte, `ringRun_pushes_pops` has no byte left over to refuse. -/
theorem popsReturnBytesInOrder : Obligations.PopsReturnBytesInOrder := by
  intro s l rest h hw hfit hi
  refine ⟨fun h0 => List.length_eq_zero_iff.1 ((length_fifoBytes s).trans h0), ?_⟩
  have hroom : s.bf.count + (s.cfg.fifoDepth - s.bf.count) = s.cfg.fifoDepth := Nat.add_sub_of_le h.count_le
  have hle : l.length ≤ s.cfg.fifoDepth - s.bf.count := by omega
  have hruns := ringRun_pushes_pops l (rest := rest) h hw hroom
  rw [Nat.min_eq_right hle, Nat.sub_eq_zero_of_le hle, List.take_of_length_le hle, Nat.add_zero,
    Nat.mod_eq_of_lt h.ovf_lt, List.replicate_zero, List.append_nil, ← List.map_const'] at hruns
  exact hruns hi

/-- Settles O26: an empty BF has room for `FIFO_DEPTH` bytes, fewer than are pushed (`ringRun_pushes_pops`). -/
theorem overfullPushesDropTheNewest : Obligations.OverfullPushesDropTheNewest := by
  intro s l rest h hw h0 hover hi
  have hempty : s.fifoBytes = [] := List.length_eq_zero_iff.1 ((length_fifoBytes s).trans h0)
  have hruns := ringRun_pushes_pops l (rest := rest) h hw (room := s.cfg.fifoDepth) (by rw [h0, Nat.zero_add])
  rw [h0, Nat.zero_add, Nat.min_eq_left hover.le, hempty, List.nil_append] at hruns
  exact hruns hi

end Sys2Proof
end

section
/-! PROOFS. FD's rows and FD's part of a step: what each writes, shows and leaves unchanged (R121 to R134, R139,
R141). -/

namespace Sys2Proof.Machine

/-! ### FD's registers and events after a byte -/

/-- A code that R29 does not name goes to IDLE (R132). -/
theorem fdAfter_badState {fd : FdState} (h : 4 < fd.st.toNat) (c : Config) (b : Byte) :
    fdAfter c fd b = { fd with st := stIdle } := by
  have hne : ∀ code : BitVec 3, code.toNat ≤ 4 → fd.st ≠ code := fun code hcode hst => by
    rw [hst] at h
    omega
  unfold fdAfter
  rw [if_neg (hne stIdle (by decide)), if_neg (hne stSawSync1 (by decide)), if_neg (hne stReadLen (by decide)),
    if_neg (hne stReadPayload (by decide)), if_neg (hne stReadChecksum (by decide))]

/-- FD's event outputs, `fd_frame_valid`, `fd_chk_err` and `fd_sync_err`. -/
def fdEvents (o : Outputs) : Bool × Bool × Bool := (o.fdFrameValid, o.fdChkErr, o.fdSyncErr)

/-- The events of a byte. -/
def byteEvents (fd : FdState) (b : Byte) : Bool × Bool × Bool := (fdFrame fd b, fdChkBad fd b, fdSyncBad fd b)

/-- Only SAW_SYNC1 and READ_CHECKSUM have an event. -/
theorem byteEvents_quiet {fd : FdState} {code : BitVec 3} (hst : fd.st = code) (b : Byte)
    (hcode : code ≠ stSawSync1 ∧ code ≠ stReadChecksum := by decide) : byteEvents fd b = (false, false, false) := by
  simp [byteEvents, fdFrame, fdChkBad, fdSyncBad, hst, hcode]

theorem byteEvents_sawSync1 {fd : FdState} (hst : fd.st = stSawSync1) (b : Byte) :
    byteEvents fd b = if b = sync2 then (false, false, false) else (false, false, true) := by
  have hne : stSawSync1 ≠ stReadChecksum := by decide
  by_cases hb : b = sync2 <;> simp [byteEvents, fdFrame, fdChkBad, fdSyncBad, hst, hne, hb]

theorem byteEvents_checksum {fd : FdState} (hst : fd.st = stReadChecksum) (b : Byte) :
    byteEvents fd b = if b = fd.sum then (true, false, false) else (false, true, false) := by
  have hne : stReadChecksum ≠ stSawSync1 := by decide
  by_cases hb : b = fd.sum <;> simp [byteEvents, fdFrame, fdChkBad, fdSyncBad, hst, hne, hb]

/-- At most one of three events is asserted. -/
abbrev AtMostOneEvent (e : Bool × Bool × Bool) : Prop :=
  ¬ (e.1 = true ∧ e.2.1 = true) ∧ ¬ (e.1 = true ∧ e.2.2 = true) ∧ ¬ (e.2.1 = true ∧ e.2.2 = true)

theorem atMostOneEvent_byteEvents (fd : FdState) (b : Byte) : AtMostOneEvent (byteEvents fd b) := by
  by_cases hsync : fd.st = stSawSync1
  · rw [byteEvents_sawSync1 hsync]
    split <;> decide
  by_cases hchk : fd.st = stReadChecksum
  · rw [byteEvents_checksum hchk]
    split <;> decide
  · rw [byteEvents_quiet rfl b ⟨hsync, hchk⟩]
    decide

/-! ### FD's part of a step -/

section
variable {s t : State} (hr : s.nextIn.rst = false) (hs : step s = .next t)
include hr hs

/-- With a byte, a step outside reset leaves FD's registers and events as the byte has them. -/
theorem step_fd_byte {b : Byte} (hb : fdByteIn s.nextIn s = some b) :
    FdReady s.fd ∧ t.fd = fdAfter s.cfg s.fd b ∧ fdEvents t.out = byteEvents s.fd b := by
  obtain ⟨⟨-, hready⟩, ne, ts, x, -, rfl⟩ := step_next_eq hr hs
  exact ⟨hready b hb, by simp [fdPart, hb], by simp [fdEvents, byteEvents, outPart, hb]⟩

/-- Without a byte, a step outside reset leaves FD as it was and raises no event (R121). -/
theorem step_fd_noByte (hb : fdByteIn s.nextIn s = none) : t.fd = s.fd ∧ fdEvents t.out = (false, false, false) := by
  obtain ⟨-, ne, ts, x, -, rfl⟩ := step_next_eq hr hs
  exact ⟨by simp [fdPart, hb], by simp [fdEvents, outPart, hb]⟩

/-- A step outside reset shows the pre-state's `len`, `sum` and payload byte (R30, R32, R134). -/
theorem step_fd_levels : t.out.fdFrameLen = s.fd.len ∧ t.out.fdFrameChk = s.fd.sum ∧
    t.out.fdRdData = s.fdRdData s.nextIn.fdRdAddr := by
  obtain ⟨-, ne, ts, x, -, rfl⟩ := step_next_eq hr hs
  exact ⟨rfl, rfl, rfl⟩

end

/-- A reset cycle raises no event of FD (R220). -/
theorem step_reset_fdEvents {s t : State} (hr : s.nextIn.rst = true) (hs : step s = .next t) :
    fdEvents t.out = (false, false, false) := by
  rw [step, cycle_reset _ _ hr] at hs
  cases hs
  rfl

/-- Where FD takes a byte, R73 has a row for it, and exec of the row on the sampled state does what the byte does. -/
theorem exec_fdRow_sample {c : CycleIn} {s : State} {b : Byte} (hb : fdByteIn c s = some b) (hready : FdReady s.fd) :
    ∃ i v, fdRow s b = .ok i ∧ exec i (sample c s) = .next v ∧ v.fd = fdAfter s.cfg s.fd b ∧
      fdEvents v.out = byteEvents s.fd b := by
  have hstep := fdStep_eq (t := sample c s) hb rfl ⟨rfl, rfl, rfl⟩
  rw [if_pos hready] at hstep
  cases hi : fdRow s b with
  | error e => rw [fdStep, hb] at hstep; simp only [hi] at hstep; cases hstep
  | ok i =>
    rw [fdStep_some hb hi] at hstep
    exact ⟨i, _, rfl, hstep, rfl, rfl⟩

/-- Another read address in the sampled cycle shows another payload byte, and nothing else (R134). -/
theorem sample_fdRdAddr {s : State} {c : CycleIn} {l : List CycleIn} (a : BitVec 11) (hi : s.inputs = c :: l) :
    sample { c with fdRdAddr := a } { s with inputs := { c with fdRdAddr := a } :: l } =
      withOthers s.bf s.fd (levelOutputs s a) (sample c s) := by
  unfold sample withOthers
  rw [hi]
  rfl

/-- NE's step reads no output, and BF and FD read no address: outside reset the address reaches `fd_rd_data` alone. -/
theorem step_fdRdAddr {s t : State} {c : CycleIn} {l : List CycleIn} (a : BitVec 11) (hi : s.inputs = c :: l)
    (hr : c.rst = false) (hs : step s = .next t) :
    step { s with inputs := { c with fdRdAddr := a } :: l } =
      .next { t with out := { t.out with fdRdData := s.fdRdData a } } := by
  have hparts := step_next_parts (by rw [nextIn_cons hi]; exact hr) hs
  rw [nextIn_cons hi] at hparts
  obtain ⟨hready, v, hv, rfl⟩ := hparts
  refine step_of_neStep (v := withOthers s.bf s.fd (levelOutputs s a) v) hr hready ?_
  show neStep c s (sample { c with fdRdAddr := a } _) = _
  rw [sample_fdRdAddr a hi, neStep_withOthers, hv, mapNext_next]

/-! ### The receive path (R141) -/

/-- A BF that stores at most one byte stores just the pushed one after a cycle that pops. -/
theorem fifoBytes_drained {s t : State} (h : BfInv s) (hcount : s.bf.count ≤ 1) (hroom : s.bf.count < s.cfg.fifoDepth)
    {p : Option Byte} (hb : t.bf = bfAfter s p true) (hc : t.cfg = s.cfg) (he : t.epoch = s.epoch) :
    t.fifoBytes = p.toList := by
  have hpopped : s.fifoBytes.tail = [] := by
    rw [← List.length_eq_zero_iff, List.length_tail, length_fifoBytes]
    omega
  rw [(bfInv_bfAfter h p true hb hc he).2, popped_fifoBytes, hpopped, List.nil_append]
  cases p with
  | none => rfl
  | some b => rw [if_pos (pushAccepted_of_room hroom b)]; rfl

/-- The byte that BF stores alone is the one at `head`. -/
theorem fifoByte_head_of_singleton {s : State} (h : BfInv s) {b : Byte} (hb : s.fifoBytes = [b]) :
    0 < s.bf.count ∧ s.fifoByte s.bf.head = b := by
  have hcount : s.bf.count = 1 := by rw [← length_fifoBytes, hb]; rfl
  have hdata := popData_true h
  rw [hb, State.popData, popValid_true, hcount] at hdata
  exact ⟨hcount ▸ Nat.one_pos, hdata⟩

/-! ### What FD's rows write (R122 to R132) -/

/-- Where `idx` names an entry of `Buf`, a payload row stores its byte there and adds it to the sum, modulo 256. -/
theorem fdTakePayload_next {s : State} (hidx : s.fd.idx.toNat < maxFrame) (b : Byte) (code : BitVec 3) :
    ∃ t, fdTakePayload b code s = .next t ∧ t.bufByte s.fd.idx.toNat = b ∧
      t.fd.idx.toNat = s.fd.idx.toNat + 1 ∧ t.fd.sum.toNat = (s.fd.sum.toNat + b.toNat) % 256 ∧
      t = { s with fd := { s.fd with
        buf := Memory.write s.fd.buf s.fd.idx.toNat b, idx := t.fd.idx, sum := t.fd.sum, st := code } } := by
  refine ⟨_, fdTakePayload_eq_next.2 ⟨hidx, rfl⟩, ?_, ?_, BitVec.toNat_add _ _, rfl⟩
  · simp [State.bufByte, read_write_self]
  · unfold maxFrame at hidx
    exact (BitVec.toNat_add _ _).trans (Nat.mod_eq_of_lt (show s.fd.idx.toNat + 1 < 2048 by omega))

/-- A payload row. -/
abbrev IsPayloadRow (i : Instr) : Prop := ∃ b, i = .fdPayloadMore b ∨ i = .fdPayloadLast b

/-- A length row. -/
abbrev IsLengthRow (i : Instr) : Prop := i = .fdLenZero ∨ ∃ b, i = .fdLenNonzero b

/-- The registers an FD row may write besides `st`: each by its own rows alone. -/
structure FdRowWrites (i : Instr) (fd fd' : FdState) : Prop where
  buf_ne : ∀ a, a ≠ fd.idx.toNat → Memory.read fd'.buf a = Memory.read fd.buf a
  buf : ¬ IsPayloadRow i → fd'.buf = fd.buf
  len : ¬ IsLengthRow i → fd'.len = fd.len
  idx : ¬ IsLengthRow i → ¬ IsPayloadRow i → fd'.idx = fd.idx
  sum : ¬ IsLengthRow i → ¬ IsPayloadRow i → fd'.sum = fd.sum
  frameCnt : (¬ ∃ b, i = .fdChkMatch b) → fd'.frameCnt = fd.frameCnt
  chkErrCnt : (¬ ∃ b, i = .fdChkMismatch b) → fd'.chkErrCnt = fd.chkErrCnt
  syncErrCnt : (¬ ∃ b, i = .fdSawSync1Other b) → fd'.syncErrCnt = fd.syncErrCnt

/-- A row may always go to another state. -/
theorem fdRowWrites_st (i : Instr) (fd : FdState) (code : BitVec 3) : FdRowWrites i fd { fd with st := code } := by
  constructor <;> intros <;> rfl

theorem fdRowWrites_length {i : Instr} (h : IsLengthRow i) (fd : FdState) (n : BitVec 11) :
    FdRowWrites i fd { fd with len := n, idx := 0#11, sum := 0#8, st := stReadPayload } :=
  { fdRowWrites_st i fd stReadPayload with
    len := fun hn => absurd h hn
    idx := fun hn => absurd h hn
    sum := fun hn => absurd h hn }

theorem fdRowWrites_payload {i : Instr} (h : IsPayloadRow i) (fd : FdState) (b : Byte) (code : BitVec 3) :
    FdRowWrites i fd { fd with
      buf := Memory.write fd.buf fd.idx.toNat b, idx := fd.idx + 1#11, sum := fd.sum + b, st := code } :=
  { fdRowWrites_st i fd code with
    buf_ne := fun _ ha => read_write_ne _ _ ha
    buf := fun hn => absurd h hn
    idx := fun _ hn => absurd h hn
    sum := fun _ hn => absurd h hn }

/-- Each FD row makes the writes of its kind. -/
theorem fdRowWrites_exec {i : Instr} (hu : unitOf i = .fd) {s t : State} (hs : exec i s = .next t) :
    FdRowWrites i s.fd t.fd := by
  cases i <;> cases hu
  case fdIdleSync1 | fdSawSync1Sync2 | fdBadState | fdIdleOther => cases hs; exact fdRowWrites_st _ s.fd _
  case fdSawSync1Other b =>
    cases hs
    exact { fdRowWrites_st _ s.fd stIdle with syncErrCnt := fun hn => absurd ⟨b, rfl⟩ hn }
  case fdLenZero => cases hs; exact fdRowWrites_length (.inl rfl) s.fd _
  case fdLenNonzero b => cases hs; exact fdRowWrites_length (.inr ⟨b, rfl⟩) s.fd _
  case fdPayloadMore b =>
    obtain ⟨-, rfl⟩ := fdTakePayload_eq_next.1 hs
    exact fdRowWrites_payload ⟨b, .inl rfl⟩ s.fd b _
  case fdPayloadLast b =>
    obtain ⟨-, rfl⟩ := fdTakePayload_eq_next.1 hs
    exact fdRowWrites_payload ⟨b, .inr rfl⟩ s.fd b _
  case fdChkMatch b =>
    cases hs
    exact { fdRowWrites_st _ s.fd stIdle with frameCnt := fun hn => absurd ⟨b, rfl⟩ hn }
  case fdChkMismatch b =>
    cases hs
    exact { fdRowWrites_st _ s.fd stIdle with chkErrCnt := fun hn => absurd ⟨b, rfl⟩ hn }

end Sys2Proof.Machine

namespace Sys2Proof

open Machine

/-- Settles O30: a byte's registers and events (`step_fd_byte`), read state by state. -/
theorem frameDecoderTransitions : Obligations.FrameDecoderTransitions := by
  intro s t b hr hb hs ev
  obtain ⟨-, hfd, hev⟩ := step_fd_byte hr hs (fdByteIn_arrives hb)
  obtain ⟨hlen, hsum, -⟩ := step_fd_levels hr hs
  change ev = _ at hev
  rw [hfd, hev]
  refine ⟨?sync1, ?discard, ?sync2, ?syncError, ?length, ?more, ?last, ?accept, ?mismatch, ?bad⟩
  case sync1 => exact fun hst h => ⟨(fdAfter_idle hst _ _).trans (if_pos h), byteEvents_quiet hst b⟩
  case discard => exact fun hst h => ⟨(fdAfter_idle hst _ _).trans (if_neg h), byteEvents_quiet hst b⟩
  case sync2 =>
    exact fun hst h => ⟨(fdAfter_sawSync1 hst _ _).trans (if_pos h), (byteEvents_sawSync1 hst b).trans (if_pos h)⟩
  case syncError =>
    exact fun hst h => ⟨(fdAfter_sawSync1 hst _ _).trans (if_neg h), (byteEvents_sawSync1 hst b).trans (if_neg h)⟩
  case length =>
    refine fun hst => ⟨?_, byteEvents_quiet hst b⟩
    rw [BitVec.ofNat_toNat]
    exact fdAfter_readLen hst _ _
  case more =>
    refine fun hst h => ⟨(fdAfter_payload hst _ _).trans ?_, byteEvents_quiet hst b⟩
    rw [if_pos h]
    rfl
  case last =>
    refine fun hst h => ⟨(fdAfter_payload hst _ _).trans ?_, byteEvents_quiet hst b⟩
    rw [if_neg h.not_lt]
    rfl
  case accept =>
    exact fun hst h => ⟨(fdAfter_checksum hst _ _).trans (if_pos h), (byteEvents_checksum hst b).trans (if_pos h), hlen,
      hsum.trans h.symm⟩
  case mismatch =>
    exact fun hst h => ⟨(fdAfter_checksum hst _ _).trans (if_neg h), (byteEvents_checksum hst b).trans (if_neg h)⟩
  case bad =>
    refine fun hst => ⟨fdAfter_badState hst _ _, byteEvents_quiet rfl b ?_⟩
    revert hst
    generalize s.fd.st = code
    revert code
    decide

/-- Settles O31: where no byte arrives FD takes none (`step_fd_noByte`). -/
theorem noByteNoChange : Obligations.NoByteNoChange := by
  intro s t hr hs hb
  obtain ⟨hfd, hev⟩ := step_fd_noByte hr hs (fdByteIn_noByte hb)
  simpa [fdEvents] using And.intro hfd hev

/-- Settles O32: a byte has at most one event (`atMostOneEvent_byteEvents`), and a cycle without one has none. -/
theorem atMostOneFrameEvent : Obligations.AtMostOneFrameEvent := by
  intro s t hs
  suffices h : AtMostOneEvent (fdEvents t.out) ∧
      (s.wiring = .separate → s.nextIn.fdInValid = false → fdEvents t.out = (false, false, false)) by
    obtain ⟨⟨hfc, hfs, hcs⟩, hnone⟩ := h
    exact ⟨hfc, hfs, hcs, fun hw hv => by simpa [fdEvents] using hnone hw hv⟩
  have hquiet : fdEvents t.out = (false, false, false) → AtMostOneEvent (fdEvents t.out) := fun h => by rw [h]; decide
  cases hr : s.nextIn.rst with
  | true =>
    have hev := step_reset_fdEvents hr hs
    exact ⟨hquiet hev, fun _ _ => hev⟩
  | false =>
    refine ⟨?_, fun hw hv => (step_fd_noByte hr hs (fdByteIn_noByte (.inl ⟨hw, hv⟩))).2⟩
    cases hb : fdByteIn s.nextIn s with
    | none => exact hquiet (step_fd_noByte hr hs hb).2
    | some b =>
      rw [(step_fd_byte hr hs hb).2.2]
      exact atMostOneEvent_byteEvents s.fd b

/-- Settles O33: the address is read in the outputs alone (`step_fdRdAddr`); a reset cycle does not read it. -/
theorem payloadReadPort : Obligations.PayloadReadPort := by
  refine ⟨fun s t hr hs => (step_fd_levels hr hs).2.2, fun s t c l a hi hs => ?_⟩
  by_cases hr : c.rst = true
  · rw [step, nextIn_cons hi, cycle_reset _ _ hr] at hs
    cases hs
    refine ⟨Config.freeRdDataInReset (s.epoch + 1), (cycle_reset { c with fdRdAddr := a } _ hr).trans ?_⟩
    rw [sample_fdRdAddr a hi]
    rfl
  · exact ⟨s.fdRdData a, step_fdRdAddr a hi (Bool.eq_false_of_not_eq_true hr) hs⟩

/-- Settles O39: an FD row writes FD and its events alone, and of FD's registers those of its kind (`FdRowWrites`). -/
theorem frameDecoderFrames : Obligations.FrameDecoderFrames := by
  intro i s t hu hs
  have hw := fdRowWrites_exec hu hs
  obtain ⟨hbf, hne, hout⟩ : t.bf = s.bf ∧ t.ne = s.ne ∧ { t.out with
      fdFrameValid := s.out.fdFrameValid, fdChkErr := s.out.fdChkErr, fdSyncErr := s.out.fdSyncErr } = s.out := by
    obtain ⟨fd, v, e, y, rfl⟩ := exec_fd_only hu hs
    exact ⟨rfl, rfl, rfl⟩
  refine ⟨hbf, hne, hw.buf_ne, fun hn a => by rw [hw.buf hn], hw.len, fun hl hp => ⟨hw.idx hl hp, hw.sum hl hp⟩,
    hw.frameCnt, hw.chkErrCnt, hw.syncErrCnt, ?_, hout⟩
  have hpayload : IsPayloadRow i → t.out = s.out := by
    rintro ⟨b, rfl | rfl⟩ <;> (obtain ⟨-, rfl⟩ := fdTakePayload_eq_next.1 hs; rfl)
  rintro (rfl | rfl | ⟨b, rfl⟩ | ⟨c, b, rfl⟩ | (rfl | ⟨b, rfl⟩) | hrow)
  case inr.inr.inr.inr.inr => exact hpayload hrow
  all_goals cases hs; rfl

/-- Settles O40: BF, with room for a push, pops what it stores, and FD takes that byte (`exec_fdRow_sample`). -/
theorem receivePathDrainsTheFifo : Obligations.ReceivePathDrainsTheFifo := by
  intro s t h hw hdepth hcount hr hhold hs
  have hpop : bfPopIn s.nextIn s = true := by simp [bfPopIn, hw, hhold]
  have hroom : s.bf.count < s.cfg.fifoDepth := by omega
  have hrefused : s.pushRefused (pushIn s.nextIn) = false := pushRefused_eq_false (.inr hroom)
  obtain ⟨hbytes, hovf, hcnt⟩ :
      t.fifoBytes = (pushIn s.nextIn).toList ∧ t.out.bfOvf = false ∧ t.bf.ovfCnt = s.bf.ovfCnt := by
    obtain ⟨-, ne, ts, x, -, rfl⟩ := step_next_eq hr hs
    refine ⟨?_, hrefused, if_neg (ne_true_of_eq_false hrefused)⟩
    exact fifoBytes_drained h hcount hroom (by rw [hpop]) rfl rfl
  refine ⟨?count, hovf, hcnt, ?pushed, fun hempty => ?none, fun b hb => ?byte⟩
  case count =>
    rw [← length_fifoBytes, hbytes, pushIn]
    split <;> rfl
  case pushed =>
    intro hpush
    rw [hbytes, pushIn, if_pos hpush]
    rfl
  case none => exact (step_fd_noByte hr hs (fdByteIn_noByte (.inr ⟨hw, .inr hempty⟩))).1
  case byte =>
    have harrives : s.ByteArrives b := .inr ⟨hw, hhold, fifoByte_head_of_singleton h hb⟩
    obtain ⟨hready, hfd, hev⟩ := step_fd_byte hr hs (fdByteIn_arrives harrives)
    obtain ⟨i, v, hi, hv, hvfd, hvev⟩ := exec_fdRow_sample (fdByteIn_arrives harrives) hready
    rw [← hfd] at hvfd
    rw [← hev] at hvev
    simp only [fdEvents, Prod.mk.injEq] at hvev
    exact ⟨i, v, hi, hv, hvfd, hvev⟩

/-- Settles O27: the rows' own arms. -/
theorem syncRowsEffects : Obligations.SyncRowsEffects :=
  fun _ _ => ⟨rfl, rfl, rfl, rfl⟩

/-- Settles O28: the length rows' own arms; a payload row takes its byte where `idx` names an entry of `Buf`. -/
theorem lengthAndPayloadRowsEffects : Obligations.LengthAndPayloadRowsEffects := by
  refine fun s b => ⟨rfl, ?_, fun hidx => ⟨?_, ?_⟩⟩
  · rw [BitVec.ofNat_toNat]
    rfl
  · exact fdTakePayload_next hidx b _
  · exact fdTakePayload_next hidx b _

/-- Settles O29: the rows' own arms. -/
theorem checksumRowsEffects : Obligations.ChecksumRowsEffects :=
  fun _ _ _ => ⟨rfl, rfl, rfl⟩

end Sys2Proof
end

section
/-! PROOFS. FD over many cycles: it accepts nothing without a sync pair, takes a frame's bytes whatever they are, and is
back in IDLE after a bounded number of bytes (R136 to R138). -/

namespace Sys2Proof.Machine

/-! ### The bytes that cycles feed -/

theorem fedBytes_cons (c : CycleIn) (l : List CycleIn) :
    fedBytes (c :: l) = (if c.fdInValid then some c.fdInByte else none).toList ++ fedBytes l := by
  cases h : c.fdInValid <;> simp [fedBytes, h]

theorem fedBytes_stream (l : List Byte) : fedBytes (stream l) = l := by
  induction l with
  | nil => rfl
  | cons b l ih => rw [stream, List.map_cons, fedBytes_cons]; exact congrArg (b :: ·) ih

theorem take_stream_append (l : List Byte) (rest : List CycleIn) : (stream l ++ rest).take l.length = stream l :=
  List.take_left' (List.length_map _)

theorem rst_of_mem_stream {l : List Byte} {c : CycleIn} (h : c ∈ stream l) : c.rst = false := by
  obtain ⟨b, -, rfl⟩ := List.mem_map.1 h
  rfl

/-- Units apart, the next cycle's byte comes first among the fed ones; past the queue's end there is none. -/
theorem fedBytes_take_succ {s : State} (hw : s.wiring = .separate) (n : Nat) :
    fedBytes (s.inputs.take (n + 1)) = (fdByteIn s.nextIn s).toList ++ fedBytes (s.inputs.tail.take n) := by
  rw [fdByteIn_separate hw]
  cases hi : s.inputs with
  | nil => simp [State.nextIn, hi, fedBytes, idleIn]
  | cons c l => rw [nextIn_cons hi, List.take_succ_cons, fedBytes_cons, List.tail_cons]

theorem nextIn_rst_of_take {s : State} {n : Nat} (h : ∀ c ∈ s.inputs.take (n + 1), c.rst = false) :
    s.nextIn.rst = false ∧ ∀ c ∈ s.inputs.tail.take n, c.rst = false := by
  cases hi : s.inputs with
  | nil => simp [State.nextIn, hi, idleIn]
  | cons c l =>
    rw [hi, List.take_succ_cons] at h
    rw [nextIn_cons hi]
    exact ⟨h c List.mem_cons_self, fun d hd => h d (List.mem_cons_of_mem c hd)⟩

/-! ### One cycle of a run, whatever BF and NE do -/

/-- A cycle outside reset, the units apart, that presents `x` to FD. -/
structure FedStep (x : Option Byte) (s u : State) : Prop where
  step : step s = .next u
  fd : u.fd = x.elim s.fd (fdAfter s.cfg s.fd)
  valid : u.out.fdFrameValid = x.any (fdFrame s.fd)
  wiring : u.wiring = .separate
  fed : ∀ n, fedBytes (s.inputs.take (n + 1)) = x.toList ++ fedBytes (u.inputs.take n)

/-- A run without reset, the units apart, begins with a cycle that presents a byte to FD or none. -/
theorem exists_fedStep {n : Nat} {s t : State} (hw : s.wiring = .separate)
    (hr : ∀ c ∈ s.inputs.take (n + 1), c.rst = false) (h : run (n + 1) s = .next t) :
    ∃ x u, FedStep x s u ∧ run n u = .next t ∧ ∀ c ∈ u.inputs.take n, c.rst = false := by
  obtain ⟨u, hstep, hrun⟩ := (andThen_eq_next _ _ _).1 h
  obtain ⟨hr₁, hrest⟩ := nextIn_rst_of_take hr
  obtain ⟨-, ne, ts, x, -, rfl⟩ := step_next_eq hr₁ hstep
  refine ⟨fdByteIn s.nextIn s, _, ⟨hstep, ?_, rfl, hw, fedBytes_take_succ hw⟩, hrun, hrest⟩
  show fdPart s.nextIn s = _
  unfold fdPart
  cases fdByteIn s.nextIn s <;> rfl

/-- Bytes fed one a cycle: what holds of FD with the bytes still to come is kept, and the run completes, if it lets FD
take the next byte and holds again after it. -/
theorem feedRun_stream {P : FdState → List Byte → Prop} {c : Config}
    (hP : ∀ fd b l, P fd (b :: l) → FdReady fd ∧ P (fdAfter c fd b) l) (l : List Byte) {l' : List Byte} {s : State}
    {rest : List CycleIn} (hw : s.wiring = .separate) (hi : s.inputs = stream l ++ rest) (hc : s.cfg = c)
    (h : P s.fd (l ++ l')) : ∃ t valid, FeedRun l.length valid rest s t ∧ P t.fd l' := by
  induction l generalizing s with
  | nil => exact ⟨s, [], .refl hw hi, h⟩
  | cons b l ih =>
    obtain ⟨hready, hnext⟩ := hP _ _ _ h
    obtain ⟨u, hu, hfd⟩ := feedRun_byte hw hi hready
    rw [← hc, ← hfd] at hnext
    obtain ⟨t, valid, ht, hend⟩ := ih hu.wiring hu.inputs (hu.cfg.trans hc) hnext
    have hrun := hu.trans ht
    rw [Nat.add_comm, ← List.length_cons] at hrun
    exact ⟨t, _, hrun, hend⟩

/-! ### No sync pair (R136) -/

/-- FD waits for a sync pair, and the bytes to come hold none, together with a 0xAA already seen. -/
def AwaitsSync (fd : FdState) (l : List Byte) : Prop :=
  (fd.st = stIdle ∧ NoSyncPair l) ∨ (fd.st = stSawSync1 ∧ NoSyncPair (sync1 :: l))

theorem NoSyncPair.tail {b : Byte} {l : List Byte} (h : NoSyncPair (b :: l)) : NoSyncPair l := by
  cases l with
  | nil => exact trivial
  | cons a l => exact h.2

theorem AwaitsSync.st {fd : FdState} {l : List Byte} (h : AwaitsSync fd l) :
    fd.st = stIdle ∨ fd.st = stSawSync1 :=
  h.imp And.left And.left

theorem AwaitsSync.not_inFrame {fd : FdState} {l : List Byte} (h : AwaitsSync fd l) : ¬ InFrame fd.st := by
  rcases h.st with hst | hst <;> rw [hst] <;> decide

theorem AwaitsSync.fdReady {fd : FdState} {l : List Byte} (h : AwaitsSync fd l) : FdReady fd :=
  fdReady_of_ne fun hst => h.not_inFrame (.inl hst)

theorem AwaitsSync.fdFrame {fd : FdState} {l : List Byte} (h : AwaitsSync fd l) (b : Byte) : fdFrame fd b = false :=
  fdFrame_of_ne (fun hst => h.not_inFrame (.inr hst)) b

/-- The next byte does not complete a pair, so FD goes on waiting (R122, R123, R125). -/
theorem AwaitsSync.byte {fd : FdState} {b : Byte} {l : List Byte} (h : AwaitsSync fd (b :: l)) (c : Config) :
    AwaitsSync (fdAfter c fd b) l := by
  rcases h with ⟨hst, hl⟩ | ⟨hst, hpair, hl⟩
  · rw [fdAfter_idle hst]
    split
    · next hb => exact .inr ⟨rfl, hb ▸ hl⟩
    · exact .inl ⟨hst, hl.tail⟩
  · rw [fdAfter_sawSync1 hst, if_neg fun hb => hpair ⟨rfl, hb⟩]
    exact .inl ⟨rfl, hl.tail⟩

/-- Over any cycles without reset FD goes on waiting, and no cycle accepts a frame. -/
theorem AwaitsSync.run {n : Nat} {s t : State} (h : AwaitsSync s.fd (fedBytes (s.inputs.take n)))
    (hw : s.wiring = .separate) (hr : ∀ c ∈ s.inputs.take n, c.rst = false) (hrun : run n s = .next t) :
    AwaitsSync t.fd [] ∧ (trace n s).map (fun o => o.fdFrameValid) = List.replicate n false := by
  induction n generalizing s with
  | zero => cases hrun; exact ⟨h, rfl⟩
  | succ n ih =>
    obtain ⟨x, u, hu, hrun', hr'⟩ := exists_fedStep hw hr hrun
    rw [hu.fed] at h
    have hu' : AwaitsSync u.fd (fedBytes (u.inputs.take n)) ∧ u.out.fdFrameValid = false := by
      rw [hu.fd, hu.valid]
      cases x with
      | none => exact ⟨h, rfl⟩
      | some b => exact ⟨h.byte _, h.fdFrame b⟩
    obtain ⟨hend, htrace⟩ := ih hu'.1 hu.wiring hr' hrun'
    refine ⟨hend, ?_⟩
    rw [trace_succ n hu.step, List.map_cons, hu'.2, htrace, List.replicate_succ]

/-! ### How many bytes FD is from IDLE (R137, R138) -/

/-- In READ_PAYLOAD a payload byte is still to come, and the length is one that `Buf` holds. -/
abbrev PayloadPending (fd : FdState) : Prop :=
  fd.st = stReadPayload → fd.idx.toNat < fd.len.toNat ∧ fd.len.toNat ≤ maxFrame

/-- At most how many bytes bring FD to IDLE: inside a frame exactly the rest of its payload and the checksum byte;
before its LENGTH byte that byte and the longest frame's. -/
def bytesToIdle (fd : FdState) : Nat :=
  if fd.st = stIdle then 0
  else if fd.st = stSawSync1 then maxFrame + 3
  else if fd.st = stReadLen then maxFrame + 2
  else if fd.st = stReadPayload then fd.len.toNat - fd.idx.toNat + 1
  else 1

theorem bytesToIdle_idle {fd : FdState} (h : fd.st = stIdle) : bytesToIdle fd = 0 := if_pos h

theorem bytesToIdle_sawSync1 {fd : FdState} (h : fd.st = stSawSync1) : bytesToIdle fd = maxFrame + 3 := by
  rw [bytesToIdle, h]; rfl

theorem bytesToIdle_readLen {fd : FdState} (h : fd.st = stReadLen) : bytesToIdle fd = maxFrame + 2 := by
  rw [bytesToIdle, h]; rfl

theorem bytesToIdle_payload {fd : FdState} (h : fd.st = stReadPayload) :
    bytesToIdle fd = fd.len.toNat - fd.idx.toNat + 1 := by
  rw [bytesToIdle, h]; rfl

theorem bytesToIdle_checksum {fd : FdState} (h : fd.st = stReadChecksum) : bytesToIdle fd = 1 := by
  rw [bytesToIdle, h]; rfl

theorem bytesToIdle_eq_zero {fd : FdState} : bytesToIdle fd = 0 ↔ fd.st = stIdle := by
  refine ⟨fun h => ?_, bytesToIdle_idle⟩
  by_contra hst
  rw [bytesToIdle, if_neg hst] at h
  split_ifs at h

theorem bytesToIdle_le {fd : FdState} (h : PayloadPending fd) : bytesToIdle fd ≤ maxFrame + 3 := by
  by_cases hst : fd.st = stReadPayload
  · have hlen := (h hst).2
    rw [bytesToIdle_payload hst]
    omega
  · rw [bytesToIdle, if_neg hst]
    unfold maxFrame
    split_ifs <;> omega

theorem PayloadPending.fdReady {fd : FdState} (h : PayloadPending fd) : FdReady fd :=
  fun hst => fdReady_of_idx_lt (h hst).1 (h hst).2 hst

theorem FdInv.payloadPending {s : State} (h : FdInv s) : PayloadPending s.fd :=
  fun hst => ⟨h.payload hst, h.len_le_maxFrame⟩

/-- No byte leaves READ_PAYLOAD without a payload byte to come: the LENGTH byte starts a payload that is not empty, and
its last byte goes on to the checksum. -/
theorem PayloadPending.byte {fd : FdState} (h : PayloadPending fd) (c : Config) (b : Byte) :
    PayloadPending (fdAfter c fd b) := by
  by_cases hlen : fd.st = stReadLen
  · rw [fdAfter_readLen hlen]
    exact fun _ => ⟨(decodedLength_encodable b).pos, (decodedLength_encodable b).le_maxFrame⟩
  by_cases hpayload : fd.st = stReadPayload
  · obtain ⟨hlt, hmax⟩ := h hpayload
    rw [fdAfter_payload hpayload]
    intro hst
    by_cases hmore : fd.idx.toNat + 1 < fd.len.toNat
    · simp only [idx_add_one_toNat hlt]
      exact ⟨hmore, hmax⟩
    · exact absurd ((if_neg hmore).symm.trans hst) (by decide)
  · have hout : (fdAfter c fd b).st ≠ stReadPayload := by
      unfold fdAfter
      rw [if_neg hlen, if_neg hpayload]
      split_ifs with hidle <;> simp [hidle] <;> decide
    exact fun hst => absurd hst hout

/-- A byte inside a frame brings FD one byte nearer to IDLE, and to no other state outside the frame. -/
theorem bytesToIdle_byte_inFrame {fd : FdState} (h : PayloadPending fd) (hst : InFrame fd.st) (c : Config) (b : Byte) :
    bytesToIdle (fdAfter c fd b) + 1 = bytesToIdle fd ∧
      (InFrame (fdAfter c fd b).st ∨ (fdAfter c fd b).st = stIdle) := by
  rcases hst with hst | hst
  · obtain ⟨hlt, -⟩ := h hst
    rw [bytesToIdle_payload hst, fdAfter_payload hst]
    by_cases hmore : fd.idx.toNat + 1 < fd.len.toNat
    · rw [if_pos hmore, bytesToIdle_payload rfl, idx_add_one_toNat hlt]
      refine ⟨?_, .inl (.inl rfl)⟩
      dsimp only
      omega
    · rw [if_neg hmore, bytesToIdle_checksum rfl]
      exact ⟨by omega, .inl (.inr rfl)⟩
  · have hidle : (fdAfter c fd b).st = stIdle := by
      rw [fdAfter_checksum hst]
      split <;> rfl
    rw [bytesToIdle_checksum hst, bytesToIdle_idle hidle]
    exact ⟨rfl, .inr hidle⟩

/-- A byte outside IDLE brings FD at least one byte nearer to it. -/
theorem bytesToIdle_byte {fd : FdState} (h : PayloadPending fd) (hst : fd.st ≠ stIdle) (c : Config) (b : Byte) :
    bytesToIdle (fdAfter c fd b) + 1 ≤ bytesToIdle fd := by
  rcases Nat.lt_or_ge 4 fd.st.toNat with hbad | hcode
  · rw [fdAfter_badState hbad, bytesToIdle_idle rfl]
    exact Nat.pos_of_ne_zero (mt bytesToIdle_eq_zero.1 hst)
  rcases fdState_cases hcode with hidle | hsync | hlen | hpayload | hchecksum
  · exact absurd hidle hst
  · rw [bytesToIdle_sawSync1 hsync, fdAfter_sawSync1 hsync]
    split
    · rw [bytesToIdle_readLen rfl]
    · rw [bytesToIdle_idle rfl]
      exact Nat.succ_pos _
  · have hmax := (decodedLength_encodable b).le_maxFrame
    rw [bytesToIdle_readLen hlen, fdAfter_readLen hlen, bytesToIdle_payload rfl]
    dsimp only
    omega
  · exact (bytesToIdle_byte_inFrame h (.inl hpayload) c b).1.le
  · exact (bytesToIdle_byte_inFrame h (.inr hchecksum) c b).1.le

/-! ### A frame under way (R137) -/

/-- FD is inside a frame whose missing bytes are as many as `l`, or back in IDLE where `l` is empty. -/
structure FrameLacks (fd : FdState) (l : List Byte) : Prop where
  pending : PayloadPending fd
  st : InFrame fd.st ∨ fd.st = stIdle
  count : bytesToIdle fd = l.length

theorem FrameLacks.idle_iff {fd : FdState} {l : List Byte} (h : FrameLacks fd l) : fd.st = stIdle ↔ l.length = 0 := by
  rw [← bytesToIdle_eq_zero, h.count]

theorem FrameLacks.byte {fd : FdState} {b : Byte} {l : List Byte} (h : FrameLacks fd (b :: l)) (c : Config) :
    FrameLacks (fdAfter c fd b) l := by
  have hst : InFrame fd.st := h.st.resolve_right fun hidle => absurd (h.idle_iff.1 hidle) (Nat.succ_ne_zero _)
  obtain ⟨hcount, hst'⟩ := bytesToIdle_byte_inFrame h.pending hst c b
  exact ⟨h.pending.byte c b, hst', Nat.succ_injective (hcount.trans h.count)⟩

/-- The LENGTH byte starts a frame that lacks its payload and its checksum byte. -/
theorem FrameLacks.start {fd : FdState} (hst : fd.st = stReadLen) (c : Config) {b : Byte} {l : List Byte}
    (hl : l.length = (decodedLength b).toNat + 1) : FrameLacks (fdAfter c fd b) l := by
  refine ⟨.byte (fun h => absurd (hst.symm.trans h) (by decide)) c b, ?_, ?_⟩ <;> rw [fdAfter_readLen hst]
  · exact .inl (.inl rfl)
  · rw [bytesToIdle_payload rfl, hl]; rfl

/-- From READ_LEN, after the LENGTH byte and `k` of the bytes of its frame, the others are missing. -/
theorem exists_run_frameLacks {s : State} {b : Byte} {l : List Byte} {rest : List CycleIn}
    (hw : s.wiring = .separate) (hst : s.fd.st = stReadLen) (hl : l.length = (decodedLength b).toNat + 1)
    (hi : s.inputs = stream (b :: l) ++ rest) {k : Nat} (hk : k ≤ l.length) :
    ∃ t, run (k + 1) s = .next t ∧ FrameLacks t.fd (l.drop k) := by
  obtain ⟨u, hu, hfd⟩ := feedRun_header hw hi (by rw [hst]; decide)
  have hiu : u.inputs = stream (l.take k) ++ (stream (l.drop k) ++ rest) := by
    rw [hu.inputs, ← List.append_assoc]
    show l.map feed ++ rest = _
    rw [stream, stream, ← List.map_append, List.take_append_drop]
  have hstart : FrameLacks u.fd (l.take k ++ l.drop k) := by
    rw [hfd, List.take_append_drop]
    exact .start hst _ hl
  obtain ⟨t, valid, ht, hend⟩ :=
    feedRun_stream (fun _ _ _ h => ⟨h.pending.fdReady, h.byte _⟩) _ hu.wiring hiu rfl hstart
  have hrun := (hu.trans ht).run
  rw [List.length_take_of_le hk, Nat.add_comm] at hrun
  exact ⟨t, hrun, hend⟩

/-! ### Back in IDLE (R138) -/

/-- Over any cycles without reset that feed enough bytes FD comes to IDLE, within the bytes that it is from there. -/
theorem exists_run_idle {n : Nat} {s t : State} (h : PayloadPending s.fd) (hw : s.wiring = .separate)
    (hr : ∀ c ∈ s.inputs.take n, c.rst = false) (hfed : bytesToIdle s.fd ≤ (fedBytes (s.inputs.take n)).length)
    (hrun : run n s = .next t) :
    ∃ k ≤ n, (fedBytes (s.inputs.take k)).length ≤ bytesToIdle s.fd ∧ ∃ u, run k s = .next u ∧ u.fd.st = stIdle := by
  induction n generalizing s with
  | zero => exact ⟨0, le_rfl, Nat.zero_le _, s, rfl, bytesToIdle_eq_zero.1 (Nat.le_zero.1 hfed)⟩
  | succ n ih =>
    by_cases hidle : s.fd.st = stIdle
    · exact ⟨0, Nat.zero_le _, Nat.zero_le _, s, rfl, hidle⟩
    obtain ⟨x, u, hu, hrun', hr'⟩ := exists_fedStep hw hr hrun
    obtain ⟨hpending, hnear⟩ : PayloadPending u.fd ∧ x.toList.length + bytesToIdle u.fd ≤ bytesToIdle s.fd := by
      rw [hu.fd]
      cases x with
      | none => exact ⟨h, (Nat.zero_add _).le⟩
      | some b => exact ⟨h.byte _ b, (Nat.add_comm _ _).trans_le (bytesToIdle_byte h hidle _ b)⟩
    rw [hu.fed, List.length_append] at hfed
    obtain ⟨k, hk, hbytes, v, hv, hst⟩ := ih hpending hu.wiring hr' (by omega) hrun'
    refine ⟨k + 1, Nat.succ_le_succ hk, ?_, v, (run_succ k hu.step).trans hv, hst⟩
    rw [hu.fed, List.length_append]
    omega

end Sys2Proof.Machine

namespace Sys2Proof

open Machine

/-- Settles O35: FD in IDLE awaits a sync pair (`AwaitsSync`), and bytes without one leave it waiting. -/
theorem noFrameWithoutSyncPair : Obligations.NoFrameWithoutSyncPair := by
  refine fun s hw hst => ⟨fun t n hr hl hrun => ?_, fun l rest hl hi => ⟨?_, ?_⟩⟩
  · obtain ⟨hend, htrace⟩ := AwaitsSync.run (.inl ⟨hst, hl⟩) hw hr hrun
    exact ⟨hend.st, htrace⟩
  · rw [hi, take_stream_append, fedBytes_stream]
  · have hstart : AwaitsSync s.fd (l ++ []) := .inl ⟨hst, by rwa [List.append_nil]⟩
    obtain ⟨t, _, ht, -⟩ := feedRun_stream (fun _ _ _ h => ⟨h.fdReady, h.byte _⟩) l hw hi rfl hstart
    exact ⟨t, ht.run⟩

/-- Settles O36: after the LENGTH byte the frame lacks `n + 1` bytes, and each byte is one of them (`FrameLacks`). -/
theorem noResyncInsideAFrame : Obligations.NoResyncInsideAFrame := by
  refine fun s b l rest hw hst hl hi => ⟨fun k hpos hk => ?_, ?_⟩
  · obtain ⟨j, rfl⟩ := Nat.exists_eq_add_of_le' hpos
    obtain ⟨t, hrun, hend⟩ := exists_run_frameLacks hw hst hl hi (k := j) (by omega)
    refine ⟨t, hrun, fun hidle => ?_⟩
    have hdrop := hend.idle_iff.1 hidle
    rw [List.length_drop] at hdrop
    omega
  · obtain ⟨t, hrun, hend⟩ := exists_run_frameLacks hw hst hl hi le_rfl
    exact ⟨t, hrun, hend.idle_iff.2 (by rw [List.drop_length]; rfl)⟩

/-- Settles O37: from FD's invariant IDLE is at most 1032 bytes away (`bytesToIdle_le`), and every byte outside it
brings it nearer (`exists_run_idle`). -/
theorem decoderHealsItself : Obligations.DecoderHealsItself := by
  intro s h hw
  have hpending := h.payloadPending
  have hfar := bytesToIdle_le hpending
  have hheals : ∀ (t : State) (n : Nat), (∀ c ∈ s.inputs.take n, c.rst = false) →
      1032 ≤ (fedBytes (s.inputs.take n)).length → run n s = .next t →
      ∃ k ≤ n, (fedBytes (s.inputs.take k)).length ≤ 1032 ∧ ∃ u, run k s = .next u ∧ u.fd.st = stIdle := by
    intro t n hr hfed hrun
    obtain ⟨k, hk, hbytes, hidle⟩ := exists_run_idle hpending hw hr (hfar.trans hfed) hrun
    exact ⟨k, hk, hbytes.trans hfar, hidle⟩
  refine ⟨hheals, fun l rest hl hi => ?_⟩
  obtain ⟨t, _, ht, -⟩ :=
    feedRun_stream (P := fun fd _ => PayloadPending fd) (l' := []) (fun _ b _ h => ⟨h.fdReady, h.byte _ b⟩) l hw hi rfl
      hpending
  have htake : s.inputs.take 1032 = stream l := by rw [hi, ← hl, take_stream_append]
  obtain ⟨k, hk, -, hidle⟩ := hheals t 1032 (by rw [htake]; exact fun _ => rst_of_mem_stream)
    (by rw [htake, fedBytes_stream, hl]) (hl ▸ ht.run)
  exact ⟨k, hk, hidle⟩

end Sys2Proof
end

section
/-! PROOFS. NE step by step: a request accepted or ignored, a transaction answered ok or with an error, and a poll that a
stuck device answers (R151, R153, R164, R165, R167). -/

namespace Sys2Proof.Machine

/-! ### Polls (R153) -/

section
variable {c : Config} {pos : NePos} {T : Nat}

/-- Every poll position reads the status. -/
theorem nePending_of_pollBudget (h : pollBudget c pos = some T) (ne : NeState) : nePending ne pos = some .norRdsr := by
  cases pos
  case wePoll | wrWePoll | wrPoll | seWePoll | sePoll | ceWePoll | cePoll => rfl
  all_goals cases h

/-- NE's sequence goes on from a poll position with one poll of that position's budget. -/
theorem advance_poll {s : State} (h : pollBudget s.cfg pos = some T) (k : Nat) (a : BusAnswer) :
    advance pos k a s = pollStep T pos k a s := by
  cases pos <;> cases h <;> rfl

/-- exec of NOR_RDSR at a poll position is one poll. -/
theorem exec_norRdsr_poll {s : State} {k : Nat} {a : BusAnswer} (hp : s.ne.phase = .run pos k)
    (h : pollBudget s.cfg pos = some T) (hb : s.bus = some a) (hf : answerFits 1 a = true) :
    exec .norRdsr s = pollStep T pos k a (issued .norRdsr s) := by
  rw [exec_pending hp (nePending_of_pollBudget h _) hb hf]
  exact advance_poll (s := issued .norRdsr s) h k a

end

/-! ### The chunk that a page program has written (R159) -/

/-- NE's registers with the current chunk counted. -/
def countChunk (ne : NeState) : NeState :=
  { ne with
    off := ne.off + chunkLen ne, bytesDone := ne.off + chunkLen ne
    curAddr := ne.curAddr + BitVec.ofNat 24 (chunkLen ne) }

theorem chunkDone_more {s : State} (h : s.ne.off + chunkLen s.ne < s.ne.rlen) :
    chunkDone s = neGoto .wrLoop 0 (s.setNe (countChunk s.ne)) :=
  if_pos h

theorem chunkDone_last {s : State} (h : ¬ s.ne.off + chunkLen s.ne < s.ne.rlen) :
    chunkDone s = neFinish resOk (s.setNe (countChunk s.ne)) :=
  if_neg h

/-! ### A failed transaction (R164) -/

/-- An error ends the operation from every position that issues a transaction; a poll has sampled `t0` by then, and READ
drops its data. -/
theorem advance_err {ne : NeState} {pos : NePos} {i : Instr} (hi : nePending ne pos = some i) (k : Nat) (s : State) :
    ∃ t0, advance pos k .err s = .next (neFinish resTransferError
      (s.setNe { s.ne with t0 := t0, rdata := if pos = .read then [] else s.ne.rdata })) := by
  cases pos
  case wePoll | wrWePoll | wrPoll | seWePoll | sePoll | ceWePoll | cePoll =>
    rw [advance, pollStep_err, sampleT0_eq]
    exact ⟨_, rfl⟩
  case illegal => cases hi
  all_goals exact ⟨s.ne.t0, rfl⟩

/-! ### The elapsed time (R165) -/

theorem elapsed_advance {c : Config} {t0 d : Nat} (h0 : t0 < 2 ^ c.tickW) (hd : d < 2 ^ c.tickW) :
    elapsed c ((t0 + d) % 2 ^ c.tickW) t0 = d := by
  unfold elapsed
  generalize 2 ^ c.tickW = w at *
  by_cases hwrap : t0 + d < w
  · rw [Nat.mod_eq_of_lt hwrap, show t0 + d + w - t0 = d + w by omega, Nat.add_mod_right, Nat.mod_eq_of_lt hd]
  · have honce : (t0 + d) % w = t0 + d - w := by
      rw [Nat.mod_eq_sub_mod (Nat.le_of_not_lt hwrap), Nat.mod_eq_of_lt (by omega)]
    rw [honce, show t0 + d - w + w - t0 = d by omega, Nat.mod_eq_of_lt hd]

/-- No time has passed since the tick itself. -/
theorem elapsed_self (c : Config) (now : Nat) : elapsed c now now = 0 := by
  rw [elapsed, Nat.add_sub_cancel_left, Nat.mod_self]

/-! ### A stuck device (R167) -/

/-- The poll that comes next goes on polling if it reads busy while the tick stands still: the elapsed time, 0 at the first
poll, is below the budget, and the tick has kept its duty. -/
def BudgetLeft (T k : Nat) (s : State) : Prop :=
  elapsed s.cfg s.now (pollT0 k s) < T ∧ (k = 0 ∨ s.tickSince < 2 ^ s.cfg.tickW)

/-- The tick of an answered cycle in which it stands still. -/
theorem sample_answer_now {s : State} (h : s.now < 2 ^ s.cfg.tickW) (a : BusAnswer) :
    (sample (answer a) s).now = s.now :=
  Nat.mod_eq_of_lt h

theorem BudgetLeft.sample_answer {T k : Nat} {s : State} (h : BudgetLeft T k s) (hnow : s.now < 2 ^ s.cfg.tickW)
    (a : BusAnswer) : BudgetLeft T k (sample (answer a) s) := by
  unfold BudgetLeft pollT0 at *
  rwa [sample_answer_now hnow]

/-- One busy answer under a stopped tick: NE reads the status once and is one poll further, with as much budget left. -/
theorem step_busyPoll {s : State} {pos : NePos} {k T : Nat} {z : Byte} {rest : List CycleIn}
    (hw : s.wiring = .separate) (hp : s.ne.phase = .run pos k) (hT : pollBudget s.cfg pos = some T)
    (hnow : s.now < 2 ^ s.cfg.tickW) (hleft : BudgetLeft T k s) (hz : busy s.cfg z = true)
    (hi : s.inputs = answer (.ok [z]) :: rest) :
    ∃ t, step s = .next t ∧ t.ne.phase = .run pos (k + 1) ∧ BudgetLeft T (k + 1) t ∧ t.now = s.now ∧ t.cfg = s.cfg ∧
      t.wiring = .separate ∧ t.inputs = rest ∧ t.out.busTx = some ⟨[s.cfg.cmdRdsr], 1⟩ := by
  let v := issued .norRdsr (sample (answer (.ok [z])) s)
  obtain ⟨hbudget, hduty⟩ : BudgetLeft T k v := hleft.sample_answer hnow _
  have hagain : advance pos k (.ok [z]) v = _ :=
    (advance_poll (s := v) hT k _).trans (pollStep_again hz hduty hbudget pos)
  obtain ⟨t, hstep, hne, hsince, htx, hnowt, hc, hwt, hit⟩ :=
    step_answer hw hi hp (nePending_of_pollBudget hT _) rfl hagain
  have hstill : t.now = s.now := hnowt.trans (Nat.mod_eq_of_lt hnow)
  have ht0 : t.ne.t0 = pollT0 k v := by rw [hne, neGoto_ne_t0, sampleT0_ne_t0]
  refine ⟨t, hstep, by rw [hne]; rfl, ⟨?_, .inr ?_⟩, hstill, hc, hwt, hit, htx⟩
  · rw [hc, hstill, pollT0, if_neg (Nat.succ_ne_zero k), ht0, ← sample_answer_now hnow (.ok [z])]
    exact hbudget
  · rw [hsince]
    exact Nat.two_pow_pos _

/-- However many busy answers come under a stopped tick, NE polls once for each and has as much budget left. -/
theorem run_busyPolls (n : Nat) {s : State} {pos : NePos} {k T : Nat} {z : Byte} {rest : List CycleIn}
    (hw : s.wiring = .separate) (hp : s.ne.phase = .run pos k) (hT : pollBudget s.cfg pos = some T)
    (hnow : s.now < 2 ^ s.cfg.tickW) (hleft : BudgetLeft T k s) (hz : busy s.cfg z = true)
    (hi : s.inputs = List.replicate n (answer (.ok [z])) ++ rest) :
    ∃ t, run n s = .next t ∧ t.ne.phase = .run pos (k + n) ∧
      transcript n s = List.replicate n ⟨[s.cfg.cmdRdsr], 1⟩ := by
  induction n generalizing s k with
  | zero => exact ⟨s, rfl, hp, rfl⟩
  | succ n ih =>
    obtain ⟨u, hstep, hpu, hleftu, hnowu, hc, hwu, hiu, htx⟩ := step_busyPoll hw hp hT hnow hleft hz hi
    obtain ⟨t, hrun, hpt, htr⟩ := ih hwu hpu (hc ▸ hT) (by rw [hnowu, hc]; exact hnow) hleftu (hc ▸ hz) hiu
    refine ⟨t, (run_succ n hstep).trans hrun, ?_, ?_⟩
    · rw [hpt, Nat.add_right_comm, Nat.add_assoc]
    · rw [transcript_succ n hstep, htx, htr, hc]
      rfl

end Sys2Proof.Machine

namespace Sys2Proof

open Machine

/-- Settles O55: every busy poll leaves the elapsed time where it was, below the budget (`run_busyPolls`). -/
theorem stuckDevicePollsForever : Obligations.StuckDevicePollsForever := by
  intro s pos k T n z rest hw hp hT hnow _ hbudget hz hi
  have hleft : BudgetLeft T k s := by
    unfold BudgetLeft pollT0
    split_ifs at hbudget ⊢ with hfirst
    · exact ⟨by rwa [elapsed_self], .inl hfirst⟩
    · exact ⟨hbudget.1, .inr hbudget.2⟩
  obtain ⟨t, hrun, hpt, htr⟩ := run_busyPolls n hw hp hT hnow hleft hz hi
  exact ⟨t, hrun, hpt, by simp [State.neReady, hpt], htr⟩

/-- Settles O42: of NE's step only the part taken while idle looks at the request. -/
theorem busyEngineIgnoresRequests : Obligations.BusyEngineIgnoresRequests := by
  intro s c l r pos k hp hi
  have hne : neStep { c with neReq := r } { s with inputs := { c with neReq := r } :: l } = neStep c s := by
    funext t
    simp only [neStep, hp]
  have hsample : sample { c with neReq := r } { s with inputs := { c with neReq := r } :: l } = sample c s := by
    simp only [sample, hi]
    rfl
  rw [step, step, nextIn_cons hi, nextIn_cons rfl, cycle, cycle, hne, hsample]
  rfl

/-- Settles O53: from every position an error leads to `finish(TRANSFER_ERROR)` (`advance_err`). -/
theorem firstErrorEndsTheOperation : Obligations.FirstErrorEndsTheOperation := by
  intro s pos k i hp hi hb
  obtain ⟨t0, hadv⟩ := advance_err hi k (issued i s)
  exact ⟨_, (exec_pending hp hi hb rfl).trans hadv, rfl, rfl, rfl, rfl, rfl, rfl, rfl, rfl, rfl, rfl, rfl, rfl⟩

/-- Settles O56: the tick wraps at most once in an advance below `2^TICK_W`, and a poll tests the duty where it asks for the
elapsed time. -/
theorem tickArithmetic : Obligations.TickArithmetic := by
  refine ⟨fun _ _ _ => elapsed_advance, fun s pos k T z hp hT hk hduty hb hz => ?_⟩
  rw [exec_norRdsr_poll hp hT hb rfl]
  exact pollStep_duty (s := issued .norRdsr s) (rx := [z]) hz hk hduty T pos

/-- Settles O41: each request row is an accepted request at the start of its sequence. -/
theorem requestsAreAccepted : Obligations.RequestsAreAccepted := by
  intro s a n d hp hn hd
  have haccept : ∀ pos w, (pos = .wrLoop → w.length = n) →
      neRequest pos a n w s = .next (s.setNe (neAccepted pos a n w s.ne)) :=
    fun _ _ hw => neRequest_accepted hp hn hw a
  exact ⟨haccept .resetEnable [] nofun, haccept .status [] nofun, haccept .weWren [] nofun, haccept .read [] nofun,
    haccept .wrLoop d fun _ => hd, haccept .seWren [] nofun, haccept .ceWren [] nofun, haccept .illegal [] nofun⟩

/-- Settles O51: each row, pending and answered, is how the sequence goes on from its position. -/
theorem sendingRowsEffects : Obligations.SendingRowsEffects := by
  intro s k rx
  refine ⟨fun hb => ⟨fun hp => ?_, fun hp => ?_, fun hp => ?_, fun hp hleft => ?_, fun hp => ?_, fun hp => ?_,
    fun hp => ?_, fun hp => ?_, fun hp => ?_⟩, fun hb hlen hp => ?read⟩
  case read => exact exec_pending hp rfl hb (beq_iff_eq.2 hlen)
  case refine_4 => exact exec_pending hp (if_pos hleft) hb rfl
  all_goals exact exec_pending hp rfl hb rfl

end Sys2Proof
end

section
/-! PROOFS. What NOR_RDSR writes at each position that reads the status (R153, R156, R170). -/

namespace Sys2Proof.Machine

/-- exec of NOR_RDSR at GET_STATUS's status read. -/
theorem exec_norRdsr_status {s : State} {k : Nat} {a : BusAnswer} (hp : s.ne.phase = .run .status k)
    (hb : s.bus = some a) (hf : answerFits 1 a = true) :
    exec .norRdsr s = .next (statusDone a (issued .norRdsr s)) :=
  exec_pending hp rfl hb hf

/-- NE's registers after a poll sampled `t0`. -/
theorem sampleT0_ne (k : Nat) (s : State) : (sampleT0 k s).ne = { s.ne with t0 := pollT0 k s } := by
  rw [sampleT0_eq]
  rfl

end Sys2Proof.Machine

namespace Sys2Proof

open Machine

/-- Settles O52: GET_STATUS finishes by the busy bit; a poll samples `t0` and then does what `pollStep`'s case says. -/
theorem statusReadEffects : Obligations.StatusReadEffects := by
  intro s pos k z hp
  refine ⟨?status, fun T hT => ⟨fun hb => ?error, fun hb hz hduty => ⟨fun hle => ?timeout, fun hlt => ?again⟩,
    fun hb hz => ?free⟩⟩
  case status =>
    rintro rfl
    exact ⟨fun hb => ⟨_, exec_norRdsr_status hp hb rfl, rfl⟩, fun hb => ⟨_, exec_norRdsr_status hp hb rfl, rfl⟩⟩
  case error =>
    refine ⟨_, exec_norRdsr_poll hp hT hb rfl, ?_⟩
    rw [neFinish_eq, sampleT0_ne]
    rfl
  case timeout =>
    refine ⟨_, (exec_norRdsr_poll hp hT hb rfl).trans
      (pollStep_timeout (s := issued .norRdsr s) (rx := [z]) hz hduty hle pos), ?_⟩
    rw [neFinish_eq, sampleT0_ne]
    rfl
  case again =>
    refine ⟨_, (exec_norRdsr_poll hp hT hb rfl).trans
      (pollStep_again (s := issued .norRdsr s) (rx := [z]) hz hduty hlt pos), ?_⟩
    rw [neGoto_eq, sampleT0_ne]
    rfl
  case free =>
    refine ⟨_, (exec_norRdsr_poll hp hT hb rfl).trans
      (pollStep_free (s := issued .norRdsr s) (rx := [z]) hz T pos k), ?finish, ?program, ?sector, ?chip, ?chunk⟩
    case finish =>
      rintro (rfl | rfl | rfl) <;> rw [pollPassed, neFinish_eq, sampleT0_ne] <;> rfl
    case program | sector | chip =>
      rintro rfl
      rw [pollPassed, neGoto_eq, sampleT0_ne]
      rfl
    case chunk =>
      rintro rfl
      have hne := sampleT0_ne k (issued .norRdsr s)
      refine ⟨fun hmore => ?_, fun hlast => ?_⟩
      · rw [pollPassed, chunkDone_more (by rw [hne]; exact hmore), hne]
        rfl
      · rw [pollPassed, chunkDone_last (by rw [hne]; exact hlast), hne]
        rfl

end Sys2Proof
end

section
/-! PROOFS. NE's sequences (R155 to R162): what an accepted request leads to, transaction by transaction. -/

namespace Sys2Proof.Machine

/-! ### Where NE stands, and runs from there -/

/-- NE runs at a position, at its first poll if it is one, with the registers `b` but for `t0`. -/
def Stands (b : NeState) (pos : NePos) (ne : NeState) : Prop :=
  ∃ t0, ne = { b with t0 := t0, phase := .run pos 0, done := false }

/-- NE has finished with a result, with the registers `b` but for `t0`. -/
def Ends (b : NeState) (r : BitVec 3) (ne : NeState) : Prop :=
  ∃ t0, ne = { b with t0 := t0, result := r, done := true, phase := .idle }

section
variable {b ne : NeState} {r : BitVec 3} (h : Ends b r ne)
include h

theorem Ends.phase : ne.phase = .idle := by obtain ⟨_, rfl⟩ := h; rfl
theorem Ends.done : ne.done = true := by obtain ⟨_, rfl⟩ := h; rfl
theorem Ends.result : ne.result = r := by obtain ⟨_, rfl⟩ := h; rfl
theorem Ends.rdata : ne.rdata = b.rdata := by obtain ⟨_, rfl⟩ := h; rfl
theorem Ends.bytesDone : ne.bytesDone = b.bytesDone := by obtain ⟨_, rfl⟩ := h; rfl
theorem Ends.curAddr : ne.curAddr = b.curAddr := by obtain ⟨_, rfl⟩ := h; rfl

end

/-- Under `c`, the units apart, the cycles `ins` take every block whose NE meets `P` to one whose NE meets `Q`, and put the
transactions `l` on the bus. -/
def NeRuns (c : Config) (P : NeState → Prop) (ins : List CycleIn) (l : List BusTx) (Q : NeState → Prop) : Prop :=
  ∀ (s : State) (rest : List CycleIn), s.cfg = c → s.wiring = .separate → P s.ne → s.inputs = ins ++ rest →
    ∃ t, run ins.length s = .next t ∧ Q t.ne ∧ t.cfg = c ∧ t.wiring = .separate ∧ t.inputs = rest ∧
      transcript ins.length s = l

section
variable {b : NeState} {pos pos' : NePos} {s : State}

theorem Stands.goto (h : Stands b pos s.ne) : Stands b pos' (neGoto pos' 0 s).ne := by
  obtain ⟨t0, hne⟩ := h
  exact ⟨t0, by rw [neGoto_eq, hne]⟩

theorem Stands.finish {r : BitVec 3} (h : Stands b pos s.ne) : Ends b r (neFinish r s).ne := by
  obtain ⟨t0, hne⟩ := h
  exact ⟨t0, by rw [neFinish_eq, hne]⟩

theorem Stands.sampleT0 (h : Stands b pos s.ne) (k : Nat) : Stands b pos (sampleT0 k s).ne := by
  obtain ⟨t0, hne⟩ := h
  exact ⟨pollT0 k s, by rw [sampleT0_ne, hne]⟩

theorem Stands.chunkDone_more (h : Stands b .wrPoll s.ne) (hmore : b.off + chunkLen b < b.rlen) :
    Stands (countChunk b) .wrLoop (chunkDone s).ne := by
  obtain ⟨t0, hne⟩ := h
  rw [Machine.chunkDone_more (by rw [hne]; exact hmore), hne]
  exact ⟨t0, rfl⟩

theorem Stands.chunkDone_last (h : Stands b .wrPoll s.ne) (hlast : ¬ b.off + chunkLen b < b.rlen) :
    Ends (countChunk b) resOk (chunkDone s).ne := by
  obtain ⟨t0, hne⟩ := h
  rw [Machine.chunkDone_last (by rw [hne]; exact hlast), hne]
  exact ⟨t0, rfl⟩

end

section
variable {c : Config} {P Q R : NeState → Prop} {ins ins' : List CycleIn} {l l' : List BusTx}

theorem NeRuns.trans (h : NeRuns c P ins l Q) (h' : NeRuns c Q ins' l' R) :
    NeRuns c P (ins ++ ins') (l ++ l') R := by
  intro s rest hc hw hP hi
  obtain ⟨u, hrun, hQ, hcu, hwu, hiu, htr⟩ := h s (ins' ++ rest) hc hw hP (by rw [hi, List.append_assoc])
  obtain ⟨t, hrun', hR, hct, hwt, hit, htr'⟩ := h' u rest hcu hwu hQ hiu
  rw [List.length_append]
  exact ⟨t, (run_add _ _ hrun).1.trans hrun', hR, hct, hwt, hit, by rw [transcript_add _ _ hrun, htr, htr']⟩

/-- What a run of NE says of a block with these inputs. -/
theorem NeRuns.exists_run {s : State} {n : Nat} {rest : List CycleIn} (h : NeRuns s.cfg (· = s.ne) ins l Q)
    (hw : s.wiring = .separate) (hi : s.inputs = ins ++ rest) (hn : ins.length = n) :
    ∃ t, run n s = .next t ∧ Q t.ne ∧ t.inputs = rest ∧ transcript n s = l := by
  subst hn
  obtain ⟨t, hrun, hQ, -, -, hit, htr⟩ := h s rest rfl hw rfl hi
  exact ⟨t, hrun, hQ, hit, htr⟩

end

/-! ### One NE step -/

section
variable {c : Config} {b : NeState} {pos : NePos} {Q : NeState → Prop}

/-- An idle NE accepts a request and stands at the start of its sequence (R151). -/
theorem neRuns_request {ne : NeState} {r : NeReq} {w : List Byte} (hp : ne.phase = .idle)
    (he : ∀ s, exec (decodeNe r) s = neRequest pos r.addr r.len w s) (hn : c.LenFits r.len)
    (hl : pos = .wrLoop → w.length = r.len) :
    NeRuns c (· = ne) [present r] [] (Stands (neAccepted pos r.addr r.len w ne) pos) := by
  rintro s rest rfl hw rfl hi
  obtain ⟨t, hstep, hne, htx, -, hc, hwt, hit⟩ := step_present hw hi hp he hn hl
  refine ⟨t, run_succ 0 hstep, ⟨s.ne.t0, hne⟩, hc, hwt, hit, ?_⟩
  rw [List.length_singleton, transcript_succ 0 hstep, htx]
  rfl

@[simp] theorem length_answerAfter (i : Nat) (a : BusAnswer) : (answerAfter i a).length = i + 1 := by
  simp [answerAfter]

/-- The transaction NE stands at is answered after `i` cycles, and its sequence goes on (R152). -/
theorem neRuns_answer (i : Nat) {x : Instr} {tx : BusTx} {a : BusAnswer} (hx : nePending b pos = some x)
    (htx : norTx c x = some tx) (hf : answerFits (rxCount c x) a = true)
    (hadv : ∀ u : State, u.cfg = c → Stands b pos u.ne → ∃ v, advance pos 0 a u = .next v ∧ Q v.ne) :
    NeRuns c (Stands b pos) (answerAfter i a) [tx] Q := by
  rintro s rest rfl hw ⟨t0, hne⟩ hi
  obtain ⟨t, hrun, hQ, hc, hwt, hit, htr⟩ := run_answerAfter i (P := Q) (k := 0) hw hi (by rw [hne]) (by rw [hne])
    (by rw [hne]; exact hx) hf fun u hu hcu => hadv _ hcu ⟨t0, by
      show { u.ne with done := false } = _
      rw [hu, hne]⟩
  rw [length_answerAfter]
  exact ⟨t, hrun, hQ, hc, hwt, hit, by rw [htr, htx]; rfl⟩

/-- A failed transaction ends the operation (R164). -/
theorem neRuns_err (i : Nat) {x : Instr} {tx : BusTx} (hx : nePending b pos = some x) (htx : norTx c x = some tx) :
    NeRuns c (Stands b pos) (answerAfter i .err) [tx]
      (Ends { b with rdata := if pos = .read then [] else b.rdata } resTransferError) := by
  refine neRuns_answer i hx htx rfl fun u _ ⟨t0, hne⟩ => ?_
  obtain ⟨t0', hadv⟩ := advance_err hx 0 u
  exact ⟨_, hadv, t0', by rw [neFinish_eq, State.setNe, hne]⟩

/-- GET_STATUS's status read finishes by the busy bit (R156). -/
theorem neRuns_status (i : Nat) {z : Byte} :
    NeRuns c (Stands b .status) (answerAfter i (.ok [z])) [⟨[c.cmdRdsr], 1⟩]
      (Ends b (if busy c z then resBusy else resOk)) := by
  refine neRuns_answer i rfl rfl rfl fun u hc hu => ⟨_, rfl, ?_⟩
  subst hc
  exact hu.finish

/-- READ's transaction finishes with the bytes it received (R158). -/
theorem neRuns_read (i : Nat) {rx : List Byte} (hrx : rx.length = b.rlen) :
    NeRuns c (Stands b .read) (answerAfter i (.ok rx)) [⟨c.cmdRead :: addrBytes b.addr, b.rlen⟩]
      (Ends { b with rdata := rx, bytesDone := b.rlen } resOk) := by
  refine neRuns_answer i rfl rfl (beq_iff_eq.2 hrx) fun u _ ⟨t0, hne⟩ => ⟨_, rfl, t0, ?_⟩
  rw [readDone, neFinish_eq, State.setNe, hne]

/-- A first poll whose status is not busy (R153). -/
theorem neRuns_poll {T : Nat} {z : Byte} (hT : pollBudget c pos = some T) (hz : busy c z = false)
    (hpass : ∀ u : State, Stands b pos u.ne → Q (pollPassed pos u).ne) :
    NeRuns c (Stands b pos) [answer (.ok [z])] [⟨[c.cmdRdsr], 1⟩] Q := by
  refine neRuns_answer 0 (nePending_of_pollBudget hT b) rfl rfl fun u hc hu => ?_
  subst hc
  exact ⟨_, (advance_poll hT 0 _).trans (pollStep_free (rx := [z]) hz T pos 0), hpass _ (hu.sampleT0 0)⟩

/-- A first poll that reads busy at a budget of 0 (R153). -/
theorem neRuns_timeout {z : Byte} (hT : pollBudget c pos = some 0) (hz : busy c z = true) :
    NeRuns c (Stands b pos) [answer (.ok [z])] [⟨[c.cmdRdsr], 1⟩] (Ends b resTimeout) := by
  refine neRuns_answer 0 (nePending_of_pollBudget hT b) rfl rfl fun u hc hu => ?_
  subst hc
  exact ⟨_, (advance_poll hT 0 _).trans (pollStep_timeout (rx := [z]) hz (.inl rfl) (Nat.zero_le _) pos),
    (hu.sampleT0 0).finish⟩

/-- A command that only sends, and the busy-poll after it with a first status that is not busy: `WREN_SEQ` (R154), a page
program (R159), an erase (R161, R162). -/
theorem neRuns_sendAndWait {poll : NePos} {x : Instr} {tx : BusTx} {T : Nat} {z : Byte} (hx : nePending b pos = some x)
    (htx : norTx c x = some tx) (hf : rxCount c x = 0)
    (hsend : ∀ u, advance pos 0 (.ok []) u = .next (neGoto poll 0 u)) (hT : pollBudget c poll = some T)
    (hz : busy c z = false) (hpass : ∀ u : State, Stands b poll u.ne → Q (pollPassed poll u).ne) :
    NeRuns c (Stands b pos) [answer (.ok []), answer (.ok [z])] [tx, ⟨[c.cmdRdsr], 1⟩] Q :=
  (neRuns_answer 0 hx htx (by rw [hf]; rfl) fun u _ hu => ⟨_, hsend u, hu.goto⟩).trans (neRuns_poll hT hz hpass)

/-- A position without a transaction: NE's step finishes the operation (R159, R163). -/
theorem neRuns_finish {a : BusAnswer} (hx : nePending b pos = none) :
    NeRuns c (Stands b pos) [answer a] [] (Ends b (finishResult pos)) := by
  rintro s rest rfl hw ⟨t0, hne⟩ hi
  obtain ⟨t, hstep, hnt, -, htx, -, hc, hwt, hit⟩ := step_nePorts hw hi rfl rfl rfl rfl
    (neStep_finish (k := 0) (by rw [hne]) rfl (by rw [hne]; exact hx) _)
  refine ⟨t, run_succ 0 hstep, ⟨t0, ?_⟩, hc, hwt, hit, ?_⟩
  · rw [hnt, neFinish_eq, sample, hne]
  · rw [List.length_singleton, transcript_succ 0 hstep, htx]
    rfl

end

end Sys2Proof.Machine

namespace Sys2Proof

open Machine

/-- Settles O44: the request, RSTEN and RST, each answered in its turn; the first error ends the run (`neRuns_err`). -/
theorem resetSequence : Obligations.ResetSequence := by
  intro s a n i j d rest hp hw hn finished
  let b := neAccepted .resetEnable a n [] s.ne
  have hfinished : ∀ {ins l r k}, NeRuns s.cfg (· = s.ne) ins l (Ends b r) → s.inputs = ins ++ rest → ins.length = k →
      finished k r l := fun hrun hi hk => by
    obtain ⟨t, h, hend, hit, htr⟩ := hrun.exists_run hw hi hk
    exact ⟨t, h, hend.phase, hend.done, hend.result, hend.bytesDone, hit, htr⟩
  have hreq : NeRuns s.cfg (· = s.ne) [present ⟨0#3, a, n, d⟩] [] (Stands b .resetEnable) :=
    neRuns_request hp (fun _ => rfl) hn nofun
  have henable : NeRuns s.cfg (Stands b .resetEnable) (answerAfter i (.ok [])) [⟨[s.cfg.cmdRsten], 0⟩]
      (Stands b .resetMemory) :=
    neRuns_answer i rfl rfl rfl fun _ _ h => ⟨_, rfl, h.goto⟩
  have hreset : NeRuns s.cfg (Stands b .resetMemory) (answerAfter j (.ok [])) [⟨[s.cfg.cmdRst], 0⟩] (Ends b resOk) :=
    neRuns_answer j rfl rfl rfl fun _ _ h => ⟨_, rfl, h.finish⟩
  refine ⟨fun hi => ?both, fun hi => ?enableFails, fun hi => ?resetFails⟩
  case both =>
    exact hfinished ((hreq.trans henable).trans hreset) (by simp [hi]) (by simp; omega)
  case enableFails =>
    exact hfinished (hreq.trans (neRuns_err i rfl rfl)) (by simp [hi]) (by simp)
  case resetFails =>
    exact hfinished ((hreq.trans henable).trans (neRuns_err j rfl rfl)) (by simp [hi]) (by simp; omega)

/-- Settles O45: WREN leads to the first poll, which passes, times out at a budget of 0, or fails. -/
theorem writeEnableSequence : Obligations.WriteEnableSequence := by
  intro s a n d z rest hp hw hn finished both
  let b := neAccepted .weWren a n [] s.ne
  have hfinished : ∀ {ins l r k}, NeRuns s.cfg (· = s.ne) ins l (Ends b r) → s.inputs = ins ++ rest → ins.length = k →
      finished k r l := fun hrun hi hk => by
    obtain ⟨t, h, hend, -, htr⟩ := hrun.exists_run hw hi hk
    exact ⟨t, h, hend.phase, hend.done, hend.result, hend.bytesDone, htr⟩
  have hreq : NeRuns s.cfg (· = s.ne) [present ⟨2#3, a, n, d⟩] [] (Stands b .weWren) :=
    neRuns_request hp (fun _ => rfl) hn nofun
  have hwren : NeRuns s.cfg (Stands b .weWren) [answer (.ok [])] [⟨[s.cfg.cmdWren], 0⟩] (Stands b .wePoll) :=
    neRuns_answer 0 rfl rfl rfl fun _ _ h => ⟨_, rfl, h.goto⟩
  refine ⟨fun hi => ⟨fun hz => ?passes, fun hz hT => ?timeout⟩, fun hi => ?pollFails, fun hi => ?wrenFails⟩
  case passes =>
    exact hfinished ((hreq.trans hwren).trans (neRuns_poll rfl hz fun _ h => h.finish)) hi rfl
  case timeout =>
    exact hfinished ((hreq.trans hwren).trans (neRuns_timeout (hT ▸ rfl) hz)) hi rfl
  case pollFails => exact hfinished ((hreq.trans hwren).trans (neRuns_err 0 rfl rfl)) hi rfl
  case wrenFails => exact hfinished (hreq.trans (neRuns_err 0 rfl rfl)) hi rfl

/-- Settles O46: the request's one transaction, answered or failing, ends the operation. -/
theorem statusAndReadSequences : Obligations.StatusAndReadSequences := by
  intro s a n i d rx z rest hp hw hn hrx finished rdsr read
  have hfinished : ∀ {r x b res tx}, NeRuns s.cfg (· = s.ne) ([present r] ++ answerAfter i x) [tx] (Ends b res) →
      s.inputs = present r :: (answerAfter i x ++ rest) → finished res b.rdata b.bytesDone tx := fun hrun hi => by
    obtain ⟨t, h, hend, hit, htr⟩ := hrun.exists_run (n := i + 2) hw hi (by simp)
    exact ⟨t, h, hend.phase, hend.done, hend.result, hend.rdata, hend.bytesDone, hit, htr⟩
  have hstatus : NeRuns s.cfg (· = s.ne) [present ⟨1#3, a, n, d⟩] [] (Stands (neAccepted .status a n [] s.ne) .status) :=
    neRuns_request hp (fun _ => rfl) hn nofun
  have hread : NeRuns s.cfg (· = s.ne) [present ⟨3#3, a, n, d⟩] [] (Stands (neAccepted .read a n [] s.ne) .read) :=
    neRuns_request hp (fun _ => rfl) hn nofun
  exact ⟨hfinished (hstatus.trans (neRuns_status i)), hfinished (hstatus.trans (neRuns_err i rfl rfl)),
    hfinished (hread.trans (neRuns_read i hrx)), hfinished (hread.trans (neRuns_err i rfl rfl))⟩

/-- Settles O47: `WREN_SEQ` and then the erase command with its busy-poll; a failed command ends the run. -/
theorem eraseSequences : Obligations.EraseSequences := by
  intro s a n d z rest hp hw hn hz finished wren rdsr sector chip good bad
  have hfinished : ∀ {pos ins l r k}, NeRuns s.cfg (· = s.ne) ins l (Ends (neAccepted pos a n [] s.ne) r) →
      s.inputs = ins ++ rest → ins.length = k → finished k r l := fun hrun hi hk => by
    obtain ⟨t, h, hend, -, htr⟩ := hrun.exists_run hw hi hk
    exact ⟨t, h, hend.phase, hend.done, hend.result, hend.bytesDone, htr⟩
  have hsector : NeRuns s.cfg (· = s.ne) [present ⟨5#3, a, n, d⟩, answer (.ok []), answer (.ok [z])] [wren, rdsr]
      (Stands (neAccepted .seWren a n [] s.ne) .seErase) :=
    (neRuns_request (pos := .seWren) hp (fun _ => rfl) hn nofun).trans
      (neRuns_sendAndWait rfl rfl rfl (fun _ => rfl) (poll := .seWePoll) rfl hz fun _ h => h.goto)
  have hchip : NeRuns s.cfg (· = s.ne) [present ⟨6#3, a, n, d⟩, answer (.ok []), answer (.ok [z])] [wren, rdsr]
      (Stands (neAccepted .ceWren a n [] s.ne) .ceErase) :=
    (neRuns_request (pos := .ceWren) hp (fun _ => rfl) hn nofun).trans
      (neRuns_sendAndWait rfl rfl rfl (fun _ => rfl) (poll := .ceWePoll) rfl hz fun _ h => h.goto)
  refine ⟨fun hi => ?sector, fun hi => ?sectorFails, fun hi => ?chip, fun hi => ?chipFails⟩
  case sector =>
    exact hfinished (hsector.trans
      (neRuns_sendAndWait rfl rfl rfl (fun _ => rfl) (poll := .sePoll) rfl hz fun _ h => h.finish)) hi rfl
  case chip =>
    exact hfinished (hchip.trans
      (neRuns_sendAndWait rfl rfl rfl (fun _ => rfl) (poll := .cePoll) rfl hz fun _ h => h.finish)) hi rfl
  case sectorFails => exact hfinished (hsector.trans (neRuns_err 0 rfl rfl)) hi rfl
  case chipFails => exact hfinished (hchip.trans (neRuns_err 0 rfl rfl)) hi rfl

end Sys2Proof
end

section
/-! PROOFS. The chunk law of a WRITE (R160), and that a WRITE programs exactly its chunks (R159, R166). -/

namespace Sys2Proof.Machine

/-! ### The chunk law, chunk by chunk -/

theorem chunkLaw_zero (fuel : Nat) (a : Addr) : chunkLaw fuel a 0 = [] := by
  cases fuel <;> rfl

theorem chunkLaw_succ {n : Nat} (h : n ≠ 0) (fuel : Nat) (a : Addr) :
    chunkLaw (fuel + 1) a n =
      (a, min (256 - a.toNat % 256) n) ::
        chunkLaw fuel (a + BitVec.ofNat 24 (min (256 - a.toNat % 256) n)) (n - min (256 - a.toNat % 256) n) :=
  if_neg h

/-- The chunks of a WRITE, taken off one by one: bytes that fit into the page are the last chunk; else a chunk fills the
page, and the law goes on at the next. -/
theorem chunkLaw_induction {motive : Addr → Nat → List (Addr × Nat) → Prop}
    (last : ∀ a n, 1 ≤ n → n ≤ 256 - a.toNat % 256 → motive a n [(a, n)])
    (more : ∀ (a : Addr) n l, 256 - a.toNat % 256 < n →
      motive (a + BitVec.ofNat 24 (256 - a.toNat % 256)) (n - (256 - a.toNat % 256)) l →
      motive a n ((a, 256 - a.toNat % 256) :: l)) :
    ∀ (fuel : Nat) (a : Addr) (n : Nat), 1 ≤ n → n ≤ fuel → motive a n (chunkLaw fuel a n) := by
  intro fuel
  induction fuel with
  | zero => intro a n hpos hfuel; omega
  | succ fuel ih =>
    intro a n hpos hfuel
    rw [chunkLaw_succ (Nat.ne_of_gt hpos)]
    by_cases hfits : n ≤ 256 - a.toNat % 256
    · rw [min_eq_right hfits, Nat.sub_self, chunkLaw_zero]
      exact last a n hpos hfits
    · have hfull : 256 - a.toNat % 256 < n := Nat.lt_of_not_le hfits
      rw [min_eq_left hfull.le]
      exact more a n _ hfull (ih _ _ (by omega) (by omega))

/-- A page that is filled up to its end is followed by the start of the next. -/
theorem nextPage_aligned (a : Addr) : (a + BitVec.ofNat 24 (256 - a.toNat % 256)).toNat % 256 = 0 := by
  rw [BitVec.toNat_add, BitVec.toNat_ofNat]
  omega

/-- What R160 says of the chunks `l` of `n` bytes at `a`. -/
structure ChunkShape (a : Addr) (n : Nat) (l : List (Addr × Nat)) : Prop where
  length : l.length = 1 + (n - (256 - a.toNat % 256) + 255) / 256
  head : l.head? = some (a, min (256 - a.toNat % 256) n)
  later_aligned : ∀ x ∈ l.tail, x.1.toNat % 256 = 0
  inside_page : ∀ x ∈ l, 1 ≤ x.2 ∧ x.1.toNat % 256 + x.2 ≤ 256
  fills_page : ∀ x ∈ l.dropLast, x.1.toNat % 256 + x.2 = 256
  total : (l.map (fun x => x.2)).sum = n

theorem chunkShape_last {a : Addr} {n : Nat} (hpos : 1 ≤ n) (hfits : n ≤ 256 - a.toNat % 256) :
    ChunkShape a n [(a, n)] where
  length := by rw [Nat.sub_eq_zero_of_le hfits]; rfl
  head := by rw [min_eq_right hfits]; rfl
  later_aligned := nofun
  inside_page x hx := by
    obtain rfl := List.mem_singleton.1 hx
    exact ⟨hpos, by show a.toNat % 256 + n ≤ 256; omega⟩
  fills_page := nofun
  total := rfl

theorem chunkShape_more {a : Addr} {n : Nat} {l : List (Addr × Nat)} (hfull : 256 - a.toNat % 256 < n)
    (h : ChunkShape (a + BitVec.ofNat 24 (256 - a.toNat % 256)) (n - (256 - a.toNat % 256)) l) :
    ChunkShape a n ((a, 256 - a.toNat % 256) :: l) := by
  have haligned := nextPage_aligned a
  obtain ⟨hlength, hhead, hlater, hinside, hfills, htotal⟩ := h
  have hroom : 1 ≤ 256 - a.toNat % 256 ∧ a.toNat % 256 + (256 - a.toNat % 256) = 256 := by omega
  obtain ⟨x, l, rfl⟩ : ∃ x l', l = x :: l' := List.ne_nil_iff_exists_cons.1 (by rintro rfl; cases hhead)
  refine ⟨?_, ?_, ?_, ?_, ?_, ?_⟩
  · rw [haligned] at hlength
    rw [List.length_cons, hlength]
    omega
  · rw [min_eq_left hfull.le]
    rfl
  · refine List.forall_mem_cons.2 ⟨?_, hlater⟩
    rw [Option.some.inj hhead]
    exact haligned
  · exact List.forall_mem_cons.2 ⟨⟨hroom.1, hroom.2.le⟩, hinside⟩
  · exact List.forall_mem_cons.2 ⟨hroom.2, hfills⟩
  · rw [List.map_cons, List.sum_cons, htotal]
    omega

/-! ### A WRITE chunk by chunk -/

/-- NE's registers with all of a WRITE's remaining bytes counted. -/
def countRest (ne : NeState) : NeState :=
  { ne with
    off := ne.rlen, bytesDone := ne.rlen, curAddr := ne.curAddr + BitVec.ofNat 24 (ne.rlen - ne.off) }

/-- A chunk of all the bytes that are left is the rest. -/
theorem countChunk_last {b : NeState} (hlen : b.off + chunkLen b = b.rlen) : countChunk b = countRest b := by
  unfold countChunk countRest
  rw [hlen, Nat.eq_sub_of_add_eq' hlen]

/-- The rest is a chunk and what is left after it. -/
theorem countRest_countChunk {b : NeState} (hlen : b.off + chunkLen b ≤ b.rlen) :
    countRest (countChunk b) = countRest b := by
  have hsum : chunkLen b + (b.rlen - (b.off + chunkLen b)) = b.rlen - b.off := by omega
  show ({ b with off := b.rlen, bytesDone := b.rlen, curAddr := b.curAddr + _ + _ } : NeState) = countRest b
  rw [BitVec.add_assoc, ← BitVec.ofNat_add, countRest, ← hsum]
  rfl

section
variable {c : Config} {b : NeState} {z : Byte}

/-- One round of WRITE's loop: `WREN_SEQ`, and the chunk's page program with its busy-poll (R159). -/
theorem neRuns_chunk {Q : NeState → Prop} (hleft : b.off < b.rlen) (hz : busy c z = false)
    (hpass : ∀ u : State, Stands b .wrPoll u.ne → Q (chunkDone u).ne) :
    NeRuns c (Stands b .wrLoop) (chunkAnswers z)
      [⟨[c.cmdWren], 0⟩, ⟨[c.cmdRdsr], 1⟩, ⟨c.cmdPp :: addrBytes b.curAddr ++ chunkData b, 0⟩, ⟨[c.cmdRdsr], 1⟩] Q :=
  (neRuns_sendAndWait (pos := .wrLoop) (poll := .wrWePoll) (if_pos hleft) rfl rfl (fun _ => rfl) rfl hz
    fun _ h => h.goto).trans
    (neRuns_sendAndWait (pos := .wrProgram) (poll := .wrPoll) rfl rfl rfl (fun _ => rfl) rfl hz hpass)

/-- WRITE's loop from a chunk's start sends the chunks of the bytes that are left, and finishes OK. -/
theorem neRuns_chunks (hz : busy c z = false) (fuel : Nat) (a : Addr) (n : Nat) (hpos : 1 ≤ n) (hfuel : n ≤ fuel) :
    ∀ b : NeState, b.curAddr = a → b.off + n = b.rlen →
      NeRuns c (Stands b .wrLoop) ((chunkLaw fuel a n).flatMap fun _ => chunkAnswers z)
        (writeTransactions c (chunkLaw fuel a n) (b.wdata.drop b.off)) (Ends (countRest b) resOk) := by
  refine chunkLaw_induction (motive := fun a n l => ∀ b : NeState, b.curAddr = a → b.off + n = b.rlen →
    NeRuns c (Stands b .wrLoop) (l.flatMap fun _ => chunkAnswers z) (writeTransactions c l (b.wdata.drop b.off))
      (Ends (countRest b) resOk)) ?last ?more fuel a n hpos hfuel
  case last =>
    rintro _ n hpos hfits b rfl hn
    have hlen : chunkLen b = n := by rw [chunkLen, ← hn, Nat.add_sub_cancel_left]; exact min_eq_right hfits
    have hend := countChunk_last (b := b) (by rw [hlen, hn])
    have hchunk := neRuns_chunk (c := c) (b := b) (by omega) hz fun u hu => hu.chunkDone_last (by omega)
    rw [hend, chunkData, hlen] at hchunk
    exact hchunk
  case more =>
    rintro _ n l hfull ih b rfl hn
    have hlen : chunkLen b = 256 - b.curAddr.toNat % 256 := by
      rw [chunkLen, ← hn, Nat.add_sub_cancel_left]; exact min_eq_left hfull.le
    have hchunk := neRuns_chunk (c := c) (b := b) (by omega) hz fun u hu => hu.chunkDone_more (by omega)
    have hrest := ih (countChunk b) (by rw [← hlen]; rfl) (by
      show b.off + chunkLen b + _ = b.rlen
      omega)
    rw [countRest_countChunk (by omega)] at hrest
    rw [writeTransactions, List.drop_drop, ← hlen]
    exact hchunk.trans hrest

end

end Sys2Proof.Machine

namespace Sys2Proof

open Machine

/-- Settles O50: R160's chunks, taken off one by one, keep its shape (`ChunkShape`). -/
theorem chunkLawShape : Obligations.ChunkLawShape := by
  intro a n hn l
  obtain ⟨hlength, hhead, hlater, hinside, hfills, htotal⟩ :=
    chunkLaw_induction (motive := ChunkShape) (fun _ _ => chunkShape_last) (fun _ _ _ => chunkShape_more) n a n hn le_rfl
  exact ⟨hlength, hhead, hlater, hinside, hfills, htotal⟩

/-- Settles O49: the request stands at the loop's head with all bytes left; the loop sends its chunks (`neRuns_chunks`), or
finishes at once where there are none. -/
theorem writeSendsTheChunksInOrder : Obligations.WriteSendsTheChunksInOrder := by
  intro s a d z rest hp hw hn hz chunks steps hi
  let b := neAccepted .wrLoop a d.length d s.ne
  have hreq : NeRuns s.cfg (· = s.ne) [present ⟨4#3, a, d.length, d⟩] [] (Stands b .wrLoop) :=
    neRuns_request hp (fun _ => rfl) hn fun _ => rfl
  obtain ⟨t, hrun, hend, hit, htr⟩ : ∃ t, run steps s = .next t ∧ Ends (countRest b) resOk t.ne ∧ t.inputs = rest ∧
      transcript steps s = writeTransactions s.cfg chunks d := by
    by_cases hd : d = []
    · subst hd
      have hnone : countRest b = b := congrArg (fun x => { b with curAddr := x }) (BitVec.add_zero a)
      rw [hnone]
      exact (hreq.trans (neRuns_finish (pos := .wrLoop) rfl)).exists_run hw hi rfl
    · have hloop := neRuns_chunks hz d.length a d.length (List.length_pos_iff.2 hd) le_rfl b rfl (Nat.zero_add _)
      have hsteps : steps = 1 + 4 * chunks.length := if_neg hd
      rw [if_neg hd] at hi
      exact (hreq.trans hloop).exists_run hw hi (by simp [hsteps, chunks, chunkAnswers, Nat.mul_comm, Nat.add_comm])
  exact ⟨t, hrun, hend.phase, hend.done, hend.result, hend.bytesDone, hend.curAddr, hit, htr⟩

end Sys2Proof
end

section
/-! PROOFS. The units act at once (R10, R198): an operation writes its own unit's part of the state, neither reads nor
writes another's, and so operations of different units commute. -/

namespace Sys2Proof.Machine

/-- `s` with one unit's part, its registers and its outputs of the cycle, taken from `t`. NE's part holds the record of
the tick since the last poll (R229). -/
def withPart : BlockUnit → State → State → State
  | .bf, s, t =>
    { s with
      bf := t.bf
      out := { s.out with
        bfPushOk := t.out.bfPushOk, bfPopValid := t.out.bfPopValid
        bfPopData := t.out.bfPopData, bfOvf := t.out.bfOvf } }
  | .fd, s, t =>
    { s with
      fd := t.fd
      out := { s.out with
        fdFrameValid := t.out.fdFrameValid, fdChkErr := t.out.fdChkErr, fdSyncErr := t.out.fdSyncErr } }
  | .ne, s, t => { s with ne := t.ne, tickSince := t.tickSince, out := { s.out with busTx := t.out.busTx } }

/-- The parts of different units are disjoint, so the order of replacing them is none. -/
theorem withPart_comm {a b : BlockUnit} (h : a ≠ b) (s t u : State) :
    withPart a (withPart b s u) t = withPart b (withPart a s t) u := by
  cases a <;> cases b
  case bf.bf | fd.fd | ne.ne => exact absurd rfl h
  all_goals rfl

/-- An operation writes its own unit's part of the state alone (R20). -/
theorem withPart_of_exec {i : Instr} {s t : State} (hs : exec i s = .next t) : withPart (unitOf i) s t = t := by
  cases hi : unitOf i with
  | bf =>
    obtain ⟨p, q, hcycle⟩ := exec_bf hi
    rw [hcycle, bfCycle_eq_next] at hs
    obtain ⟨-, rfl⟩ := hs
    rfl
  | fd => obtain ⟨fd, v, e, y, rfl⟩ := exec_fd_only hi hs; rfl
  | ne => obtain ⟨ne, ts, x, rfl⟩ := exec_ne_only hi hs; rfl

section
variable {i : Instr} {a : BlockUnit} {s t : State}

/-- BF's cycle reads BF's registers, the configuration and the reset count. -/
theorem exec_bf_withPart (hi : unitOf i = .bf) (ha : a ≠ .bf) (hs : exec i s = .next t) (u : State) :
    exec i (withPart a s u) = .next (withPart a t u) := by
  obtain ⟨p, q, hcycle⟩ := exec_bf hi
  rw [hcycle, bfCycle_eq_next] at hs ⊢
  obtain ⟨hindex, rfl⟩ := hs
  cases a with
  | bf => exact absurd rfl ha
  | fd | ne => exact ⟨hindex, rfl⟩

/-- FD's rows read FD's registers and the configuration. -/
theorem exec_fd_withPart (hi : unitOf i = .fd) (ha : a ≠ .fd) (hs : exec i s = .next t) (u : State) :
    exec i (withPart a s u) = .next (withPart a t u) := by
  cases i <;> cases hi
  case fdPayloadMore b | fdPayloadLast b =>
    obtain ⟨hidx, rfl⟩ := fdTakePayload_eq_next.1 hs
    cases a with
    | fd => exact absurd rfl ha
    | bf | ne => exact fdTakePayload_eq_next.2 ⟨hidx, rfl⟩
  all_goals
    cases hs
    cases a with
    | fd => exact absurd rfl ha
    | bf | ne => rfl

/-- NE's rows do not see BF, FD or their outputs (`exec_withOthers`). -/
theorem exec_ne_withPart (hi : unitOf i = .ne) (ha : a ≠ .ne) (hs : exec i s = .next t) (u : State) :
    exec i (withPart a s u) = .next (withPart a t u) := by
  have hothers (bf : BfState) (fd : FdState) (o : Outputs) :
      exec i (withOthers bf fd o s) = .next (withOthers bf fd o t) := by
    rw [exec_withOthers bf fd o hi, hs, mapNext_next]
  obtain ⟨ne, ts, x, rfl⟩ := exec_ne_only hi hs
  cases a with
  | ne => exact absurd rfl ha
  | bf => exact hothers u.bf s.fd (withPart .bf s u).out
  | fd => exact hothers s.bf u.fd (withPart .fd s u).out

/-- An operation neither reads nor writes another unit's part: with that part replaced before it, it answers the same
next state with that part replaced (R198). -/
theorem exec_withPart (ha : a ≠ unitOf i) (hs : exec i s = .next t) (u : State) :
    exec i (withPart a s u) = .next (withPart a t u) := by
  cases hi : unitOf i with
  | bf => exact exec_bf_withPart hi (hi ▸ ha) hs u
  | fd => exact exec_fd_withPart hi (hi ▸ ha) hs u
  | ne => exact exec_ne_withPart hi (hi ▸ ha) hs u

end

end Sys2Proof.Machine

namespace Sys2Proof

open Machine

/-- Settles O8: each operation replaces its own unit's part (`withPart_of_exec`) and is blind to the other's
(`exec_withPart`), and the two replacements commute. -/
theorem unitsActTogetherInAnyOrder : Obligations.UnitsActTogetherInAnyOrder := by
  intro i j s t u hij ht hu
  have hti : withPart (unitOf i) s t = t := withPart_of_exec ht
  have huj : withPart (unitOf j) s u = u := withPart_of_exec hu
  have hj : exec j t = .next (withPart (unitOf i) u t) := by simpa only [hti] using exec_withPart hij hu t
  have hi : exec i u = .next (withPart (unitOf j) t u) := by simpa only [huj] using exec_withPart hij.symm ht u
  have hsame : withPart (unitOf i) u t = withPart (unitOf j) t u := by
    simpa only [hti, huj] using withPart_comm hij s t u
  exact ⟨withPart (unitOf i) u t, hj, hsame ▸ hi⟩

end Sys2Proof
end

section
/-! PROOFS. The window in which an accepted frame stays readable (R224): a byte a cycle is the fastest that FD can come
to its next writes of `len`, `sum` and `Buf`. -/

namespace Sys2Proof.Machine

/-- The least number of cycles from IDLE to where FD is: a sync byte takes a cycle each, the LENGTH byte the third, and
each payload byte one more. READ_CHECKSUM writes neither the frame nor `Buf` and leads to IDLE, so that it counts as
IDLE does. -/
def cyclesFromIdle (fd : FdState) : Nat :=
  if fd.st = stSawSync1 then 1
  else if fd.st = stReadLen then 2
  else if fd.st = stReadPayload then fd.idx.toNat + 3
  else 0

theorem cyclesFromIdle_idle {fd : FdState} (h : fd.st = stIdle) : cyclesFromIdle fd = 0 := by
  unfold cyclesFromIdle; rw [h]; rfl

theorem cyclesFromIdle_sawSync1 {fd : FdState} (h : fd.st = stSawSync1) : cyclesFromIdle fd = 1 := if_pos h

theorem cyclesFromIdle_readLen {fd : FdState} (h : fd.st = stReadLen) : cyclesFromIdle fd = 2 := by
  unfold cyclesFromIdle; rw [h]; rfl

theorem cyclesFromIdle_payload {fd : FdState} (h : fd.st = stReadPayload) : cyclesFromIdle fd = fd.idx.toNat + 3 := by
  unfold cyclesFromIdle; rw [h]; rfl

theorem cyclesFromIdle_checksum {fd : FdState} (h : fd.st = stReadChecksum) : cyclesFromIdle fd = 0 := by
  unfold cyclesFromIdle; rw [h]; rfl

/-- The index of a payload byte is at most one more than that of the byte before, wrapping or not. -/
theorem idx_add_one_le (idx : BitVec 11) : (idx + 1#11).toNat ≤ idx.toNat + 1 := by
  rw [BitVec.toNat_add]
  exact Nat.mod_le _ _

/-- A byte brings FD at most one cycle further from IDLE. -/
theorem cyclesFromIdle_byte (c : Config) (fd : FdState) (b : Byte) :
    cyclesFromIdle (fdAfter c fd b) ≤ cyclesFromIdle fd + 1 := by
  have hend : ∀ {fd' : FdState}, fd'.st = stIdle → cyclesFromIdle fd' ≤ cyclesFromIdle fd + 1 := fun hst =>
    (cyclesFromIdle_idle hst).trans_le (Nat.zero_le _)
  by_cases hlegal : fd.st.toNat ≤ 4
  case neg =>
    rw [fdAfter_badState (Nat.lt_of_not_le hlegal)]
    exact hend rfl
  rcases fdState_cases hlegal with hst | hst | hst | hst | hst
  · rw [fdAfter_idle hst]
    split
    · exact (cyclesFromIdle_sawSync1 rfl).trans_le (Nat.le_add_left 1 _)
    · exact hend hst
  · rw [fdAfter_sawSync1 hst]
    split
    · rw [cyclesFromIdle_readLen rfl, cyclesFromIdle_sawSync1 hst]
    · exact hend rfl
  · rw [fdAfter_readLen hst, cyclesFromIdle_payload rfl, cyclesFromIdle_readLen hst]
    rfl
  · rw [fdAfter_payload hst, cyclesFromIdle_payload hst]
    split
    · rw [cyclesFromIdle_payload rfl, Nat.add_right_comm]
      exact Nat.add_le_add_right (idx_add_one_le fd.idx) 3
    · exact (cyclesFromIdle_checksum rfl).trans_le (Nat.zero_le _)
  · rw [fdAfter_checksum hst]
    split <;> exact hend rfl

/-- What a cycle may not write that begins `n` cycles after IDLE. -/
structure KeepsFrame (n : Nat) (fd fd' : FdState) : Prop where
  len : n < 2 → fd'.len = fd.len
  sum : n < 2 → fd'.sum = fd.sum
  buf : ∀ j, n < 3 + j → Memory.read fd'.buf j = Memory.read fd.buf j

theorem KeepsFrame.refl (n : Nat) (fd : FdState) : KeepsFrame n fd fd := ⟨fun _ => rfl, fun _ => rfl, fun _ _ => rfl⟩

/-- Only a LENGTH byte and a payload byte write the frame: neither comes early enough. -/
theorem keepsFrame_byte {n : Nat} {fd : FdState} (h : cyclesFromIdle fd ≤ n) (c : Config) (b : Byte) :
    KeepsFrame n fd (fdAfter c fd b) := by
  by_cases hlen : fd.st = stReadLen
  · rw [cyclesFromIdle_readLen hlen] at h
    rw [fdAfter_readLen hlen]
    exact ⟨fun hn => absurd h hn.not_ge, fun hn => absurd h hn.not_ge, fun _ _ => rfl⟩
  by_cases hpayload : fd.st = stReadPayload
  · rw [cyclesFromIdle_payload hpayload] at h
    rw [fdAfter_payload hpayload]
    exact ⟨fun _ => rfl, fun hn => by omega, fun j hn => read_write_ne _ _ (by omega)⟩
  · unfold fdAfter
    rw [if_neg hlen, if_neg hpayload]
    split_ifs <;> exact ⟨fun _ => rfl, fun _ => rfl, fun _ _ => rfl⟩

/-- A run of `n` cycles without reset that begins `m` cycles after IDLE keeps what R224 says until its end. -/
theorem run_keepsFrame {m n : Nat} {s t : State} (h : cyclesFromIdle s.fd ≤ m)
    (hr : ∀ c ∈ s.inputs.take n, c.rst = false) (hrun : run n s = .next t) :
    (m + n ≤ 2 → t.fd.len = s.fd.len ∧ t.fd.sum = s.fd.sum) ∧ ∀ j, m + n ≤ 3 + j → t.bufByte j = s.bufByte j := by
  induction n generalizing m s with
  | zero => cases hrun; exact ⟨fun _ => ⟨rfl, rfl⟩, fun _ _ => rfl⟩
  | succ n ih =>
    obtain ⟨u, hstep, hrun'⟩ := (andThen_eq_next _ _ _).1 hrun
    obtain ⟨hr₁, hr'⟩ := nextIn_rst_of_take hr
    obtain ⟨hfd, hepoch, hinputs⟩ :
        u.fd = fdPart s.nextIn s ∧ u.epoch = s.epoch ∧ u.inputs = s.inputs.tail := by
      obtain ⟨-, ne, ts, x, -, rfl⟩ := step_next_eq hr₁ hstep
      exact ⟨rfl, rfl, rfl⟩
    obtain ⟨hage, hkeeps⟩ : cyclesFromIdle u.fd ≤ m + 1 ∧ KeepsFrame m s.fd u.fd := by
      rw [hfd, fdPart]
      cases fdByteIn s.nextIn s with
      | none => exact ⟨Nat.le_succ_of_le h, .refl m s.fd⟩
      | some b => exact ⟨(cyclesFromIdle_byte s.cfg s.fd b).trans (Nat.succ_le_succ h), keepsFrame_byte h s.cfg b⟩
    obtain ⟨hframe, hbuf⟩ := ih hage (hinputs ▸ hr') hrun'
    refine ⟨fun hn => ?_, fun j hn => ?_⟩
    · obtain ⟨hlen, hsum⟩ := hframe (by omega)
      exact ⟨hlen.trans (hkeeps.len (by omega)), hsum.trans (hkeeps.sum (by omega))⟩
    · rw [hbuf j (by omega), State.bufByte, hkeeps.buf j (by omega), hepoch, State.bufByte]

end Sys2Proof.Machine

namespace Sys2Proof

open Machine

/-- Settles O38: `n` cycles after IDLE, FD is not far enough in its next frame (`cyclesFromIdle`) to write what the
window still shows (`keepsFrame_byte`). -/
theorem frameReadWindow : Obligations.FrameReadWindow := by
  intro s t n hst hr hrun
  simpa only [Nat.zero_add] using
    run_keepsFrame (cyclesFromIdle_idle hst).le (fun c hc => hr c (List.mem_of_mem_take hc)) hrun

end Sys2Proof
end

section
/-! PROOFS. Reset (R220, R221), and a WRITE that is not well formed (R232). -/

namespace Sys2Proof.Machine

/-- Units apart, presenting a request to an idle NE is the request's row on the sampled block. -/
theorem step_request {s : State} {r : NeReq} {rest : List CycleIn} (hw : s.wiring = .separate)
    (hi : s.inputs = present r :: rest) (hp : s.ne.phase = .idle) :
    step s = exec (decodeNe r) (sample (present r) s) := by
  have hc := nextIn_cons hi
  rw [step_neAlone (by rw [hc]; rfl) (by rw [hc]; rfl) (by rw [hc, bfPopIn_separate hw]; rfl)
    (by rw [hc, fdByteIn_separate hw]; rfl), hc]
  exact neStep_request hp rfl _

end Sys2Proof.Machine

namespace Sys2Proof

open Machine

/-- Settles O1: the reset state has the registers that a reset cycle leaves (`resetBlock_inv`). The arrays' free contents
may differ between the two, but with `idx` = 0 the invariant reads none of them. -/
theorem resetEstablishesInvariant : Obligations.ResetEstablishesInvariant := by
  have hnow : State.reset.now < 2 ^ State.reset.cfg.tickW := Config.freeTick.isLt
  have h := resetBlock_inv State.reset hnow
  exact ⟨{ h.bf with }, { h.fd with sum_eq := fun _ => rfl }, h.ne.of_ne rfl rfl, hnow⟩

/-- Settles O5: a reset cycle is `resetBlock` on the sampled block (`cycle_reset`), whose registers are R221's. -/
theorem resetCycleWritesResetValues : Obligations.ResetCycleWritesResetValues := by
  intro s hr
  refine ⟨resetBlock (sample s.nextIn s), cycle_reset _ _ hr, ?bf, ?fd, ?ne, ?out⟩
  case bf => exact ⟨rfl, rfl, rfl, rfl, rfl⟩
  case fd => exact ⟨rfl, rfl, rfl, rfl, rfl, rfl, rfl, rfl⟩
  case ne => exact ⟨rfl, rfl, rfl, rfl, rfl, rfl, rfl, rfl, rfl, rfl, rfl, rfl⟩
  case out => exact ⟨rfl, rfl, rfl, rfl, rfl, rfl, rfl, rfl⟩

/-- Settles O43: the row refuses data of another length (`neRequest_mismatch`), the step that presents it is the row on
the sampled block (`step_request`), and data of its length is latched (`neRequest_accepted`). -/
theorem malformedWriteIsRefused : Obligations.MalformedWriteIsRefused := by
  refine fun s a n d hp hn => ⟨fun hd => ⟨neRequest_mismatch hp hn hd a, fun l hw hi => ?_⟩, fun hd => ?_⟩
  · exact (step_request hw hi hp).trans (neRequest_mismatch (s := sample (present ⟨4#3, a, n, d⟩) s) hp hn hd a)
  · exact ⟨_, neRequest_accepted hp hn (fun _ => hd) a, rfl⟩

end Sys2Proof
end
